-- ==== Sys2Proof/Word.lean ====
section
/-! DEFINITION. Bytes, grids of bits, canvas frames and the small named sets of the spec
(00_scope.md R5 to R7, 10_state.md R40, 30_encoding.md R90, R91). -/

namespace Sys2Proof

/-- A byte, bits 7 (most significant) to 0 (R5). -/
abbrev Byte := BitVec 8

/-- A host caller (R3a). Any natural number names one (log 12). -/
abbrev Caller := Nat

/-- The duration of a frame write (R33): a value with no law and no unit. DESIGN CHOICE, unsafe: that it is a natural
number; R33 and R200 name the type `Duration` and do not say what its values are (log 34). -/
abbrev Duration := Nat

/-- What the serial device says about a failure (R191, R193): opaque. DESIGN CHOICE, unsafe: that it is a natural
number (log 34). -/
abbrev DeviceInfo := Nat

/-- `ceil_div(a, b)` of R5, for `b > 0`. -/
def ceilDiv (a b : Nat) : Nat := (a + b - 1) / b

/-- Bytes per packed row (R7, R53). -/
def stride (w : Nat) : Nat := ceilDiv w 8

/-- A grid of `h` rows and `w` columns of bits (R6): row 0 is the top, column 0 the left. -/
structure Grid where
  h : Nat
  w : Nat
  cells : List (List Bool)
deriving DecidableEq, Repr, Inhabited

/-- The refresh mode of a panel frame (R91). -/
inductive Mode where
  | instant
  | buffered
deriving DecidableEq, Repr, Inhabited

/-- The six orientations of a panel (R90). -/
inductive Orientation where
  | normal
  | rot90
  | rot180
  | rot270
  | fliph
  | flipv
deriving DecidableEq, Repr, Inhabited

/-- Which decoder built a frame, or that the host built it (R40). -/
inductive FrameFormat where
  | host
  | rbm
  | fdis
deriving DecidableEq, Repr, Inhabited

/-- One canvas with its carried fields (R40). The block reads `width`, `height` and `bits` only.
`seq` is 32 bits wide: an FDIS frame's 16-bit number stands in its low half (log 28). -/
structure Frame where
  width : Nat
  height : Nat
  bits : List Byte
  seq : BitVec 32
  durationMs : BitVec 16
  flags : Byte
  timestamp : Option (BitVec 32)
  format : FrameFormat
deriving DecidableEq, Repr, Inhabited

end Sys2Proof
end

