-- ==== Sys2Proof/Config.lean ====
section
/-! DEFINITION. The configuration record the block latches (40_configure.md R111, 10_state.md R22 to R29), the
events by which the surroundings choose for the block (00_scope.md R3, R8), the parameters CONFIGURE does not carry
(R4), and the free values. -/

namespace Sys2Proof

/-- One entry of the panel table (R25). `addr` is a natural number so that a value outside 0..255
reaches CONFIGURE's own check (R113). -/
structure PanelConfig where
  id : String
  addr : Nat
  x : Nat
  y : Nat
  w : Nat
  h : Nat
  orient : Orientation
deriving DecidableEq, Repr, Inhabited

/-- The serial parameters (R29): opaque, handed to the device at CONNECT, read by no rule. DESIGN CHOICE, unsafe:
their types; R29, R4 and D38 say only that they are opaque, and do not exclude 1.5 stop bits, which no value here
stands for directly (log 33). -/
structure SerialParams where
  device : String
  baud : Nat
  parity : Nat
  dataBits : Nat
  stopBits : Nat
deriving DecidableEq, Repr, Inhabited

/-- The configuration record (R111). `targetFps` and `bufferDurationSeconds` are latched with the
rest and never read: they feed the FrameBuffer, which is out of scope (R2, R111; log 21). DESIGN CHOICE, unsafe:
that these two are natural numbers; R111 gives them no type, and does not exclude a fraction (log 31). -/
structure Config where
  canvasW : Nat
  canvasH : Nat
  panels : List PanelConfig
  strictTopology : Bool
  bufferedModeEnabled : Bool
  flushAddress : Byte
  interPanelDelayMs : Nat
  serial : SerialParams
  targetFps : Nat
  bufferDurationSeconds : Nat
deriving DecidableEq, Repr, Inhabited

/-- One answer of the serial device to the action it has been given. `ok` and `info` answer an open
(R187) and a close (R192); `accepted` and `duration` answer a write (R195): the count taken is
`accepted` cut to the frame's length, so that every count in [0, n] is some answer's (log 10). -/
structure DeviceAnswer where
  ok : Bool
  info : DeviceInfo
  accepted : Nat
  duration : Duration
deriving DecidableEq, Repr, Inhabited

/-- Which agent moves next (R3, R220, R251): a caller, the transmitter, or the serial device, which
then answers the action it has been given, if there is one. -/
inductive Event where
  | caller (c : Caller)
  | transmitter
  | device (a : DeviceAnswer)
deriving DecidableEq, Repr, Inhabited

/-- The values of the parameter `serial_progress` (R4, R201, D36). -/
inductive SerialProgress where
  | fair
  | mayHang
deriving DecidableEq, Repr, Inhabited

/-- The OPEN parameters of R4 that are no part of the configuration record: the set of callers (R3, R248, D53),
of which only membership is ever read, and the progress of the serial device (R201, D36). They are fixed
for a run: the state carries them to the step, and no step writes them (log 12). -/
structure Params where
  callers : List Caller
  serialProgress : SerialProgress
deriving DecidableEq, Repr, Inhabited

/-- Free value: the n-th event beyond those the state's schedule lists (R8, R220, log 9). -/
opaque Config.freeEvent : Nat → Event

end Sys2Proof
end

