-- ==== Sys2Proof/Syntax.lean ====
section
/-! DEFINITION. The instructions: one constructor per row of spec/opcode_table.json. -/

namespace Sys2Proof

/-- The operations of the block (R97), the commands of the panel protocol (R89) and the
orientations (R90), in the table's order. -/
inductive Instr where
  /-- R110 -/
  | configure (cfg : Config)
  /-- R126 -/
  | decodeRbm (msg : List Byte)
  /-- R130 -/
  | decodeFdis (msg : List Byte)
  /-- R140 -/
  | map (frame : Frame)
  /-- R166 -/
  | encodePanel (addr : Byte) (data : List Byte) (mode : Mode)
  /-- R174 -/
  | encodeFlush (addr : Byte)
  /-- R187 -/
  | connect
  /-- R192 -/
  | disconnect
  /-- R202 -/
  | sendFrame (bytes : List Byte)
  /-- R203 -/
  | sendFlush
  /-- R205 -/
  | tick (frame : Frame)
  /-- R222 -/
  | queryStatus
  /-- R168: a `80 87` frame at the receivers. -/
  | data7I (addr : Byte) (data : List Byte)
  /-- R169: a `80 92` frame at the receivers. -/
  | data14I (addr : Byte) (data : List Byte)
  /-- R170: a `80 93` frame at the receivers. -/
  | data14B (addr : Byte) (data : List Byte)
  /-- R171: a `80 83` frame at the receivers. -/
  | data28I (addr : Byte) (data : List Byte)
  /-- R172: a `80 84` frame at the receivers. -/
  | data28B (addr : Byte) (data : List Byte)
  /-- R173: a `80 82` frame at the receivers. -/
  | flush (addr : Byte)
  /-- R148 -/
  | orientNormal (grid : Grid)
  /-- R152 -/
  | orientRot90 (grid : Grid)
  /-- R149 -/
  | orientRot180 (grid : Grid)
  /-- R153 -/
  | orientRot270 (grid : Grid)
  /-- R150 -/
  | orientFliph (grid : Grid)
  /-- R151 -/
  | orientFlipv (grid : Grid)
deriving DecidableEq, Repr, Inhabited

end Sys2Proof
end

