-- ==== Sys2Proof/WellFormed.lean ====
section
/-! DEFINITION. When an instruction's operands have the type their rule states (R98): a wire command carries
exactly its N data bytes (R89), and a grid has the rows and columns it says it has (R6). Every other
operand is well formed whatever its value: what CONFIGURE, MAP or a decoder finds wrong in it is an error
result of that operation, not an ill-formed instruction. -/

namespace Sys2Proof

/-- The grid has `h` rows of `w` bits each (R6). -/
def Grid.wf (g : Grid) : Bool :=
  g.cells.length == g.h && g.cells.all (fun row => row.length == g.w)

/-- The instruction's operands have the type its rule states. -/
def Instr.wf : Instr → Bool
  | .configure _ => true
  | .decodeRbm _ => true
  | .decodeFdis _ => true
  | .map _ => true
  | .encodePanel _ _ _ => true
  | .encodeFlush _ => true
  | .connect => true
  | .disconnect => true
  | .sendFrame _ => true
  | .sendFlush => true
  | .tick _ => true
  | .queryStatus => true
  | .data7I _ data => data.length == 7
  | .data14I _ data => data.length == 14
  | .data14B _ data => data.length == 14
  | .data28I _ data => data.length == 28
  | .data28B _ data => data.length == 28
  | .flush _ => true
  | .orientNormal g => g.wf
  | .orientRot90 g => g.wf
  | .orientRot180 g => g.wf
  | .orientRot270 g => g.wf
  | .orientFliph g => g.wf
  | .orientFlipv g => g.wf

end Sys2Proof
end

