-- ==== Sys2Proof/Decode.lean ====
section
/-! DEFINITION. From codes to instructions and back (30_encoding.md). Three code spaces: the label byte of a
host operation with its structured operands (R97, R98), the bytes of a wire frame (R85, R86, R89), and the code
byte of an orientation with its operand grid (R90). Every literal of the wire and every label stands here once. -/

namespace Sys2Proof

/-! ### Literals -/

/-- The first byte of every wire frame (R85). -/
def startByte : Byte := 0x80

/-- The last byte of every wire frame (R85). -/
def endByte : Byte := 0x8F

/-- The six defined wire commands (R89). -/
inductive Command where
  | data7I
  | data14I
  | data14B
  | data28I
  | data28B
  | flush
deriving DecidableEq, Repr, Inhabited

/-- The command byte (R88, R89). -/
def Command.byte : Command → Byte
  | .data7I => 0x87
  | .data14I => 0x92
  | .data14B => 0x93
  | .data28I => 0x83
  | .data28B => 0x84
  | .flush => 0x82

/-- The number N of data bytes (R89). -/
def Command.dataLen : Command → Nat
  | .data7I => 7
  | .data14I => 14
  | .data14B => 14
  | .data28I => 28
  | .data28B => 28
  | .flush => 0

/-- The inverse map of R89, from command byte to command; none for an undefined byte (R93). -/
def commandOfByte (b : Byte) : Option Command :=
  if b = 0x87 then some .data7I
  else if b = 0x92 then some .data14I
  else if b = 0x93 then some .data14B
  else if b = 0x83 then some .data28I
  else if b = 0x84 then some .data28B
  else if b = 0x82 then some .flush
  else none

/-- The command table keyed by data length and refresh mode (R88, R165); none where the table has
no entry, (7, buffered) among them (R94). -/
def cmdLookup (n : Nat) (mode : Mode) : Option Command :=
  if n = 0 then some .flush
  else if n = 7 then
    match mode with
    | .instant => some .data7I
    | .buffered => none
  else if n = 14 then
    match mode with
    | .instant => some .data14I
    | .buffered => some .data14B
  else if n = 28 then
    match mode with
    | .instant => some .data28I
    | .buffered => some .data28B
  else none

/-- The twelve host operations (R97). -/
inductive HostOp where
  | configure
  | decodeRbm
  | decodeFdis
  | map
  | encodePanel
  | encodeFlush
  | connect
  | disconnect
  | sendFrame
  | sendFlush
  | tick
  | queryStatus
deriving DecidableEq, Repr, Inhabited

/-- The label of a host operation (R97). -/
def HostOp.label : HostOp → Byte
  | .configure => 0x01
  | .decodeRbm => 0x10
  | .decodeFdis => 0x11
  | .map => 0x20
  | .encodePanel => 0x28
  | .encodeFlush => 0x29
  | .connect => 0x30
  | .disconnect => 0x31
  | .sendFrame => 0x32
  | .sendFlush => 0x33
  | .tick => 0x34
  | .queryStatus => 0x40

/-- The operation of a label; none where R97's table has no such label. -/
def hostOpOfLabel (b : Byte) : Option HostOp :=
  if b = 0x01 then some .configure
  else if b = 0x10 then some .decodeRbm
  else if b = 0x11 then some .decodeFdis
  else if b = 0x20 then some .map
  else if b = 0x28 then some .encodePanel
  else if b = 0x29 then some .encodeFlush
  else if b = 0x30 then some .connect
  else if b = 0x31 then some .disconnect
  else if b = 0x32 then some .sendFrame
  else if b = 0x33 then some .sendFlush
  else if b = 0x34 then some .tick
  else if b = 0x40 then some .queryStatus
  else none

/-- The orientation codes of R90. -/
def orientationCode : Orientation → Byte
  | .normal => 0
  | .rot90 => 1
  | .rot180 => 2
  | .rot270 => 3
  | .fliph => 4
  | .flipv => 5

/-- The orientation of a code; codes 6..255 name none (I31). -/
def orientationOfCode (b : Byte) : Option Orientation :=
  if b = 0 then some .normal
  else if b = 1 then some .rot90
  else if b = 2 then some .rot180
  else if b = 3 then some .rot270
  else if b = 4 then some .fliph
  else if b = 5 then some .flipv
  else none

/-- The refresh-mode codes of R91. -/
def modeCode : Mode → Byte
  | .instant => 0
  | .buffered => 1

/-- The mode of a code; codes 2..255 name none (I31). -/
def modeOfCode (b : Byte) : Option Mode :=
  if b = 0 then some .instant else if b = 1 then some .buffered else none

/-! ### Codes -/

/-- A panel as it is handed over: the orientation is still a code. -/
structure RawPanel where
  id : String
  addr : Nat
  x : Nat
  y : Nat
  w : Nat
  h : Nat
  orient : Byte
deriving DecidableEq, Repr, Inhabited

/-- A configuration as it is handed over. -/
structure RawConfig where
  canvasW : Nat
  canvasH : Nat
  panels : List RawPanel
  strictTopology : Bool
  bufferedModeEnabled : Bool
  flushAddress : Byte
  interPanelDelayMs : Nat
  serial : SerialParams
  targetFps : Nat
  bufferDurationSeconds : Nat
deriving DecidableEq, Repr, Inhabited

/-- The operands that stand beside a host label (R97, R98). -/
inductive Operands where
  | none
  | config (c : RawConfig)
  | message (msg : List Byte)
  | frame (f : Frame)
  | panel (addr : Byte) (data : List Byte) (mode : Byte)
  | address (addr : Byte)
deriving DecidableEq, Repr, Inhabited

/-- What an instruction looks like before it is decoded. -/
inductive Code where
  /-- A host operation: its label and its operands. -/
  | host (label : Byte) (args : Operands)
  /-- A wire frame: its bytes. -/
  | wire (bytes : List Byte)
  /-- An orientation: its code and the grid it is applied to. -/
  | orient (code : Byte) (grid : Grid)
deriving DecidableEq, Repr, Inhabited

/-- Why a code is no instruction. -/
inductive DecodeError where
  /-- The label names no operation (R97). -/
  | unknownLabel (label : Byte)
  /-- The orientation code is outside 0..5 (R111, R245, I31). -/
  | unknownOrientation (code : Byte)
  /-- The mode code is outside 0..1 (R245, I31). -/
  | unknownMode (code : Byte)
  /-- The operand does not have the operation's type (R245). -/
  | wrongOperand
  /-- The bytes do not begin a wire frame (R101). -/
  | noStartByte
  /-- The command byte is undefined (R93, R101). -/
  | unknownCommand (cmd : Byte)
  /-- The bytes end before the frame does (R101). -/
  | incompleteFrame
  /-- The frame does not end in its end byte (R101). -/
  | noEndByte
  /-- Bytes follow the frame where exactly one frame is expected. -/
  | trailingBytes
deriving DecidableEq, Repr, Inhabited

/-! ### Wire frames -/

/-- A recognised wire frame (R101): its mode and length follow from the command (R89). -/
structure WireFrame where
  cmd : Command
  addr : Byte
  data : List Byte
deriving DecidableEq, Repr, Inhabited

/-- The bytes of a wire frame, in wire order (R85, R86). -/
def WireFrame.bytes (f : WireFrame) : List Byte :=
  [startByte, f.cmd.byte, f.addr] ++ f.data ++ [endByte]

/-- The frame's instruction. -/
def WireFrame.instr (f : WireFrame) : Instr :=
  match f.cmd with
  | .data7I => .data7I f.addr f.data
  | .data14I => .data14I f.addr f.data
  | .data14B => .data14B f.addr f.data
  | .data28I => .data28I f.addr f.data
  | .data28B => .data28B f.addr f.data
  | .flush => .flush f.addr

/-- One turn of R101's loop: the frame at the head of a byte string and what follows it. -/
def cutFrame : List Byte → Except DecodeError (WireFrame × List Byte)
  | [] => .error .noStartByte
  | [_] => .error .noStartByte
  | start :: cmd :: rest =>
    if start ≠ startByte then .error .noStartByte
    else
      match commandOfByte cmd with
      | none => .error (.unknownCommand cmd)
      | some k =>
        if rest.length < k.dataLen + 2 then .error .incompleteFrame
        else if rest.getD (k.dataLen + 1) 0 ≠ endByte then .error .noEndByte
        else
          .ok (⟨k, rest.headD 0, (rest.drop 1).take k.dataLen⟩, rest.drop (k.dataLen + 2))

/-! ### Decoding -/

/-- A panel of a configuration. -/
def RawPanel.decode (p : RawPanel) : Except DecodeError PanelConfig :=
  match orientationOfCode p.orient with
  | none => .error (.unknownOrientation p.orient)
  | some o => .ok ⟨p.id, p.addr, p.x, p.y, p.w, p.h, o⟩

/-- The panel table; the first panel with an unknown orientation refuses the whole. -/
def decodePanels : List RawPanel → Except DecodeError (List PanelConfig)
  | [] => .ok []
  | p :: ps =>
    match p.decode with
    | .error e => .error e
    | .ok q =>
      match decodePanels ps with
      | .error e => .error e
      | .ok qs => .ok (q :: qs)

/-- The configuration operand (R111): refused where an orientation is outside the six. -/
def RawConfig.decode (c : RawConfig) : Except DecodeError Config :=
  match decodePanels c.panels with
  | .error e => .error e
  | .ok ps =>
    .ok ⟨c.canvasW, c.canvasH, ps, c.strictTopology, c.bufferedModeEnabled, c.flushAddress,
      c.interPanelDelayMs, c.serial, c.targetFps, c.bufferDurationSeconds⟩

/-- A host operation with its operands (R97, R98): an operand of another type is refused by name
(R245), and so is a mode or an orientation code outside its range (I31). -/
def decodeOperands (op : HostOp) (args : Operands) : Except DecodeError Instr :=
  match op with
  | .configure =>
    match args with
    | .config c =>
      match c.decode with
      | .error e => .error e
      | .ok cfg => .ok (.configure cfg)
    | _ => .error .wrongOperand
  | .decodeRbm =>
    match args with
    | .message m => .ok (.decodeRbm m)
    | _ => .error .wrongOperand
  | .decodeFdis =>
    match args with
    | .message m => .ok (.decodeFdis m)
    | _ => .error .wrongOperand
  | .map =>
    match args with
    | .frame f => .ok (.map f)
    | _ => .error .wrongOperand
  | .encodePanel =>
    match args with
    | .panel addr data mode =>
      match modeOfCode mode with
      | none => .error (.unknownMode mode)
      | some m => .ok (.encodePanel addr data m)
    | _ => .error .wrongOperand
  | .encodeFlush =>
    match args with
    | .address addr => .ok (.encodeFlush addr)
    | _ => .error .wrongOperand
  | .connect =>
    match args with
    | .none => .ok .connect
    | _ => .error .wrongOperand
  | .disconnect =>
    match args with
    | .none => .ok .disconnect
    | _ => .error .wrongOperand
  | .sendFrame =>
    match args with
    | .message m => .ok (.sendFrame m)
    | _ => .error .wrongOperand
  | .sendFlush =>
    match args with
    | .none => .ok .sendFlush
    | _ => .error .wrongOperand
  | .tick =>
    match args with
    | .frame f => .ok (.tick f)
    | _ => .error .wrongOperand
  | .queryStatus =>
    match args with
    | .none => .ok .queryStatus
    | _ => .error .wrongOperand

/-- A host operation from its label and operands; a label outside R97's table is refused by name. -/
def decodeHost (label : Byte) (args : Operands) : Except DecodeError Instr :=
  match hostOpOfLabel label with
  | none => .error (.unknownLabel label)
  | some op => decodeOperands op args

/-- The instruction that applies an orientation to a grid. -/
def orientInstr (o : Orientation) (g : Grid) : Instr :=
  match o with
  | .normal => .orientNormal g
  | .rot90 => .orientRot90 g
  | .rot180 => .orientRot180 g
  | .rot270 => .orientRot270 g
  | .fliph => .orientFliph g
  | .flipv => .orientFlipv g

/-- An orientation from its code and its grid (R90): refused outside 0..5, or where the operand is
no grid (R245). -/
def decodeOrient (code : Byte) (g : Grid) : Except DecodeError Instr :=
  match orientationOfCode code with
  | none => .error (.unknownOrientation code)
  | some o => if g.wf then .ok (orientInstr o g) else .error .wrongOperand

/-- The decoder: total, and what is no instruction is refused by name. -/
def decode : Code → Except DecodeError Instr
  | .host label args => decodeHost label args
  | .orient code g => decodeOrient code g
  | .wire bytes =>
    match cutFrame bytes with
    | .error e => .error e
    | .ok (f, []) => .ok f.instr
    | .ok (_, _ :: _) => .error .trailingBytes

/-! ### Encoding -/

/-- A panel with its orientation as a code. -/
def PanelConfig.encode (p : PanelConfig) : RawPanel :=
  ⟨p.id, p.addr, p.x, p.y, p.w, p.h, orientationCode p.orient⟩

/-- A configuration with its orientations as codes. -/
def Config.encode (c : Config) : RawConfig :=
  ⟨c.canvasW, c.canvasH, c.panels.map PanelConfig.encode, c.strictTopology, c.bufferedModeEnabled,
    c.flushAddress, c.interPanelDelayMs, c.serial, c.targetFps, c.bufferDurationSeconds⟩

/-- The code of an instruction, from the same tables. -/
def encode : Instr → Code
  | .configure cfg => .host (HostOp.label .configure) (.config cfg.encode)
  | .decodeRbm m => .host (HostOp.label .decodeRbm) (.message m)
  | .decodeFdis m => .host (HostOp.label .decodeFdis) (.message m)
  | .map f => .host (HostOp.label .map) (.frame f)
  | .encodePanel addr data mode => .host (HostOp.label .encodePanel) (.panel addr data (modeCode mode))
  | .encodeFlush addr => .host (HostOp.label .encodeFlush) (.address addr)
  | .connect => .host (HostOp.label .connect) .none
  | .disconnect => .host (HostOp.label .disconnect) .none
  | .sendFrame m => .host (HostOp.label .sendFrame) (.message m)
  | .sendFlush => .host (HostOp.label .sendFlush) .none
  | .tick f => .host (HostOp.label .tick) (.frame f)
  | .queryStatus => .host (HostOp.label .queryStatus) .none
  | .data7I addr data => .wire (WireFrame.bytes ⟨.data7I, addr, data⟩)
  | .data14I addr data => .wire (WireFrame.bytes ⟨.data14I, addr, data⟩)
  | .data14B addr data => .wire (WireFrame.bytes ⟨.data14B, addr, data⟩)
  | .data28I addr data => .wire (WireFrame.bytes ⟨.data28I, addr, data⟩)
  | .data28B addr data => .wire (WireFrame.bytes ⟨.data28B, addr, data⟩)
  | .flush addr => .wire (WireFrame.bytes ⟨.flush, addr, []⟩)
  | .orientNormal g => .orient (orientationCode .normal) g
  | .orientRot90 g => .orient (orientationCode .rot90) g
  | .orientRot180 g => .orient (orientationCode .rot180) g
  | .orientRot270 g => .orient (orientationCode .rot270) g
  | .orientFliph g => .orient (orientationCode .fliph) g
  | .orientFlipv g => .orient (orientationCode .flipv) g

/-! ### The opcode table's words -/

/-- Operands of zeros: what stands beside a label when the table gives the operands no bits. -/
def zeroConfig : RawConfig :=
  ⟨0, 0, [], false, false, 0, 0, ⟨"", 0, 0, 0, 0⟩, 0, 0⟩

def zeroFrame : Frame := ⟨0, 0, [], 0, 0, 0, none, .host⟩

def zeroOperands (op : HostOp) : Operands :=
  match op with
  | .configure => .config zeroConfig
  | .decodeRbm => .message []
  | .decodeFdis => .message []
  | .map => .frame zeroFrame
  | .encodePanel => .panel 0 [] 0
  | .encodeFlush => .address 0
  | .connect => .none
  | .disconnect => .none
  | .sendFrame => .message []
  | .sendFlush => .none
  | .tick => .frame zeroFrame
  | .queryStatus => .none

/-- The code of a word of the opcode table (log 5). Eight bits are a host label, and where they are
none an orientation code; sixteen bits are the start byte and the command byte of a wire frame, high
byte first, whose ADDR and data bytes are zero and which its fixed end byte closes (R85). -/
def tableCode (nbits w : Nat) : Option Code :=
  if nbits = 8 then
    match hostOpOfLabel (BitVec.ofNat 8 w) with
    | some op => some (.host (BitVec.ofNat 8 w) (zeroOperands op))
    | none => some (.orient (BitVec.ofNat 8 w) ⟨0, 0, []⟩)
  else if nbits = 16 then
    some (.wire ([BitVec.ofNat 8 (w / 256), BitVec.ofNat 8 w, 0]
      ++ List.replicate (((commandOfByte (BitVec.ofNat 8 w)).map Command.dataLen).getD 0) 0
      ++ [endByte]))
  else none

/-- The instruction the decoder reads from a word of the opcode table. -/
def decodeTableWord (nbits w : Nat) : Option Instr :=
  match tableCode nbits w with
  | none => none
  | some c =>
    match decode c with
    | .ok i => some i
    | .error _ => none

end Sys2Proof
end

