-- ==== Sys2Proof/Machine/State.lean ====
section
/-! DEFINITION. The state of the block (10_state.md), of its callers and of the receivers, as plain data; the
results operations return; the reset state (10_state.md R44); why a step can stop. -/

namespace Sys2Proof.Machine

/-! ### Results -/

/-- One panel's payload, as MAP returns it (R140, R156). -/
structure PanelPayload where
  index : Nat
  addr : Byte
  w : Nat
  h : Nat
  rows : List Byte
  cols : List Byte
deriving DecidableEq, Repr, Inhabited

/-- The connection state machine (R30). -/
inductive ConnState where
  | disconnected
  | connecting
  | connected
deriving DecidableEq, Repr, Inhabited

/-- The snapshot QUERY_STATUS returns (R222). -/
structure Status where
  configured : Bool
  conn : ConnState
  busy : Bool
  lastWriteDuration : Option Duration
  truncated : Bool
deriving DecidableEq, Repr, Inhabited

/-- What TICK adds to a write error (R213, R225): where in the batch it happened. -/
structure BatchPos where
  frameIndex : Nat
  framesWritten : Nat
deriving DecidableEq, Repr, Inhabited

/-- The errors of R225, each with the info it records. -/
inductive Err where
  | badMagicOrVersion
  | shortPayload (need have_ : Nat)
  | payloadLengthMismatch (expected got : Nat)
  | dimensionOutOfRange (width height : Nat)
  | shortHeader (have_ : Nat)
  | panelOutOfBounds (k : Nat)
  | duplicateAddress (j k : Nat)
  /-- UnsupportedDataWidth as CONFIGURE reports it: the panel's index (R115). -/
  | unsupportedDataWidth (k : Nat)
  /-- UnsupportedDataWidth as ENCODE_PANEL reports it: the length and the mode (R166). -/
  | unsupportedDataWidthMode (n : Nat) (mode : Mode)
  | panelOverlap (j k : Nat)
  | mixedWidthClass (j k : Nat)
  | addressOutOfRange (k : Nat)
  | invalidCanvas (w h : Nat)
  | unsupportedPanelHeight (k : Nat)
  | notConfigured
  | alreadyConfigured
  | canvasLengthMismatch (need have_ : Nat)
  | connectError (info : DeviceInfo)
  | notConnected (pos : Option BatchPos)
  | shortWrite (written length : Nat) (pos : Option BatchPos)
  | disconnectError (info : DeviceInfo)
deriving DecidableEq, Repr, Inhabited

/-- What a successful operation returns (R9). -/
inductive Value where
  /-- `Ok()` -/
  | unit
  /-- A decoded canvas (R126, R131). -/
  | frame (f : Frame)
  /-- MAP's list (R140). -/
  | payloads (ps : List PanelPayload)
  /-- A wire frame's bytes (R166, R174). -/
  | bytes (bs : List Byte)
  /-- TICK's result (R214). -/
  | tick (framesWritten : Nat) (flushed : Bool)
  /-- QUERY_STATUS's snapshot (R222). -/
  | status (st : Status)
  /-- An orientation's output grid (R147). -/
  | grid (g : Grid)
deriving DecidableEq, Repr, Inhabited

/-- The result of an operation (R9): `Ok(v)` or `Err(code, info)`. -/
inductive Result where
  | ok (v : Value)
  | err (e : Err)
deriving DecidableEq, Repr, Inhabited

/-- A result as it went to its caller. -/
structure Returned where
  caller : Caller
  result : Result
deriving DecidableEq, Repr, Inhabited

/-! ### Operations under way -/

/-- The transmit operation in flight (R36). `frames` are its panel frames (or SEND_FRAME's one byte
string), `cur` the index of the next to write (R37), `flush` the frame that follows the last. -/
structure Batch where
  owner : Caller
  frames : List (List Byte)
  cur : Nat
  anyBuffered : Bool
  flush : Option (List Byte)
deriving DecidableEq, Repr, Inhabited

/-- Which operation a batch belongs to: SEND_FRAME and SEND_FLUSH (R202, R203), or TICK (R205). -/
inductive TxKind where
  | send
  | tick
deriving DecidableEq, Repr, Inhabited

/-- How far a caller's outstanding operation has got (R9, R187, R192, R195, R201). -/
inductive Phase where
  /-- CONNECT waits for the connection lock. -/
  | connectWait
  /-- CONNECT holds the connection lock; the device has been handed `serial` (R188) and has not answered. -/
  | opening (serial : SerialParams)
  /-- DISCONNECT waits for the connection lock. -/
  | disconnectWait
  /-- DISCONNECT holds the connection lock; the device has not answered the close. -/
  | closing
  /-- A transmit operation waits for the write lock with its frames ready. -/
  | writeWait (kind : TxKind) (batch : Batch)
  /-- The operation holds the write lock and stands before its next frame write; `idleMs` is the
  lower bound of the idle time before it (R210, log 16). -/
  | ready (kind : TxKind) (idleMs : Nat)
  /-- The frame write holds both locks; the device has not answered it (R195, R201). -/
  | writing (kind : TxKind)
deriving DecidableEq, Repr, Inhabited

/-- An operation a caller has issued and the block has not yet taken up. -/
structure Request where
  caller : Caller
  code : Code
deriving DecidableEq, Repr, Inhabited

/-! ### Receivers -/

/-- What a panel displays (R41). -/
inductive Shown where
  | unknown
  | cols (d : List Byte)
deriving DecidableEq, Repr, Inhabited

/-- What a panel holds for the next flush (R41): unknown, nothing, or column data. -/
inductive Held where
  | unknown
  | nothing
  | cols (d : List Byte)
deriving DecidableEq, Repr, Inhabited

/-- The observed state of one panel (R41). -/
structure RxState where
  displayed : Shown
  held : Held
deriving DecidableEq, Repr, Inhabited

/-- What the receivers keep of one panel: its observed state, or that a frame of another width has made it
unknown for the rest of the run (R176, R269, I14; log 32). -/
inductive RxPanel where
  | live (r : RxState)
  | lost
deriving DecidableEq, Repr, Inhabited

/-! ### The state -/

/-- The machine's state: the block (R20), the receivers' place in the wire, the callers, and the
choices still to come. -/
structure State where
  /-- The OPEN parameters of R4, fixed for the run (log 12). -/
  params : Params
  /-- R21 -/
  configured : Bool
  /-- R22 to R29; no operation reads it before CONFIGURE has succeeded. -/
  cfg : Config
  /-- R30 -/
  conn : ConnState
  /-- R31 -/
  writeLock : Option Caller
  /-- R32 -/
  connLock : Option Caller
  /-- R33 -/
  lastWriteDuration : Option Duration
  /-- R34, oldest byte first. -/
  wire : List Byte
  /-- R35 -/
  truncated : Bool
  /-- R36 -/
  batch : Option Batch
  /-- R41: the addresses of which more is kept than a state `unknown, unknown`, strictly rising. -/
  rx : List (Nat × RxPanel)
  /-- How many bytes of `wire` the receivers have taken (R176). -/
  rxPos : Nat
  /-- The stream has lost its meaning for the rest of the run (R183). -/
  rxLost : Bool
  /-- Issued and not yet taken up, oldest first (R3a). -/
  requests : List Request
  /-- The outstanding operation of each caller that has one (D53), callers strictly rising. -/
  ops : List (Nat × Phase)
  /-- Every result returned so far, oldest first (R9). -/
  results : List Returned
  /-- The caller whose operation is executing (R3a). -/
  turn : Caller
  /-- The events to come (R8, R220, log 9). -/
  schedule : List Event
  /-- How many events have been drawn from `Config.freeEvent`. -/
  draws : Nat
deriving DecidableEq, Repr, Inhabited

/-- The configuration before CONFIGURE: R44 leaves it unspecified and no operation reads it (log 2).
The flush address and the inter-panel delay stand at R28's values. -/
def cfgAtReset : Config :=
  { canvasW := 0, canvasH := 0, panels := [], strictTopology := false, bufferedModeEnabled := false,
    flushAddress := 0xFF, interPanelDelayMs := 0,
    serial := { device := "", baud := 0, parity := 0, dataBits := 0, stopBits := 0 },
    targetFps := 0, bufferDurationSeconds := 0 }

/-- The parameters the model's own reset state carries: two callers, and a device that may hang, which is D36's
safe reading. DESIGN CHOICE, unsafe: R4 leaves both open (log 12). -/
def paramsAtReset : Params := { callers := [0, 1], serialProgress := .mayHang }

/-- The state after reset (R44, R255), for any parameters. -/
def State.resetWith (p : Params) : State :=
  { params := p, configured := false, cfg := cfgAtReset, conn := .disconnected, writeLock := none, connLock := none,
    lastWriteDuration := none, wire := [], truncated := false, batch := none, rx := [], rxPos := 0,
    rxLost := false, requests := [], ops := [], results := [], turn := 0, schedule := [], draws := 0 }

/-- The state after reset (R44, R255), with the model's own parameters. -/
def State.reset : State := State.resetWith paramsAtReset

/-- Why a step can stop with a fault. The spec has none (R245): every error of R225 is a result. -/
inductive Fault where
  /-- A lock, the batch and the operations under way contradict each other. Raised by the
  transmitter's and the device's step, in states no run reaches (Safety's invariant rules them out).
  Safe: a claim about such a state cannot be proved. -/
  | inconsistent
deriving DecidableEq, Repr, Inhabited

/-- Why a step can be refused. -/
inductive Refusal where
  /-- Raised by exec's arm of an instruction that has no meaning yet. Safe. -/
  | notModelled (mnemonic : String)
  /-- Raised by a caller's step whose request has a label outside R97 (R245, I31). Safe. -/
  | unknownLabel (label : Byte)
  /-- Raised by a caller's step whose request names an orientation outside the six (R111, R245). Safe. -/
  | unknownOrientation (code : Byte)
  /-- Raised by a caller's step whose request names a mode outside R91's two (I31). Safe. -/
  | unknownMode (code : Byte)
  /-- Raised by a caller's step whose request has an operand of the wrong type (R245). Safe. -/
  | wrongOperand
  /-- Raised by a caller's step whose request is a wire frame that does not decode: callers issue
  host operations only. Safe. -/
  | notAnOperation
deriving DecidableEq, Repr, Inhabited

end Sys2Proof.Machine
end

