-- ==== Sys2Proof/Machine/Flags.lean ====
section
/-! DEFINITION. The block has no arithmetic flags (10_state.md R39). Its status indications, and the snapshot of
them QUERY_STATUS returns (44_transport.md R222), are computed here. -/

namespace Sys2Proof.Machine

/-- `busy` (R39): a transmit operation holds the write lock. -/
def State.busy (s : State) : Bool := s.writeLock.isSome

/-- The snapshot of R222. -/
def State.status (s : State) : Status :=
  ⟨s.configured, s.conn, s.busy, s.lastWriteDuration, s.truncated⟩

end Sys2Proof.Machine
end

