-- ==== Sys2Proof/Machine/Operands.lean ====
section
/-! DEFINITION. Reading operands: the fields of a message (00_scope.md R7, 20_memory.md R59, R60), the pixels of a
canvas (R54), the bits of a grid (R6), and packing bits into bytes (R56, R57). -/

namespace Sys2Proof.Machine

/-- `s[i]` (R6), read only where the rule has checked the length (R51). -/
def byteAt (s : List Byte) (i : Nat) : Nat := (s.getD i 0).toNat

/-- `MemRead(s, i, n)` (R8). -/
def slice (s : List Byte) (i n : Nat) : List Byte := (s.drop i).take n

/-- R7. -/
def be16 (s : List Byte) (i : Nat) : Nat := byteAt s i * 256 + byteAt s (i + 1)

/-- R7. -/
def be32 (s : List Byte) (i : Nat) : Nat := be16 s i * 65536 + be16 s (i + 2)

/-- R7. -/
def le16 (s : List Byte) (i : Nat) : Nat := byteAt s i + byteAt s (i + 1) * 256

/-- R7. -/
def le32 (s : List Byte) (i : Nat) : Nat := le16 s i + le16 s (i + 2) * 65536

/-- The pixel (x, y) of a canvas of width `w`: the leftmost pixel of a byte is bit 7 (R54), and a set
bit is a set pixel (R55). -/
def pixel (bits : List Byte) (w x y : Nat) : Bool :=
  (bits.getD (y * stride w + x / 8) 0).getLsbD (7 - x % 8)

/-- `G[r][c]` (R6). -/
def gridBit (g : Grid) (r c : Nat) : Bool := (g.cells.getD r []).getD c false

/-- The `h × w` grid whose bit (r, c) is `f r c`. -/
def gridOf (h w : Nat) (f : Nat → Nat → Bool) : Grid :=
  ⟨h, w, (List.range h).map fun r => (List.range w).map fun c => f r c⟩

/-- The byte whose bit i is `f i`, bits 0 to 7 (R5). -/
def byteOf (f : Nat → Bool) : Byte :=
  BitVec.ofNat 8 (((List.range 8).map fun i => if f i then 2 ^ i else 0).sum)

end Sys2Proof.Machine
end

