-- ==== Sys2Proof/Machine/Ops.lean ====
section
/-! DEFINITION. The operations every meaning is built from: tables keyed by number in one canonical form, returning a
result or raising an error (60_exceptions.md R226, R242: there is no trap entry; an error is a result that ends the
operation), the two locks (44_transport.md R218, R220), the wire (R197), and the receivers' view of it. -/

namespace Sys2Proof.Machine

/-! ### Tables: lists of entries by key, keys strictly rising -/

/-- The entry of a key. -/
def tableGet {α : Type} : List (Nat × α) → Nat → Option α
  | [], _ => none
  | (k, v) :: t, a => if a = k then some v else tableGet t a

/-- The table with the entry of a key set. -/
def tablePut {α : Type} : List (Nat × α) → Nat → α → List (Nat × α)
  | [], a, v => [(a, v)]
  | (k, w) :: t, a, v =>
    if a < k then (a, v) :: (k, w) :: t
    else if a = k then (a, v) :: t
    else (k, w) :: tablePut t a v

/-- The table without the entry of a key. -/
def tableDrop {α : Type} (t : List (Nat × α)) (a : Nat) : List (Nat × α) :=
  t.filter fun e => e.1 != a

/-- The canonical form: keys strictly rising. -/
abbrev tableWf {α : Type} (t : List (Nat × α)) : Prop :=
  (t.map Prod.fst).Pairwise (· < ·)

/-! ### Outstanding operations and results -/

/-- The outstanding operation of a caller (D53). -/
def State.opOf (s : State) (c : Caller) : Option Phase := tableGet s.ops c

/-- The caller's outstanding operation has got to a phase. -/
def State.setOp (s : State) (c : Caller) (p : Phase) : State :=
  { s with ops := tablePut s.ops c p }

/-- A result goes to its caller (R9, R226). -/
def State.answer (s : State) (c : Caller) (r : Result) : State :=
  { s with results := s.results ++ [⟨c, r⟩] }

/-- An error result goes to its caller and changes nothing else (R226, R242). -/
def State.raise (s : State) (c : Caller) (e : Err) : State := s.answer c (.err e)

/-- The caller's outstanding operation ends with a result. -/
def State.finish (s : State) (c : Caller) (r : Result) : State :=
  { s with ops := tableDrop s.ops c, results := s.results ++ [⟨c, r⟩] }

/-- The result of a computation that either answers or raises. -/
def resultOf {α : Type} (f : α → Value) : Except Err α → Result
  | .ok v => .ok (f v)
  | .error e => .err e

/-! ### Locks -/

/-- Take the connection lock and go on, or wait for it (R187, R192, R220). The body sees the lock free
and takes it itself where it keeps it. -/
def acquireConn (c : Caller) (wait : Phase) (body : State → State) (s : State) : State :=
  match s.connLock with
  | none => body s
  | some _ => s.setOp c wait

/-- Take the write lock for a batch and stand before its first frame write, or wait for the lock
(R202, R204, R205, R220). -/
def acquireWrite (c : Caller) (kind : TxKind) (b : Batch) (s : State) : State :=
  match s.writeLock with
  | none => { s with writeLock := some c, batch := some b }.setOp c (.ready kind 0)
  | some _ => s.setOp c (.writeWait kind b)

/-! ### The wire -/

/-- `WireAppend(bytes)` (R197). -/
def State.wireAppend (s : State) (bs : List Byte) : State := { s with wire := s.wire ++ bs }

/-- The frame the batch writes next: the panel frame at `cur`, and after the last one the flush if a
buffered frame was among them (R205, R212). -/
def Batch.current (b : Batch) : Option (List Byte) :=
  if b.cur < b.frames.length then b.frames[b.cur]?
  else if b.anyBuffered then b.flush
  else none

/-! ### The receivers' view -/

/-- The panels of a configured block (R176). -/
def State.panels (s : State) : List PanelConfig := if s.configured then s.cfg.panels else []

/-- What the model knows of a panel at reset, and after anything the source is silent on (R41). -/
def rxUnknown : RxState := ⟨.unknown, .unknown⟩

/-- What an address that is not listed stands for. -/
def rxUnlisted : RxPanel := .live rxUnknown

/-- `rx(a)` as R41 gives it: a lost panel is unknown. -/
def RxPanel.seen : RxPanel → RxState
  | .live r => r
  | .lost => rxUnknown

/-- A frame changes what is kept of a panel; a lost panel stays lost (R269; log 32). -/
def RxPanel.update (f : RxState → RxState) : RxPanel → RxPanel
  | .live r => .live (f r)
  | .lost => .lost

/-- What is kept of the panel at an address. -/
def rxGet (rx : List (Nat × RxPanel)) (a : Nat) : RxPanel := (tableGet rx a).getD rxUnlisted

/-- Set what is kept of the panel at an address, keeping the canonical form. -/
def rxPut (rx : List (Nat × RxPanel)) (a : Nat) (v : RxPanel) : List (Nat × RxPanel) :=
  if v = rxUnlisted then tableDrop rx a else tablePut rx a v

/-- The canonical form of `rx`: addresses strictly rising, each a bus address, and none listed that
stands for no more than an unlisted address does. -/
abbrev rxWf (rx : List (Nat × RxPanel)) : Prop :=
  tableWf rx ∧ (∀ e ∈ rx, e.2 ≠ rxUnlisted) ∧ ∀ e ∈ rx, e.1 < 256

/-- What is kept of the panel at a bus address. -/
def State.rxPanel (s : State) (a : Byte) : RxPanel := rxGet s.rx a.toNat

/-- `rx(a)` in a state (R41). -/
def State.rxAt (s : State) (a : Byte) : RxState := (s.rxPanel a).seen

/-- The receivers have something to do: a frame to take, or a stream just broken (R176, R183). -/
def State.receiversDue (s : State) : Bool :=
  !s.rxLost && (s.truncated || decide (s.rxPos < s.wire.length))

/-- The stream has lost its meaning: every panel is unknown for the rest of the run (R183). -/
def State.loseStream (s : State) : State := { s with rx := [], rxLost := true }

/-! ### Choices -/

/-- The next event: the head of the schedule, or the free value (R8, R220, log 9). -/
def State.takeEvent (s : State) : Event × State :=
  match s.schedule with
  | e :: rest => (e, { s with schedule := rest })
  | [] => (Config.freeEvent s.draws, { s with draws := s.draws + 1 })

/-! ### Fetching -/

/-- The oldest request of a caller, and the requests without it. -/
def takeRequest (c : Caller) : List Request → Option (Code × List Request)
  | [] => none
  | r :: rs =>
    if r.caller = c then some (r.code, rs)
    else
      match takeRequest c rs with
      | none => none
      | some (code, rest) => some (code, r :: rest)

/-- A decode error of a caller's request, as a refusal (R245). -/
def refusalOf : DecodeError → Refusal
  | .unknownLabel l => .unknownLabel l
  | .unknownOrientation o => .unknownOrientation o
  | .unknownMode m => .unknownMode m
  | .wrongOperand => .wrongOperand
  | .noStartByte => .notAnOperation
  | .unknownCommand _ => .notAnOperation
  | .incompleteFrame => .notAnOperation
  | .noEndByte => .notAnOperation
  | .trailingBytes => .notAnOperation

/-- A caller's request as an operation: callers issue host operations and orientations; a wire
command runs only where the receivers read it from the wire. -/
def decodeRequest (code : Code) : Except Refusal Instr :=
  match code with
  | .wire _ => .error .notAnOperation
  | .host label args =>
    match decode (.host label args) with
    | .ok i => .ok i
    | .error e => .error (refusalOf e)
  | .orient o g =>
    match decode (.orient o g) with
    | .ok i => .ok i
    | .error e => .error (refusalOf e)

/-- The operation a caller's turn takes up: its oldest request, decoded, and the state in which it
executes. None where the caller has issued none. -/
def fetchRequest (c : Caller) (s : State) : Option (Except Refusal Instr × State) :=
  match takeRequest c s.requests with
  | none => none
  | some (code, rest) => some (decodeRequest code, { s with requests := rest, turn := c })

/-- The wire frame the receivers take next, as an instruction, and the state with their place moved
past it; none where the bytes there are no whole frame (R101, R183). -/
def fetchFrame (s : State) : Option (Instr × State) :=
  if s.truncated then none
  else
    match cutFrame (s.wire.drop s.rxPos) with
    | .error _ => none
    | .ok (f, _) => some (f.instr, { s with rxPos := s.rxPos + f.bytes.length })

/-! ### Placing one instruction where the next step takes it -/

/-- A caller with no outstanding operation. -/
def State.freshCaller (s : State) : Caller := s.ops.foldr (fun e m => max (e.1 + 1) m) 0

/-- The receivers have nothing left to do (log 3). -/
def State.caughtUp (s : State) : State :=
  if s.rxLost then s
  else if s.truncated then s.loseStream
  else { s with rxPos := s.wire.length }

/-- A request placed as the oldest one of a caller that has none outstanding, which is made a member of the set
of callers if it is not one (D53), with that caller's turn next and the receivers caught up. -/
def State.placeRequest (s : State) (code : Code) : State :=
  { s.caughtUp with
    params := { s.params with callers := s.params.callers.insert s.freshCaller }
    requests := ⟨s.freshCaller, code⟩ :: s.requests
    schedule := .caller s.freshCaller :: s.schedule }

/-- `s` with one code placed so that the next step runs it (log 3): a host operation or an orientation
as a caller's request; a wire frame at the end of the wire, where the receivers stand. -/
def State.place (s : State) (code : Code) : State :=
  match code with
  | .wire bytes =>
    { s with wire := s.wire ++ bytes, rxPos := s.wire.length, rxLost := false, truncated := false }
  | .host label args => s.placeRequest (.host label args)
  | .orient o g => s.placeRequest (.orient o g)

end Sys2Proof.Machine
end

