-- ==== Sys2Proof/Machine/Codec.lean ====
section
/-! DEFINITION. The ingest decoders (41_codec.md, 30_encoding.md R81 to R84). -/

namespace Sys2Proof.Machine

/-- The length of either ingest header (R81, R83). -/
def headerLen : Nat := 16

/-- "RB" (R63; the byte values are ASCII, log 22). -/
def rbmMagic : List Byte := [0x52, 0x42]

/-- The one RBM version (R81). -/
def rbmVersion : Byte := 0x01

/-- "FDIS" (R63; the byte values are ASCII, log 22). -/
def fdisMagic : List Byte := [0x46, 0x44, 0x49, 0x53]

/-- The FDIS dimension limit (R131). -/
def fdisLimit : Nat := 1024

/-- DECODE_RBM (R126 to R129): `flags` and `reserved` are not checked (R95). -/
def decodeRbm (msg : List Byte) : Except Err Frame :=
  if msg.length < headerLen then .error (.shortHeader msg.length)
  else if slice msg 0 2 ≠ rbmMagic ∨ msg.getD 2 0 ≠ rbmVersion then .error .badMagicOrVersion
  else if msg.length - headerLen < be16 msg 6 * ceilDiv (be16 msg 4) 8 then
    .error (.shortPayload (be16 msg 6 * ceilDiv (be16 msg 4) 8) (msg.length - headerLen))
  else
    .ok
      { width := be16 msg 4
        height := be16 msg 6
        bits := slice msg headerLen (be16 msg 6 * ceilDiv (be16 msg 4) 8)
        seq := BitVec.ofNat 32 (be32 msg 8)
        durationMs := BitVec.ofNat 16 (be16 msg 12)
        flags := msg.getD 3 0
        timestamp := none
        format := .rbm }

/-- DECODE_FDIS (R130 to R133). -/
def decodeFdis (msg : List Byte) : Except Err Frame :=
  if msg.length < headerLen then .error (.shortHeader msg.length)
  else if slice msg 0 4 ≠ fdisMagic then .error .badMagicOrVersion
  else if le16 msg 10 < 1 ∨ fdisLimit < le16 msg 10 ∨ le16 msg 12 < 1 ∨ fdisLimit < le16 msg 12 then
    .error (.dimensionOutOfRange (le16 msg 10) (le16 msg 12))
  else if le16 msg 14 ≠ ceilDiv (le16 msg 10) 8 * le16 msg 12 then
    .error (.payloadLengthMismatch (ceilDiv (le16 msg 10) 8 * le16 msg 12) (le16 msg 14))
  else if msg.length - headerLen < le16 msg 14 then
    .error (.shortPayload (le16 msg 14) (msg.length - headerLen))
  else if le16 msg 14 < msg.length - headerLen then
    .error (.payloadLengthMismatch (le16 msg 14) (msg.length - headerLen))
  else
    .ok
      { width := le16 msg 10
        height := le16 msg 12
        bits := slice msg headerLen (le16 msg 14)
        seq := BitVec.ofNat 32 (le16 msg 4)
        durationMs := 0
        flags := 0
        timestamp := some (BitVec.ofNat 32 (le32 msg 6))
        format := .fdis }

/-- DECODE_RBM as an operation: it reads its operand only (R134, R136). -/
def execDecodeRbm (msg : List Byte) (s : State) : Host.Outcome State Fault Refusal :=
  .next (s.answer s.turn (resultOf .frame (decodeRbm msg)))

/-- DECODE_FDIS as an operation: it reads its operand only (R134, R136). -/
def execDecodeFdis (msg : List Byte) (s : State) : Host.Outcome State Fault Refusal :=
  .next (s.answer s.turn (resultOf .frame (decodeFdis msg)))

end Sys2Proof.Machine
end

