-- ==== Sys2Proof/Machine/Configure.lean ====
section
/-! DEFINITION. CONFIGURE (40_configure.md): the topology checks in the order of R110 and R238, and the latch. -/

namespace Sys2Proof.Machine

/-- The post-orientation dimensions (w', h') (R26, R146). -/
def orientDims (o : Orientation) (w h : Nat) : Nat × Nat :=
  match o with
  | .normal => (w, h)
  | .rot90 => (h, w)
  | .rot180 => (w, h)
  | .rot270 => (h, w)
  | .fliph => (w, h)
  | .flipv => (w, h)

/-- w', the panel's data width (R26, D20). -/
def dataWidth (p : PanelConfig) : Nat := (orientDims p.orient p.w p.h).1

/-- h', the panel's fold height (R26). -/
def foldHeight (p : PanelConfig) : Nat := (orientDims p.orient p.w p.h).2

/-- A panel rectangle inside a canvas (R120, R141). -/
def inBounds (w h : Nat) (p : PanelConfig) : Bool :=
  decide (p.x + p.w ≤ w) && decide (p.y + p.h ≤ h)

/-- The checks of one panel, in R110's order (R113, R120, R114, R115). -/
def checkPanel (w h k : Nat) (p : PanelConfig) : Option Err :=
  if 255 < p.addr then some (.addressOutOfRange k)
  else if !inBounds w h p then some (.panelOutOfBounds k)
  else if foldHeight p < 1 ∨ 8 < foldHeight p then some (.unsupportedPanelHeight k)
  else if dataWidth p = 7 ∨ dataWidth p = 14 ∨ dataWidth p = 28 then none
  else some (.unsupportedDataWidth k)

/-- The per-panel checks in configuration order, from index `k` on. -/
def checkPanels (w h : Nat) : Nat → List PanelConfig → Option Err
  | _, [] => none
  | k, p :: ps =>
    match checkPanel w h k p with
    | some e => some e
    | none => checkPanels w h (k + 1) ps

/-- The pair (j, k), if its panels are in a relation. -/
def clashAt (rel : PanelConfig → PanelConfig → Bool) (ps : List PanelConfig) (k j : Nat) :
    Option (Nat × Nat) :=
  match ps[j]?, ps[k]? with
  | some a, some b => if rel a b then some (j, k) else none
  | _, _ => none

/-- The first pair j < k of panels in a relation, in the order k = 1, 2, … and j = 0, 1, … (R116). -/
def firstPair (rel : PanelConfig → PanelConfig → Bool) (ps : List PanelConfig) :
    Option (Nat × Nat) :=
  (List.range ps.length).findSome? fun k => (List.range k).findSome? fun j => clashAt rel ps k j

/-- Two panels share a bus address (R116). -/
def sameAddress (a b : PanelConfig) : Bool := a.addr == b.addr

/-- Two canvas rectangles share a pixel (R118). -/
def overlap (a b : PanelConfig) : Bool :=
  decide (a.x < b.x + b.w) && decide (b.x < a.x + a.w)
    && decide (a.y < b.y + b.h) && decide (b.y < a.y + a.h)

/-- The first panel, from index `k` on, whose width class is not `w` (R117). -/
def firstOtherWidth (w : Nat) : Nat → List PanelConfig → Option Nat
  | _, [] => none
  | k, p :: ps => if dataWidth p = w then firstOtherWidth w (k + 1) ps else some k

/-- The panel whose width class differs from panel 0's (R117). -/
def mixedWidth : List PanelConfig → Option Nat
  | [] => none
  | p :: ps => firstOtherWidth (dataWidth p) 1 ps

/-- The checks of a strict configuration (R117, R118). -/
def checkStrict (ps : List PanelConfig) : Option Err :=
  match mixedWidth ps with
  | some k => some (.mixedWidthClass 0 k)
  | none =>
    match firstPair overlap ps with
    | some (j, k) => some (.panelOverlap j k)
    | none => none

/-- Every check of R110 but the first, in its order: the first that fails is reported (R238). -/
def checkConfig (cfg : Config) : Option Err :=
  if cfg.canvasW < 1 ∨ 65535 < cfg.canvasW ∨ cfg.canvasH < 1 ∨ 65535 < cfg.canvasH then
    some (.invalidCanvas cfg.canvasW cfg.canvasH)
  else
    match checkPanels cfg.canvasW cfg.canvasH 0 cfg.panels with
    | some e => some e
    | none =>
      match firstPair sameAddress cfg.panels with
      | some (j, k) => some (.duplicateAddress j k)
      | none => if cfg.strictTopology then checkStrict cfg.panels else none

/-- CONFIGURE (R110, R119, R121). -/
def execConfigure (cfg : Config) (s : State) : Host.Outcome State Fault Refusal :=
  .next
    (if s.configured then s.raise s.turn .alreadyConfigured
     else
      match checkConfig cfg with
      | some e => s.raise s.turn e
      | none => { s with cfg := cfg, configured := true }.answer s.turn (.ok .unit))

end Sys2Proof.Machine
end

