-- ==== Sys2Proof/Machine/Receiver.lean ====
section
/-! DEFINITION. The receiver observation model (43_encoder.md R176 to R183): what the panels on the bus do with a wire
frame, the frame recogniser (30_encoding.md R101), and the wire commands' meanings (R168 to R173). -/

namespace Sys2Proof.Machine

/-- The configured panel at a bus address (R176). -/
def panelAt (panels : List PanelConfig) (a : Nat) : Option PanelConfig :=
  panels.find? fun p => p.addr == a

/-- What data of the panel's own width does to it (R177, R179). -/
def rxTake (mode : Mode) (data : List Byte) (r : RxState) : RxState :=
  match mode with
  | .instant => ⟨.cols data, if r.held = .nothing then .nothing else .unknown⟩
  | .buffered => ⟨r.displayed, .cols data⟩

/-- A data frame at the receivers (R176, R177, R179): an address without a panel stays as it is, data of
another width than the panel's makes the panel unknown for the rest of the run (R269, I14; log 32). -/
def rxData (panels : List PanelConfig) (mode : Mode) (addr : Byte) (data : List Byte)
    (rx : List (Nat × RxPanel)) : List (Nat × RxPanel) :=
  match panelAt panels addr.toNat with
  | none => rx
  | some p =>
    if data.length = dataWidth p then
      rxPut rx addr.toNat ((rxGet rx addr.toNat).update (rxTake mode data))
    else rxPut rx addr.toNat .lost

/-- What a flush does to one panel (R178). -/
def rxFlushOne (r : RxState) : RxState :=
  match r.held with
  | .cols d => ⟨.cols d, .unknown⟩
  | .unknown => ⟨.unknown, .unknown⟩
  | .nothing => r

/-- A flush at the receivers, every configured panel at once (R178, R181). A panel that is not listed
is unknown and stays so. -/
def rxFlush (panels : List PanelConfig) (rx : List (Nat × RxPanel)) : List (Nat × RxPanel) :=
  (rx.map fun e => if (panelAt panels e.1).isSome then (e.1, e.2.update rxFlushOne) else e).filter
    fun e => e.2 != rxUnlisted

/-- One recognised frame at the receivers (R176). -/
def rxFrame (panels : List PanelConfig) (rx : List (Nat × RxPanel)) (f : WireFrame) :
    List (Nat × RxPanel) :=
  match f.cmd with
  | .data7I => rxData panels .instant f.addr f.data rx
  | .data14I => rxData panels .instant f.addr f.data rx
  | .data14B => rxData panels .buffered f.addr f.data rx
  | .data28I => rxData panels .instant f.addr f.data rx
  | .data28B => rxData panels .buffered f.addr f.data rx
  | .flush => rxFlush panels rx

/-- How the recogniser ends (R101). -/
inductive RecogniseEnd where
  | wellFormed
  | illFormed (i : Nat)
  | incomplete (i : Nat)
deriving DecidableEq, Repr, Inhabited

/-- R101's loop, with at most `fuel` turns, from index `i` on. -/
def recogniseFrom : Nat → Nat → List Byte → List WireFrame × RecogniseEnd
  | 0, i, s => ([], if s = [] then .wellFormed else .illFormed i)
  | fuel + 1, i, s =>
    match s with
    | [] => ([], .wellFormed)
    | b :: bs =>
      match cutFrame (b :: bs) with
      | .error .incompleteFrame => ([], .incomplete i)
      | .error _ => ([], .illFormed i)
      | .ok (f, rest) =>
        (f :: (recogniseFrom fuel (i + f.bytes.length) rest).1,
          (recogniseFrom fuel (i + f.bytes.length) rest).2)

/-- The frame recogniser (R101). Every frame takes a byte, so the string's length is fuel enough. -/
def recognise (s : List Byte) : List WireFrame × RecogniseEnd := recogniseFrom s.length 0 s

/-- `rx` as R176 defines it: the fold of the recognised frames over the reset value. -/
def rxOf (panels : List PanelConfig) (frames : List WireFrame) : List (Nat × RxPanel) :=
  frames.foldl (rxFrame panels) []

/-- Whether the panel at address `a` shows disc (r, c) set (R180): none where it is not known, or where
the bit has no meaning. -/
def State.discSet (s : State) (a : Byte) (r c : Nat) : Option Bool :=
  match panelAt s.panels a.toNat, (s.rxAt a).displayed with
  | some p, .cols d =>
    if r < foldHeight p ∧ c < dataWidth p then some ((d.getD c 0).getLsbD r) else none
  | _, _ => none

/-- A frame takes its effect at the receivers, unless the stream has lost its meaning (R183). -/
def State.receive (s : State) (f : List PanelConfig → List (Nat × RxPanel) → List (Nat × RxPanel)) :
    State :=
  if s.rxLost || s.truncated then s.loseStream else { s with rx := f s.panels s.rx }

/-- DATA7_I (R168, R177). -/
def execData7I (addr : Byte) (data : List Byte) (s : State) : Host.Outcome State Fault Refusal :=
  .next (s.receive fun panels => rxData panels .instant addr data)

/-- DATA14_I (R169, R177). -/
def execData14I (addr : Byte) (data : List Byte) (s : State) : Host.Outcome State Fault Refusal :=
  .next (s.receive fun panels => rxData panels .instant addr data)

/-- DATA14_B (R170, R179). -/
def execData14B (addr : Byte) (data : List Byte) (s : State) : Host.Outcome State Fault Refusal :=
  .next (s.receive fun panels => rxData panels .buffered addr data)

/-- DATA28_I (R171, R177). -/
def execData28I (addr : Byte) (data : List Byte) (s : State) : Host.Outcome State Fault Refusal :=
  .next (s.receive fun panels => rxData panels .instant addr data)

/-- DATA28_B (R172, R179). -/
def execData28B (addr : Byte) (data : List Byte) (s : State) : Host.Outcome State Fault Refusal :=
  .next (s.receive fun panels => rxData panels .buffered addr data)

/-- FLUSH (R173, R178): the address byte does not matter. -/
def execFlush (_addr : Byte) (s : State) : Host.Outcome State Fault Refusal :=
  .next (s.receive rxFlush)

end Sys2Proof.Machine
end

