-- ==== Sys2Proof/Machine/Encoder.lean ====
section
/-! DEFINITION. The protocol encoder (43_encoder.md R165 to R175). -/

namespace Sys2Proof.Machine

/-- ENCODE_PANEL (R166, R167): the data bytes are copied unchanged. -/
def encodePanel (addr : Byte) (data : List Byte) (mode : Mode) : Except Err (List Byte) :=
  match cmdLookup data.length mode with
  | none => .error (.unsupportedDataWidthMode data.length mode)
  | some cmd => .ok (WireFrame.bytes ⟨cmd, addr, data⟩)

/-- ENCODE_FLUSH (R174): `80 82 addr 8F`. -/
def encodeFlush (addr : Byte) : List Byte := WireFrame.bytes ⟨.flush, addr, []⟩

/-- ENCODE_PANEL as an operation (R175). -/
def execEncodePanel (addr : Byte) (data : List Byte) (mode : Mode) (s : State) :
    Host.Outcome State Fault Refusal :=
  .next (s.answer s.turn (resultOf .bytes (encodePanel addr data mode)))

/-- ENCODE_FLUSH as an operation (R175). -/
def execEncodeFlush (addr : Byte) (s : State) : Host.Outcome State Fault Refusal :=
  .next (s.answer s.turn (.ok (.bytes (encodeFlush addr))))

end Sys2Proof.Machine
end

