-- ==== Sys2Proof/Machine/Mapper.lean ====
section
/-! DEFINITION. The canvas-to-panel slicer (42_mapper.md): unpack, slice, the six orientations, the two packings, MAP. -/

namespace Sys2Proof.Machine

/-! ### Unpack, slice, orient -/

/-- UNPACK (R142): padding bits are not read. -/
def unpack (bits : List Byte) (w h : Nat) : Grid := gridOf h w fun y x => pixel bits w x y

/-- SLICE (R143). -/
def sliceGrid (g : Grid) (x0 y0 w h : Nat) : Grid :=
  gridOf h w fun r c => gridBit g (y0 + r) (x0 + c)

/-- R148. -/
def orientNormal (g : Grid) : Grid := gridOf g.h g.w fun r c => gridBit g r c

/-- R152: w rows and h columns. -/
def orientRot90 (g : Grid) : Grid := gridOf g.w g.h fun r c => gridBit g (g.h - 1 - c) r

/-- R149. -/
def orientRot180 (g : Grid) : Grid :=
  gridOf g.h g.w fun r c => gridBit g (g.h - 1 - r) (g.w - 1 - c)

/-- R153: w rows and h columns. -/
def orientRot270 (g : Grid) : Grid := gridOf g.w g.h fun r c => gridBit g c (g.w - 1 - r)

/-- R150: column order reversed. -/
def orientFliph (g : Grid) : Grid := gridOf g.h g.w fun r c => gridBit g r (g.w - 1 - c)

/-- R151: row order reversed. -/
def orientFlipv (g : Grid) : Grid := gridOf g.h g.w fun r c => gridBit g (g.h - 1 - r) c

/-- ORIENT (R147). -/
def orient (o : Orientation) (g : Grid) : Grid :=
  match o with
  | .normal => orientNormal g
  | .rot90 => orientRot90 g
  | .rot180 => orientRot180 g
  | .rot270 => orientRot270 g
  | .fliph => orientFliph g
  | .flipv => orientFlipv g

/-! ### Packing -/

/-- PACK_ROWS (R144, R56): row-major, most significant bit first, padding bits 0. -/
def packRows (g : Grid) : List Byte :=
  (List.range g.h).flatMap fun r =>
    (List.range (stride g.w)).map fun j =>
      byteOf fun i => decide (8 * j + (7 - i) < g.w) && gridBit g r (8 * j + (7 - i))

/-- UNPACK_ROWS (R145), which only the round-trip law uses. -/
def unpackRows (bytes : List Byte) (w h : Nat) : Grid := gridOf h w fun r c => pixel bytes w c r

/-- FOLD_COLUMNS (R155, R57): one byte per column, bit 0 the top row. -/
def foldColumns (g : Grid) : List Byte :=
  (List.range g.w).map fun c => byteOf fun i => decide (i < g.h) && gridBit g i c

/-! ### MAP -/

/-- A frame's panel image after orientation: the grid the panel's payload packs (R140). -/
def panelGrid (frame : Frame) (p : PanelConfig) : Grid :=
  orient p.orient (sliceGrid (unpack frame.bits frame.width frame.height) p.x p.y p.w p.h)

/-- One panel's payload (R140, R156). -/
def payloadOf (frame : Frame) (k : Nat) (p : PanelConfig) : PanelPayload :=
  { index := k
    addr := BitVec.ofNat 8 p.addr
    w := dataWidth p
    h := foldHeight p
    rows := packRows (panelGrid frame p)
    cols := foldColumns (panelGrid frame p) }

/-- The payloads in configuration order, from index `k` on. -/
def payloadsOf (frame : Frame) : Nat → List PanelConfig → List PanelPayload
  | _, [] => []
  | k, p :: ps => payloadOf frame k p :: payloadsOf frame (k + 1) ps

/-- The first panel, from index `k` on, that exceeds the frame (R141). -/
def firstOutOfBounds (w h : Nat) : Nat → List PanelConfig → Option Nat
  | _, [] => none
  | k, p :: ps => if inBounds w h p then firstOutOfBounds w h (k + 1) ps else some k

/-- MAP (R140): the checks in the order of R239, all bounds before any payload. -/
def mapFrame (s : State) (frame : Frame) : Except Err (List PanelPayload) :=
  if !s.configured then .error .notConfigured
  else if frame.bits.length ≠ frame.height * stride frame.width then
    .error (.canvasLengthMismatch (frame.height * stride frame.width) frame.bits.length)
  else
    match firstOutOfBounds frame.width frame.height 0 s.cfg.panels with
    | some k => .error (.panelOutOfBounds k)
    | none => .ok (payloadsOf frame 0 s.cfg.panels)

/-- MAP as an operation: it writes no state (R159). -/
def execMap (frame : Frame) (s : State) : Host.Outcome State Fault Refusal :=
  .next (s.answer s.turn (resultOf .payloads (mapFrame s frame)))

/-! ### The orientations as operations (log 6) -/

/-- ORIENT normal (R148). -/
def execOrientNormal (g : Grid) (s : State) : Host.Outcome State Fault Refusal :=
  .next (s.answer s.turn (.ok (.grid (orientNormal g))))

/-- ORIENT rot90 (R152). -/
def execOrientRot90 (g : Grid) (s : State) : Host.Outcome State Fault Refusal :=
  .next (s.answer s.turn (.ok (.grid (orientRot90 g))))

/-- ORIENT rot180 (R149). -/
def execOrientRot180 (g : Grid) (s : State) : Host.Outcome State Fault Refusal :=
  .next (s.answer s.turn (.ok (.grid (orientRot180 g))))

/-- ORIENT rot270 (R153). -/
def execOrientRot270 (g : Grid) (s : State) : Host.Outcome State Fault Refusal :=
  .next (s.answer s.turn (.ok (.grid (orientRot270 g))))

/-- ORIENT fliph (R150). -/
def execOrientFliph (g : Grid) (s : State) : Host.Outcome State Fault Refusal :=
  .next (s.answer s.turn (.ok (.grid (orientFliph g))))

/-- ORIENT flipv (R151). -/
def execOrientFlipv (g : Grid) (s : State) : Host.Outcome State Fault Refusal :=
  .next (s.answer s.turn (.ok (.grid (orientFlipv g))))

end Sys2Proof.Machine
end

