-- ==== Sys2Proof/Machine/Transport.lean ====
section
/-! DEFINITION. The transmitter (44_transport.md): CONNECT, DISCONNECT, the frame write, SEND_FRAME, SEND_FLUSH, TICK,
QUERY_STATUS, and the steps of the waiting callers, of the transmitter and of the serial device. -/

namespace Sys2Proof.Machine

/-! ### Connection -/

/-- CONNECT with the connection lock free (R187 step 1, R188, R189). -/
def connectBody (c : Caller) (s : State) : State :=
  if s.conn = .connected then s.finish c (.ok .unit)
  else { s with conn := .connecting, connLock := some c }.setOp c (.opening s.cfg.serial)

/-- CONNECT (R187). -/
def execConnect (s : State) : Host.Outcome State Fault Refusal :=
  .next
    (if s.configured then acquireConn s.turn .connectWait (connectBody s.turn) s
     else s.raise s.turn .notConfigured)

/-- DISCONNECT with the connection lock free (R192 step 1, R194). -/
def disconnectBody (c : Caller) (s : State) : State :=
  if s.conn = .disconnected then s.finish c (.ok .unit)
  else { s with conn := .disconnected, connLock := some c }.setOp c .closing

/-- DISCONNECT (R192): it needs no configuration. -/
def execDisconnect (s : State) : Host.Outcome State Fault Refusal :=
  .next (acquireConn s.turn .disconnectWait (disconnectBody s.turn) s)

/-- The device answers an open (R187 step 2, R191). -/
def openAnswer (c : Caller) (a : DeviceAnswer) (s : State) : State :=
  if a.ok then { s with conn := .connected, connLock := none }.finish c (.ok .unit)
  else { s with conn := .disconnected, connLock := none }.finish c (.err (.connectError a.info))

/-- The device answers a close (R192 step 2, R193): the connection is down either way. -/
def closeAnswer (c : Caller) (a : DeviceAnswer) (s : State) : State :=
  { s with connLock := none }.finish c
    (if a.ok then .ok .unit else .err (.disconnectError a.info))

/-! ### The frame write -/

/-- Where in the batch a write error happened: TICK says it, the others do not (R213, R225). -/
def batchPos (kind : TxKind) (b : Batch) : Option BatchPos :=
  match kind with
  | .send => none
  | .tick => some ⟨b.cur, b.cur⟩

/-- The transmit operation ends: the batch is cleared and the write lock released (R202, R205, R213). -/
def endBatch (c : Caller) (r : Result) (s : State) : State :=
  { s with batch := none, writeLock := none }.finish c r

/-- The result of a transmit operation that completes (R202, R214). -/
def batchResult (kind : TxKind) (b : Batch) : Result :=
  match kind with
  | .send => .ok .unit
  | .tick => .ok (.tick b.frames.length b.anyBuffered)

/-- WRITE starts (R195): it waits while the connection lock is held, fails where the block is not
connected (R196), and else takes the connection lock and hands the frame to the device (R201). DESIGN CHOICE,
unsafe: a write looks at the connection as it is now, so a TICK goes on where other callers have disconnected and
connected again between two of its writes; R195 reads so, and R219 and D34 can be read otherwise (log 35). -/
def writeStart (c : Caller) (kind : TxKind) (b : Batch) (s : State) : State :=
  match s.connLock with
  | some _ => s
  | none =>
    if s.conn = .connected then { s with connLock := some c }.setOp c (.writing kind)
    else endBatch c (.err (.notConnected (batchPos kind b))) s

/-- What follows a frame written in full (R205, R37): the next panel frame, the flush after the last one
if a buffered frame was among them, or the end. The delay stands before a panel frame only (R210). -/
def advanceBatch (c : Caller) (kind : TxKind) (b : Batch) (s : State) : State :=
  if b.cur + 1 < b.frames.length then
    { s with batch := some { b with cur := b.cur + 1 } }.setOp c
      (.ready kind s.cfg.interPanelDelayMs)
  else if b.cur + 1 = b.frames.length ∧ b.anyBuffered = true then
    { s with batch := some { b with cur := b.cur + 1 } }.setOp c (.ready kind 0)
  else endBatch c (batchResult kind b) s

/-- The device has taken `k` bytes of a frame (R195, R197, R200); the connection lock is released. -/
def wroteBytes (frame : List Byte) (k : Nat) (d : Duration) (s : State) : State :=
  { s.wireAppend (frame.take k) with lastWriteDuration := some d, connLock := none }

/-- The device answers a write (R195, R197, R198, R200). -/
def writeAnswer (c : Caller) (kind : TxKind) (b : Batch) (frame : List Byte) (a : DeviceAnswer)
    (s : State) : State :=
  if a.accepted < frame.length then
    endBatch c (.err (.shortWrite a.accepted frame.length (batchPos kind b)))
      { wroteBytes frame a.accepted a.duration s with truncated := true }
  else advanceBatch c kind b (wroteBytes frame frame.length a.duration s)

/-! ### Transmit operations -/

/-- SEND_FRAME of a byte string (R202): the empty one is a no-op; the bytes are not checked (D44). -/
def sendBytes (bytes : List Byte) (s : State) : State :=
  if bytes = [] then s.answer s.turn (.ok .unit)
  else acquireWrite s.turn .send ⟨s.turn, [bytes], 0, false, none⟩ s

/-- SEND_FRAME (R202). -/
def execSendFrame (bytes : List Byte) (s : State) : Host.Outcome State Fault Refusal :=
  .next (sendBytes bytes s)

/-- SEND_FLUSH (R203): its address is the configured one (R87). -/
def execSendFlush (s : State) : Host.Outcome State Fault Refusal :=
  .next
    (if s.configured then sendBytes (encodeFlush s.cfg.flushAddress) s
     else s.raise s.turn .notConfigured)

/-- The refresh mode of a panel of data width `w'` (R208, R217): it depends on the configuration only, so
a panel gets the same command in every tick (R223). -/
def refreshMode (cfg : Config) (w' : Nat) : Mode :=
  if cfg.bufferedModeEnabled = true ∧ 1 < cfg.panels.length ∧ (w' = 14 ∨ w' = 28) then .buffered
  else .instant

/-- Some panel of the batch is buffered (R205). -/
def anyBuffered (cfg : Config) (payloads : List PanelPayload) : Bool :=
  payloads.any fun p => refreshMode cfg p.w == .buffered

/-- The panel frames of a tick, in configuration order (R205, R209). -/
def tickFrames (cfg : Config) : List PanelPayload → Except Err (List (List Byte))
  | [] => .ok []
  | p :: ps =>
    match encodePanel p.addr p.cols (refreshMode cfg p.w) with
    | .error e => .error e
    | .ok f =>
      match tickFrames cfg ps with
      | .error e => .error e
      | .ok fs => .ok (f :: fs)

/-- The flush frame that follows the panel frames, if any of them is buffered (R212). -/
def tickFlush (cfg : Config) (payloads : List PanelPayload) : Option (List Byte) :=
  if anyBuffered cfg payloads then some (encodeFlush cfg.flushAddress) else none

/-- TICK up to its first frame write (R205 to R209, R215): MAP and the encoder run before any lock is
taken. The encoder cannot fail on a configured block (R122); an error of it would end the tick with that
error (R243). -/
def startTick (frame : Frame) (s : State) : State :=
  match mapFrame s frame with
  | .error e => s.raise s.turn e
  | .ok payloads =>
    if payloads = [] then s.answer s.turn (.ok (.tick 0 false))
    else
      match tickFrames s.cfg payloads with
      | .error e => s.raise s.turn e
      | .ok frames =>
        acquireWrite s.turn .tick
          ⟨s.turn, frames, 0, anyBuffered s.cfg payloads, tickFlush s.cfg payloads⟩ s

/-- TICK (R205). -/
def execTick (frame : Frame) (s : State) : Host.Outcome State Fault Refusal :=
  .next (startTick frame s)

/-- QUERY_STATUS (R222): one snapshot, no lock, no wait. -/
def execQueryStatus (s : State) : Host.Outcome State Fault Refusal :=
  .next (s.answer s.turn (.ok (.status s.status)))

/-! ### The steps of the other agents -/

/-- The turn of a caller whose operation is outstanding: a waiting one takes its lock if it is free
(R220); one that waits for the transmitter or the device stays as it is. -/
def resume (c : Caller) (p : Phase) (s : State) : State :=
  match p with
  | .connectWait => acquireConn c .connectWait (connectBody c) s
  | .disconnectWait => acquireConn c .disconnectWait (disconnectBody c) s
  | .writeWait kind b => acquireWrite c kind b s
  | .opening _ => s
  | .closing => s
  | .ready _ _ => s
  | .writing _ => s

/-- The transmitter's step (R3b): it starts the next frame write of the batch in flight. With none, or
with a write already at the device, it has nothing to do. -/
def transmitterStep (s : State) : Host.Outcome State Fault Refusal :=
  match s.batch with
  | none => .next s
  | some b =>
    match s.opOf b.owner, b.current with
    | some (.ready kind _), some _ => .next (writeStart b.owner kind b s)
    | some (.writing _), _ => .next s
    | _, _ => .fault .inconsistent

/-- The serial device's step (R3c, R201): it answers the action of the operation that holds the
connection lock. With none, there is nothing to answer. -/
def deviceStep (a : DeviceAnswer) (s : State) : Host.Outcome State Fault Refusal :=
  match s.connLock with
  | none => .next s
  | some c =>
    match s.opOf c with
    | some (.opening _) => .next (openAnswer c a s)
    | some .closing => .next (closeAnswer c a s)
    | some (.writing kind) =>
      match s.batch with
      | none => .fault .inconsistent
      | some b =>
        match b.current with
        | none => .fault .inconsistent
        | some frame => .next (writeAnswer c kind b frame a s)
    | _ => .fault .inconsistent

end Sys2Proof.Machine
end

