-- ==== Sys2Proof/Machine/Dispatch.lean ====
section
/-! DEFINITION. One arm per instruction, one meaning per arm. -/

namespace Sys2Proof.Machine

def exec (i : Instr) (s : State) : Host.Outcome State Fault Refusal :=
  match i with
  | .configure cfg => Sys2Proof.Machine.execConfigure cfg s
  | .decodeRbm msg => Sys2Proof.Machine.execDecodeRbm msg s
  | .decodeFdis msg => Sys2Proof.Machine.execDecodeFdis msg s
  | .map frame => Sys2Proof.Machine.execMap frame s
  | .encodePanel addr data mode => Sys2Proof.Machine.execEncodePanel addr data mode s
  | .encodeFlush addr => Sys2Proof.Machine.execEncodeFlush addr s
  | .connect => Sys2Proof.Machine.execConnect s
  | .disconnect => Sys2Proof.Machine.execDisconnect s
  | .sendFrame bytes => Sys2Proof.Machine.execSendFrame bytes s
  | .sendFlush => Sys2Proof.Machine.execSendFlush s
  | .tick frame => Sys2Proof.Machine.execTick frame s
  | .queryStatus => Sys2Proof.Machine.execQueryStatus s
  | .data7I addr data => Sys2Proof.Machine.execData7I addr data s
  | .data14I addr data => Sys2Proof.Machine.execData14I addr data s
  | .data14B addr data => Sys2Proof.Machine.execData14B addr data s
  | .data28I addr data => Sys2Proof.Machine.execData28I addr data s
  | .data28B addr data => Sys2Proof.Machine.execData28B addr data s
  | .flush addr => Sys2Proof.Machine.execFlush addr s
  | .orientNormal g => Sys2Proof.Machine.execOrientNormal g s
  | .orientRot90 g => Sys2Proof.Machine.execOrientRot90 g s
  | .orientRot180 g => Sys2Proof.Machine.execOrientRot180 g s
  | .orientRot270 g => Sys2Proof.Machine.execOrientRot270 g s
  | .orientFliph g => Sys2Proof.Machine.execOrientFliph g s
  | .orientFlipv g => Sys2Proof.Machine.execOrientFlipv g s

end Sys2Proof.Machine
end

