-- ==== Sys2Proof/Machine/Errors.lean ====
section
/-! DEFINITION. The numeric codes of the error table (60_exceptions.md R225): labels of the spec's own (D4). -/

namespace Sys2Proof.Machine

/-- The code of an error (R225). -/
def Err.code : Err → Nat
  | .badMagicOrVersion => 1
  | .shortPayload _ _ => 2
  | .payloadLengthMismatch _ _ => 3
  | .dimensionOutOfRange _ _ => 4
  | .shortHeader _ => 5
  | .panelOutOfBounds _ => 16
  | .duplicateAddress _ _ => 17
  | .unsupportedDataWidth _ => 18
  | .unsupportedDataWidthMode _ _ => 18
  | .panelOverlap _ _ => 19
  | .mixedWidthClass _ _ => 20
  | .addressOutOfRange _ => 21
  | .invalidCanvas _ _ => 22
  | .unsupportedPanelHeight _ => 23
  | .notConfigured => 24
  | .alreadyConfigured => 25
  | .canvasLengthMismatch _ _ => 26
  | .connectError _ => 32
  | .notConnected _ => 33
  | .shortWrite _ _ _ => 34
  | .disconnectError _ => 35

/-- The code of a result: 0 is Ok (R225). -/
def Result.code : Result → Nat
  | .ok _ => 0
  | .err e => e.code

/-- The encoding of the connection state (R30). -/
def ConnState.code : ConnState → Nat
  | .disconnected => 0
  | .connecting => 1
  | .connected => 2

end Sys2Proof.Machine
end

