-- ==== Sys2Proof/Machine/Step.lean ====
section
/-! DEFINITION. One step of one agent (00_scope.md R3). -/

namespace Sys2Proof.Machine

/-- The receivers' step (R176, R182): they take the next frame of the wire and it has its effect. Where
no whole frame stands there, or a short write has cut one, the stream is lost (R183). -/
def receiverStep (s : State) : Host.Outcome State Fault Refusal :=
  match fetchFrame s with
  | none => .next s.loseStream
  | some (i, t) => exec i t

/-- A caller's step (R3a, D53): an outstanding operation goes on; with none, the caller's oldest request
is taken up and executes; with no request there is nothing to do. A name outside the set of callers is no
agent: it issues nothing (log 12). -/
def callerStep (c : Caller) (s : State) : Host.Outcome State Fault Refusal :=
  if c ∈ s.params.callers then
    match s.opOf c with
    | some p => .next (resume c p s)
    | none =>
      match fetchRequest c s with
      | none => .next s
      | some (.error r, _) => .refused r
      | some (.ok i, t) => exec i t
  else .next s

/-- The step of the agent an event names. -/
def eventStep (e : Event) (s : State) : Host.Outcome State Fault Refusal :=
  match e with
  | .caller c => callerStep c s
  | .transmitter => transmitterStep s
  | .device a => deviceStep a s

/-- One step. The receivers have no latency (R182), so they move before any other agent; otherwise
the next event says who moves. -/
def step (s : State) : Host.Outcome State Fault Refusal :=
  if s.receiversDue then receiverStep s
  else eventStep s.takeEvent.1 s.takeEvent.2

/-- `s` with a word of the opcode table placed where the next step takes it (log 3, log 5). A word that is
no code leaves `s` as it is. -/
def State.withFetchWord (s : State) (nbits w : Nat) : State :=
  match tableCode nbits w with
  | none => s
  | some code => s.place code

end Sys2Proof.Machine
end

