-- ==== Sys2Proof/Safety.lean ====
section
/-! DEFINITION. What claims speak of: a valid topology (40_configure.md R110 to R122), the invariant of the machine, runs
and the progress of the serial device (44_transport.md R201), and the bytes a tick puts on the wire. -/

namespace Sys2Proof.Machine

/-! ### Topology -/

/-- The canvas pixel (x, y) lies in the panel's rectangle. -/
def covers (p : PanelConfig) (x y : Nat) : Prop :=
  p.x ≤ x ∧ x < p.x + p.w ∧ p.y ≤ y ∧ y < p.y + p.h

/-- Two panels share a canvas pixel (R118). -/
def SharesPixel (a b : PanelConfig) : Prop := ∃ x y, covers a x y ∧ covers b x y

/-- What R113, R114, R115 and R120 ask of one panel. -/
def ValidPanel (canvasW canvasH : Nat) (p : PanelConfig) : Prop :=
  p.addr ≤ 255 ∧ p.x + p.w ≤ canvasW ∧ p.y + p.h ≤ canvasH ∧
    1 ≤ foldHeight p ∧ foldHeight p ≤ 8 ∧
    (dataWidth p = 7 ∨ dataWidth p = 14 ∨ dataWidth p = 28)

/-- A topology CONFIGURE accepts (R112 to R118, R120). -/
structure ValidTopology (cfg : Config) : Prop where
  canvasW : 1 ≤ cfg.canvasW ∧ cfg.canvasW ≤ 65535
  canvasH : 1 ≤ cfg.canvasH ∧ cfg.canvasH ≤ 65535
  panels : ∀ p ∈ cfg.panels, ValidPanel cfg.canvasW cfg.canvasH p
  addresses : cfg.panels.Pairwise fun a b => a.addr ≠ b.addr
  widthClass : cfg.strictTopology = true →
    ∀ a ∈ cfg.panels, ∀ b ∈ cfg.panels, dataWidth a = dataWidth b
  disjoint : cfg.strictTopology = true → cfg.panels.Pairwise fun a b => ¬ SharesPixel a b

/-! ### The invariant -/

/-- The phases in which an operation holds the connection lock (R32). -/
def Phase.holdsConn : Phase → Bool
  | .connectWait => false
  | .opening _ => true
  | .disconnectWait => false
  | .closing => true
  | .writeWait _ _ => false
  | .ready _ _ => false
  | .writing _ => true

/-- The phases in which an operation holds the write lock (R31, R204). -/
def Phase.holdsWrite : Phase → Bool
  | .connectWait => false
  | .opening _ => false
  | .disconnectWait => false
  | .closing => false
  | .writeWait _ _ => false
  | .ready _ _ => true
  | .writing _ => true

/-- A batch with a frame left to write (R36, R37): no frame is empty, and a flush stands in it exactly
when a buffered frame does. -/
structure BatchOk (b : Batch) : Prop where
  cur : b.cur ≤ b.frames.length
  current : b.current.isSome = true
  frames : ∀ f ∈ b.frames, f ≠ []
  flush : ∀ f, b.flush = some f → f ≠ []
  buffered : b.anyBuffered = b.flush.isSome

/-- What every reachable state satisfies. -/
structure Invariant (s : State) : Prop where
  /-- One outstanding operation a caller, in canonical form (D53). -/
  ops : tableWf s.ops
  /-- R3, D53: only callers of the set have an operation outstanding. -/
  callers : ∀ c, s.opOf c ≠ none → c ∈ s.params.callers
  /-- The receivers' table is in canonical form. -/
  rx : rxWf s.rx
  /-- R32: the connection lock is held by exactly the operation that is at the device. -/
  connLock : ∀ c, s.connLock = some c ↔ ∃ p, s.opOf c = some p ∧ p.holdsConn = true
  /-- R31: the write lock is held by exactly the transmit operation in flight. -/
  writeLock : ∀ c, s.writeLock = some c ↔ ∃ p, s.opOf c = some p ∧ p.holdsWrite = true
  /-- R36: a batch is present exactly while the write lock is held, and its owner holds it. -/
  batchOwner : s.batch.map Batch.owner = s.writeLock
  batch : ∀ b, s.batch = some b → BatchOk b
  waiting : ∀ c kind b, s.opOf c = some (.writeWait kind b) → b.owner = c ∧ b.cur = 0 ∧ BatchOk b
  /-- R187: a CONNECT waits for its lock on a configured block only. -/
  connectWaiting : ∀ c, s.opOf c = some .connectWait → s.configured = true
  /-- R190: the block is connecting exactly while an open is at the device. -/
  connecting : s.conn = .connecting ↔ ∃ c serial, s.opOf c = some (.opening serial)
  /-- R188: the device was handed the configured serial parameters. -/
  opening : ∀ c serial, s.opOf c = some (.opening serial) → serial = s.cfg.serial
  /-- R196: a frame write at the device found the block connected, and it stays so. -/
  writing : ∀ c kind, s.opOf c = some (.writing kind) → s.conn = .connected
  /-- R192: a close at the device has already taken the block down. -/
  closing : ∀ c, s.opOf c = some .closing → s.conn = .disconnected
  /-- R229: an unconfigured block never connects. -/
  connConfigured : s.conn ≠ .disconnected → s.configured = true
  /-- R229: nothing reaches the wire from an unconfigured block. -/
  unconfigured : s.configured = false →
    s.wire = [] ∧ s.truncated = false ∧ s.lastWriteDuration = none
  /-- R122: a configured block has a valid topology. -/
  topology : s.configured = true → ValidTopology s.cfg
  /-- R176: what the receivers have taken is well formed, and `rx` is its fold. -/
  receivers : s.rxLost = false → s.rxPos ≤ s.wire.length ∧
    ∃ fs, recognise (s.wire.take s.rxPos) = (fs, .wellFormed) ∧ s.rx = rxOf s.panels fs
  /-- R183: after the stream is lost every panel is unknown. -/
  lost : s.rxLost = true → s.rx = []

/-! ### Runs -/

/-- An unending run. -/
def Run (r : Nat → State) : Prop := ∀ n, step (r n) = .next (r (n + 1))

/-- The serial device answers at step n. -/
def DeviceMoves (r : Nat → State) (n : Nat) : Prop :=
  (r n).receiversDue = false ∧ ∃ a, (r n).takeEvent.1 = .device a

/-- The runs the parameter `serial_progress` of their state admits (R201): under `fair` the device answers every
action it has been given, eventually; under `mayHang` it may never. -/
def Admissible (r : Nat → State) : Prop :=
  Run r ∧
    match (r 0).params.serialProgress with
    | .fair => ∀ n, (r n).connLock ≠ none → ∃ m, n ≤ m ∧ DeviceMoves r m
    | .mayHang => True

/-! ### What a tick puts on the wire -/

/-- The command byte a tick uses for a panel of data width `w'` (R208 with R88's table). -/
def tickCommand (cfg : Config) (w' : Nat) : Byte :=
  if cfg.bufferedModeEnabled = true ∧ 1 < cfg.panels.length ∧ w' = 14 then 0x93
  else if cfg.bufferedModeEnabled = true ∧ 1 < cfg.panels.length ∧ w' = 28 then 0x84
  else if w' = 7 then 0x87
  else if w' = 14 then 0x92
  else 0x83

/-- A panel's slice of a frame, in the form the wire uses (R140, R156). -/
def panelCols (frame : Frame) (p : PanelConfig) : List Byte := foldColumns (panelGrid frame p)

/-- The bytes of a panel's frame in a tick. -/
def tickFrameBytes (cfg : Config) (frame : Frame) (p : PanelConfig) : List Byte :=
  [0x80, tickCommand cfg (dataWidth p), BitVec.ofNat 8 p.addr] ++ panelCols frame p ++ [0x8F]

/-- Some panel of the configuration is buffered in every tick (R208, R212). -/
def tickBuffered (cfg : Config) : Prop :=
  cfg.bufferedModeEnabled = true ∧ 1 < cfg.panels.length ∧
    ∃ p ∈ cfg.panels, dataWidth p = 14 ∨ dataWidth p = 28

/-- A device answer that takes every byte of every frame the block builds (R92: at most 32). -/
def TakesAll (a : DeviceAnswer) : Prop := 32 ≤ a.accepted

/-- The rows of the canvas fit the frame (R140, R141): the frame's bitmap has the length its dimensions
give, and every panel lies in it. -/
def FrameFits (cfg : Config) (frame : Frame) : Prop :=
  frame.bits.length = frame.height * stride frame.width ∧
    ∀ p ∈ cfg.panels, p.x + p.w ≤ frame.width ∧ p.y + p.h ≤ frame.height

/-- The panel-local canvas position that output bit (r, c) of an orientation copies, as row and column
(R148 to R153), for a region of `h` rows and `w` columns. -/
def sourceCell (o : Orientation) (h w r c : Nat) : Nat × Nat :=
  match o with
  | .normal => (r, c)
  | .rot180 => (h - 1 - r, w - 1 - c)
  | .fliph => (r, w - 1 - c)
  | .flipv => (h - 1 - r, c)
  | .rot90 => (h - 1 - c, r)
  | .rot270 => (c, w - 1 - r)

/-- How many bits of a grid are set. -/
def setBits (g : Grid) : Nat := (g.cells.map fun row => row.count true).sum

end Sys2Proof.Machine
end

