-- ==== Sys2Proof/Certificates/Slice0/Obligations.lean ====
section
/-! DEFINITION. The statements about the machine, from the spec's numbered rules. -/

open Sys2Proof Sys2Proof.Machine

/-! ### Encodings -/

/-- Decoding the code of a well-formed instruction gives it back, with every operand (R85, R86, R89, R90, R91,
R97). The host operations' labels and the orientation and mode codes are the spec's own (D2), and that their
operands stand beside the label as structured values is log 4. -/
def Obligations.DecodeEncodeRoundTrip : Prop :=
  ∀ i : Instr, i.wf = true → decode (encode i) = .ok i

/-- Bytes that decode to a wire command are that command's encoding, and the command is well formed: a frame's
length follows from its command byte alone (R99), and no byte is left over. That the length follows from the
command byte alone is what the spec derives at R99. -/
def Obligations.AcceptedWireBytesAreTheirEncoding : Prop :=
  ∀ (bytes : List Byte) (i : Instr), decode (.wire bytes) = .ok i →
    encode i = .wire bytes ∧ i.wf = true

/-- Words written out from the spec's encodings decode to the instructions they stand for (examples of R168, R169,
R170, R173; labels of R97; codes of R90). The labels and the orientation codes are the spec's own (D2). -/
def Obligations.SpecWordsDecode : Prop :=
  decode (.wire [0x80, 0x87, 0x05, 1, 0, 0, 0, 0, 0, 0, 0x8F]) = .ok (.data7I 0x05 [1, 0, 0, 0, 0, 0, 0]) ∧
  decode (.wire [0x80, 0x92, 0x01, 0, 0, 0, 0, 0, 0, 0, 0, 0, 0, 0, 0, 0, 0, 0x8F]) =
    .ok (.data14I 0x01 (List.replicate 14 0)) ∧
  decode (.wire [0x80, 0x93, 0x02, 1, 1, 1, 1, 1, 1, 1, 1, 1, 1, 1, 1, 1, 1, 0x8F]) =
    .ok (.data14B 0x02 (List.replicate 14 1)) ∧
  decode (.wire [0x80, 0x82, 0xFF, 0x8F]) = .ok (.flush 0xFF) ∧
  decode (.host 0x30 .none) = .ok .connect ∧
  decode (.host 0x28 (.panel 0x09 [] 1)) = .ok (.encodePanel 0x09 [] .buffered) ∧
  decode (.orient 3 ⟨1, 2, [[true, false]]⟩) = .ok (.orientRot270 ⟨1, 2, [[true, false]]⟩)

/-- The command table and its inverse: these are all the pairs with an entry (R88, R165), and the six command
bytes name their length and no other byte names a command (R89). The inverse is an inference: the spec derives
R89 from R88. -/
def Obligations.CommandTableAndItsInverse : Prop :=
  (∀ (n : Nat) (mode : Mode) (b : Byte), (cmdLookup n mode).map Command.byte = some b ↔
    (n, mode, b) ∈ [(7, Mode.instant, (0x87 : Byte)), (14, .instant, 0x92), (14, .buffered, 0x93),
      (28, .instant, 0x83), (28, .buffered, 0x84), (0, .instant, 0x82), (0, .buffered, 0x82)]) ∧
  (∀ (b : Byte) (n : Nat), (commandOfByte b).map Command.dataLen = some n ↔
    (b, n) ∈ [((0x87 : Byte), 7), (0x92, 14), (0x93, 14), (0x83, 28), (0x84, 28), (0x82, 0)])

/-- A label outside the table, an orientation code or a mode code outside its range, and an operand that is not
the operation's own (any form of operands beside any other operation's label, and for an orientation a grid
whose cells are not its size) are refused by name, and nothing else is done (R245, R97). That a model refuses
them is the spec's own inference at R245; the step in which it does is log 13. -/
def Obligations.UndefinedCodesAreRefused : Prop :=
  ∀ (s : State) (c : Caller) (u : State) (code : Code) (rest : List Request),
    s.receiversDue = false → s.takeEvent = (.caller c, u) → c ∈ s.params.callers → s.opOf c = none →
    takeRequest c s.requests = some (code, rest) →
    (∀ label args, code = .host label args →
      label ∉ [(0x01 : Byte), 0x10, 0x11, 0x20, 0x28, 0x29, 0x30, 0x31, 0x32, 0x33, 0x34, 0x40] →
      step s = .refused (.unknownLabel label)) ∧
    (∀ o g, code = .orient o g → 6 ≤ o.toNat → step s = .refused (.unknownOrientation o)) ∧
    (∀ addr data m, code = .host 0x28 (.panel addr data m) → 2 ≤ m.toNat →
      step s = .refused (.unknownMode m)) ∧
    (∀ raw pre p post, code = .host 0x01 (.config raw) → raw.panels = pre ++ p :: post →
      (∀ q ∈ pre, q.orient.toNat < 6) → 6 ≤ p.orient.toNat →
      step s = .refused (.unknownOrientation p.orient)) ∧
    (∀ label args, code = .host label args →
      (label ∈ [(0x30 : Byte), 0x31, 0x33, 0x40] ∧ args ≠ .none) ∨
      (label = 0x01 ∧ ∀ cfg, args ≠ .config cfg) ∨
      (label ∈ [(0x10 : Byte), 0x11, 0x32] ∧ ∀ bytes, args ≠ .message bytes) ∨
      (label ∈ [(0x20 : Byte), 0x34] ∧ ∀ frame, args ≠ .frame frame) ∨
      (label = 0x28 ∧ ∀ addr data m, args ≠ .panel addr data m) ∨
      (label = 0x29 ∧ ∀ addr, args ≠ .address addr) →
      step s = .refused .wrongOperand) ∧
    (∀ o g, code = .orient o g → o.toNat < 6 → g.wf = false → step s = .refused .wrongOperand)

/-! ### Steps run the decoded instruction -/

/-- A caller's turn with no outstanding operation takes its oldest request off the queue and executes what it
decodes to, as that caller's operation; a turn of a name that is not in the set of callers changes nothing.
Callers, their requests and whose turn it is are R3 and D53 as the model holds them (log 1, log 3, log 9,
log 12). -/
def Obligations.CallerStepRunsItsRequest : Prop :=
  ∀ (s : State) (c : Caller) (u : State), s.receiversDue = false → s.takeEvent = (.caller c, u) →
    (∀ (code : Code) (rest : List Request) (i : Instr), c ∈ s.params.callers → s.opOf c = none →
      takeRequest c s.requests = some (code, rest) → (∀ bytes, code ≠ .wire bytes) →
      decode code = .ok i →
      step s = exec i { u with requests := rest, turn := c }) ∧
    (c ∉ s.params.callers → step s = .next u)

/-- Where the wire holds a frame at the receivers' place, the next step executes it and moves the place past it,
before any other agent moves (R176, R182). The receiver model is the spec's own (D39); that the receivers take
each frame in a step of their own, before any other agent, is log 7. -/
def Obligations.ReceiversRunTheFrameOnTheWire : Prop :=
  ∀ (s : State) (f : WireFrame) (rest : List Byte),
    s.rxLost = false → s.truncated = false → f.data.length = f.cmd.dataLen →
    s.wire.drop s.rxPos = [0x80, f.cmd.byte, f.addr] ++ f.data ++ [0x8F] ++ rest →
    step s = exec f.instr { s with rxPos := s.rxPos + (f.data.length + 4) }

/-! ### CONFIGURE -/

/-- On an unconfigured block CONFIGURE latches exactly the valid topologies, changing nothing else, and answers
every other one with an error that changes nothing (R110, R121, R227). What makes a topology valid rests on
the spec's own decisions D19 to D23 and D45; the effect of success and failure is derived by the spec at R121
and R227. -/
def Obligations.ConfigureLatchesExactlyValidTopologies : Prop :=
  ∀ (cfg : Config) (s : State), s.configured = false →
    (ValidTopology cfg → exec (.configure cfg) s =
      .next { s with cfg := cfg, configured := true, results := s.results ++ [⟨s.turn, .ok .unit⟩] }) ∧
    (¬ ValidTopology cfg → ∃ e, exec (.configure cfg) s =
      .next { s with results := s.results ++ [⟨s.turn, .err e⟩] })

/-- A second CONFIGURE changes nothing, whatever its configuration (R119). R119 is the spec's own decision D24. -/
def Obligations.SecondConfigureChangesNothing : Prop :=
  ∀ (cfg : Config) (s : State), s.configured = true →
    exec (.configure cfg) s = .next { s with results := s.results ++ [⟨s.turn, .err .alreadyConfigured⟩] }

/-- The canvas, then each panel in configuration order: the first failing check is the one reported, with the
panel's index (R112 to R115, R120, R238). The ranges are the spec's own decisions D19, D20 and D22, and the
order of the checks is D49. -/
def Obligations.ConfigureReportsTheFirstFailingPanelCheck : Prop :=
  ∀ (cfg : Config) (s : State), s.configured = false →
    let report := fun e => exec (.configure cfg) s =
      .next { s with results := s.results ++ [⟨s.turn, .err e⟩] }
    let canvasOk := 1 ≤ cfg.canvasW ∧ cfg.canvasW ≤ 65535 ∧ 1 ≤ cfg.canvasH ∧ cfg.canvasH ≤ 65535
    (¬ canvasOk → report (.invalidCanvas cfg.canvasW cfg.canvasH)) ∧
    (canvasOk → ∀ pre p post, cfg.panels = pre ++ p :: post →
      (∀ q ∈ pre, ValidPanel cfg.canvasW cfg.canvasH q) →
      (255 < p.addr → report (.addressOutOfRange pre.length)) ∧
      (p.addr ≤ 255 →
        (cfg.canvasW < p.x + p.w ∨ cfg.canvasH < p.y + p.h → report (.panelOutOfBounds pre.length)) ∧
        (p.x + p.w ≤ cfg.canvasW → p.y + p.h ≤ cfg.canvasH →
          (foldHeight p = 0 ∨ 8 < foldHeight p → report (.unsupportedPanelHeight pre.length)) ∧
          (1 ≤ foldHeight p → foldHeight p ≤ 8 →
            dataWidth p ≠ 7 → dataWidth p ≠ 14 → dataWidth p ≠ 28 →
            report (.unsupportedDataWidth pre.length)))))

/-- Where every panel passes on its own: the first repeated address, in the order k = 1, 2, … and for each k, j =
0, 1, …, is reported (R116); then, in a strict configuration, the first panel of another width class than
panel 0 (R117), and then the first pair that shares a pixel (R118). What strict means is the spec's own
decision D21, and the order is D49. -/
def Obligations.ConfigureReportsTheFirstClashingPair : Prop :=
  ∀ (cfg : Config) (s : State), s.configured = false →
    1 ≤ cfg.canvasW → cfg.canvasW ≤ 65535 → 1 ≤ cfg.canvasH → cfg.canvasH ≤ 65535 →
    (∀ p ∈ cfg.panels, ValidPanel cfg.canvasW cfg.canvasH p) →
    let report := fun e => exec (.configure cfg) s =
      .next { s with results := s.results ++ [⟨s.turn, .err e⟩] }
    let firstPairOf := fun (clash : PanelConfig → PanelConfig → Prop) (j k : Nat) =>
      j < k ∧ (∃ a b, cfg.panels[j]? = some a ∧ cfg.panels[k]? = some b ∧ clash a b) ∧
      ∀ j' k' a b, j' < k' → k' < k ∨ (k' = k ∧ j' < j) →
        cfg.panels[j']? = some a → cfg.panels[k']? = some b → ¬ clash a b
    (∀ j k, firstPairOf (fun a b => a.addr = b.addr) j k → report (.duplicateAddress j k)) ∧
    (cfg.panels.Pairwise (fun a b => a.addr ≠ b.addr) → cfg.strictTopology = true →
      (∀ k p₀ p, cfg.panels[0]? = some p₀ → cfg.panels[k]? = some p → dataWidth p ≠ dataWidth p₀ →
        (∀ k' p', k' < k → cfg.panels[k']? = some p' → dataWidth p' = dataWidth p₀) →
        report (.mixedWidthClass 0 k)) ∧
      ((∀ a ∈ cfg.panels, ∀ b ∈ cfg.panels, dataWidth a = dataWidth b) →
        ∀ j k, firstPairOf SharesPixel j k → report (.panelOverlap j k)))

/-! ### Decoders -/

/-- DECODE_RBM of a header written out byte by byte, big-endian, with enough bitmap bytes after it: the frame it
returns. `flags` is copied, `reserved` and what follows the bitmap are ignored (R81, R82, R126, R127). The
unchecked fields and bytes are the spec's own decisions D6, D7 and D8. The ASCII values of the magic are log
22. -/
def Obligations.DecodeRbmReturnsTheFrame : Prop :=
  ∀ (s : State) (fl w1 w0 h1 h0 s3 s2 s1 s0 d1 d0 r1 r0 : Byte) (body : List Byte) (w h : Nat),
    w = w1.toNat * 256 + w0.toNat → h = h1.toNat * 256 + h0.toNat →
    h * ((w + 7) / 8) ≤ body.length →
    exec (.decodeRbm ([0x52, 0x42, 0x01, fl, w1, w0, h1, h0, s3, s2, s1, s0, d1, d0, r1, r0] ++ body)) s =
      .next { s with results := s.results ++ [⟨s.turn, .ok (.frame
        { width := w, height := h, bits := body.take (h * ((w + 7) / 8)),
          seq := BitVec.ofNat 32 (((s3.toNat * 256 + s2.toNat) * 256 + s1.toNat) * 256 + s0.toNat),
          durationMs := BitVec.ofNat 16 (d1.toNat * 256 + d0.toNat), flags := fl,
          timestamp := none, format := .rbm })⟩] }

/-- DECODE_RBM's errors and their order: a short header, then magic or version, then a short payload (R126, R128,
R237). Nothing but the result changes (R136). The short header's error is the spec's own decision D5, and the
order is D49. -/
def Obligations.DecodeRbmRejects : Prop :=
  ∀ (s : State) (msg : List Byte),
    let report := fun e => exec (.decodeRbm msg) s =
      .next { s with results := s.results ++ [⟨s.turn, .err e⟩] }
    (msg.length < 16 → report (.shortHeader msg.length)) ∧
    (16 ≤ msg.length →
      (msg[0]? ≠ some 0x52 ∨ msg[1]? ≠ some 0x42 ∨ msg[2]? ≠ some 0x01 → report .badMagicOrVersion) ∧
      (∀ fl w1 w0 h1 h0 rest, msg = [0x52, 0x42, 0x01, fl, w1, w0, h1, h0] ++ rest →
        ∀ need, need = (h1.toNat * 256 + h0.toNat) * ((w1.toNat * 256 + w0.toNat + 7) / 8) →
        msg.length - 16 < need → report (.shortPayload need (msg.length - 16))))

/-- DECODE_FDIS of a header written out byte by byte, little-endian, with dimensions in range, the exact payload
length and exactly that many bytes after it (R83, R84, R131, R132). The fields with no counterpart are the
spec's own decision D13, and the exact message length is D12. -/
def Obligations.DecodeFdisReturnsTheFrame : Prop :=
  ∀ (s : State) (q0 q1 t0 t1 t2 t3 w0 w1 h0 h1 p0 p1 : Byte) (body : List Byte) (w h : Nat),
    w = w0.toNat + w1.toNat * 256 → h = h0.toNat + h1.toNat * 256 →
    1 ≤ w → w ≤ 1024 → 1 ≤ h → h ≤ 1024 →
    p0.toNat + p1.toNat * 256 = (w + 7) / 8 * h → body.length = (w + 7) / 8 * h →
    exec (.decodeFdis ([0x46, 0x44, 0x49, 0x53, q0, q1, t0, t1, t2, t3, w0, w1, h0, h1, p0, p1] ++ body)) s =
      .next { s with results := s.results ++ [⟨s.turn, .ok (.frame
        { width := w, height := h, bits := body,
          seq := BitVec.ofNat 32 (q0.toNat + q1.toNat * 256), durationMs := 0, flags := 0,
          timestamp := some (BitVec.ofNat 32
            (t0.toNat + t1.toNat * 256 + t2.toNat * 65536 + t3.toNat * 16777216)),
          format := .fdis })⟩] }

/-- DECODE_FDIS's errors and their order (R131, R236). Nothing but the result changes (R136). The order and the
error names are the spec's own decisions D9 to D12. -/
def Obligations.DecodeFdisRejects : Prop :=
  ∀ (s : State) (msg : List Byte),
    let report := fun e => exec (.decodeFdis msg) s =
      .next { s with results := s.results ++ [⟨s.turn, .err e⟩] }
    (msg.length < 16 → report (.shortHeader msg.length)) ∧
    (16 ≤ msg.length → msg.take 4 ≠ [0x46, 0x44, 0x49, 0x53] → report .badMagicOrVersion) ∧
    (∀ q0 q1 t0 t1 t2 t3 w0 w1 h0 h1 p0 p1 body,
      msg = [0x46, 0x44, 0x49, 0x53, q0, q1, t0, t1, t2, t3, w0, w1, h0, h1, p0, p1] ++ body →
      ∀ w h plen : Nat, w = w0.toNat + w1.toNat * 256 → h = h0.toNat + h1.toNat * 256 →
        plen = p0.toNat + p1.toNat * 256 →
        (w = 0 ∨ 1024 < w ∨ h = 0 ∨ 1024 < h → report (.dimensionOutOfRange w h)) ∧
        (1 ≤ w → w ≤ 1024 → 1 ≤ h → h ≤ 1024 →
          (plen ≠ (w + 7) / 8 * h → report (.payloadLengthMismatch ((w + 7) / 8 * h) plen)) ∧
          (plen = (w + 7) / 8 * h →
            (body.length < plen → report (.shortPayload plen body.length)) ∧
            (plen < body.length → report (.payloadLengthMismatch plen body.length)))))

/-- A frame a decoder returns has exactly `height × stride(width)` bitmap bytes (R125). -/
def Obligations.DecodedFramesKeepTheCanvasInvariant : Prop :=
  ∀ (msg : List Byte) (f : Frame), decodeRbm msg = .ok f ∨ decodeFdis msg = .ok f →
    f.bits.length = f.height * stride f.width

/-! ### MAP, orientations, packing -/

/-- MAP on a configured block, for a frame every panel fits, whose own size it uses (D14): one payload per panel
in configuration order, and every bit of its column form and of its row form is the canvas pixel that the
panel's orientation puts there, or 0 beyond the panel (R140, R142 to R144, R147, R155, R156). Nothing but the
result changes (R159). The bit order of the columns is the spec's own decision D18, the meaning of the mirrors
D17, and the formulas of the quarter turns are the spec's general knowledge (log 22). -/
def Obligations.MapSlicesEveryPanel : Prop :=
  ∀ (s : State) (frame : Frame), s.configured = true → ValidTopology s.cfg → FrameFits s.cfg frame →
    ∃ ps : List PanelPayload, exec (.map frame) s =
        .next { s with results := s.results ++ [⟨s.turn, .ok (.payloads ps)⟩] } ∧
      ps.length = s.cfg.panels.length ∧
      ∀ k p, s.cfg.panels[k]? = some p → ∃ q : PanelPayload, ps[k]? = some q ∧
        q.index = k ∧ q.addr.toNat = p.addr ∧ q.w = dataWidth p ∧ q.h = foldHeight p ∧
        q.cols.length = dataWidth p ∧ q.rows.length = foldHeight p * stride (dataWidth p) ∧
        (∀ r c, r < 8 → c < dataWidth p → (q.cols.getD c 0).getLsbD r =
          (decide (r < foldHeight p) && pixel frame.bits frame.width
            (p.x + (sourceCell p.orient p.h p.w r c).2) (p.y + (sourceCell p.orient p.h p.w r c).1))) ∧
        (∀ r c, r < foldHeight p → c < 8 * stride (dataWidth p) →
          (q.rows.getD (r * stride (dataWidth p) + c / 8) 0).getLsbD (7 - c % 8) =
          (decide (c < dataWidth p) && pixel frame.bits frame.width
            (p.x + (sourceCell p.orient p.h p.w r c).2) (p.y + (sourceCell p.orient p.h p.w r c).1)))

/-- MAP's errors and their order (R140, R141, R239): nothing but the result changes, and no payload is produced.
The checks and their order are the spec's own decisions D14, D15, D24 and D49. -/
def Obligations.MapReportsItsFirstFailure : Prop :=
  ∀ (s : State) (frame : Frame),
    let report := fun e => exec (.map frame) s =
      .next { s with results := s.results ++ [⟨s.turn, .err e⟩] }
    (s.configured = false → report .notConfigured) ∧
    (s.configured = true →
      (frame.bits.length ≠ frame.height * stride frame.width →
        report (.canvasLengthMismatch (frame.height * stride frame.width) frame.bits.length)) ∧
      (frame.bits.length = frame.height * stride frame.width →
        ∀ pre p post, s.cfg.panels = pre ++ p :: post →
          (∀ q ∈ pre, q.x + q.w ≤ frame.width ∧ q.y + q.h ≤ frame.height) →
          frame.width < p.x + p.w ∨ frame.height < p.y + p.h →
          report (.panelOutOfBounds pre.length)))

/-- Packing and unpacking (R157): unpacking a packed grid gives the grid; packing an unpacked canvas gives the
canvas exactly when its padding bits are 0; and a canvas unpacks as its zero-padded copy does. The spec
derives this law at R157, from R142, R144 and R145 and its own decision D16. -/
def Obligations.PackUnpackRoundTrip : Prop :=
  (∀ g : Grid, g.wf = true → unpackRows (packRows g) g.w g.h = g) ∧
  (∀ (bits : List Byte) (w h : Nat), bits.length = h * stride w →
    (packRows (unpack bits w h) = bits ↔
      ∀ y x, y < h → w ≤ x → x < 8 * stride w →
        (bits.getD (y * stride w + x / 8) 0).getLsbD (7 - x % 8) = false) ∧
    unpack (packRows (unpack bits w h)) w h = unpack bits w h)

/-- The orientation laws (R154). The spec derives these laws at R154; its reading of the source's sentence is
conflict C3. -/
def Obligations.OrientationLaws : Prop :=
  ∀ g : Grid, g.wf = true →
    orientRot180 g = orientFlipv (orientFliph g) ∧ orientRot180 g = orientFliph (orientFlipv g) ∧
    orientRot270 (orientRot90 g) = g ∧ orientRot90 (orientRot270 g) = g ∧
    orientRot90 (orientRot90 g) = orientRot180 g ∧
    orientFliph (orientFliph g) = g ∧ orientFlipv (orientFlipv g) = g ∧
    orientRot180 (orientRot180 g) = g ∧ orientNormal g = g

/-- ORIENT's output has the post-orientation size, and it neither creates nor loses a set pixel (R146, R147). The
spec derives at R147 that ORIENT never creates or loses a set pixel. -/
def Obligations.OrientationsPermuteTheBits : Prop :=
  ∀ (o : Orientation) (g : Grid), g.wf = true →
    ((orient o g).w, (orient o g).h) = orientDims o g.w g.h ∧ (orient o g).wf = true ∧
    setBits (orient o g) = setBits g

/-- The two quarter turns, as operations: sizes swap, and each output bit copies the input bit the rule says
(R152, R153). Nothing but the result changes. The index formulas are the spec's general knowledge (log 22);
the orientations as operations of their own are log 6. -/
def Obligations.QuarterTurnsExecute : Prop :=
  ∀ (s : State) (g : Grid), g.wf = true →
    (∃ o, exec (.orientRot90 g) s =
        .next { s with results := s.results ++ [⟨s.turn, .ok (.grid o)⟩] } ∧
      o.wf = true ∧ o.h = g.w ∧ o.w = g.h ∧
      ∀ r c, r < g.w → c < g.h → gridBit o r c = gridBit g (g.h - 1 - c) r) ∧
    (∃ o, exec (.orientRot270 g) s =
        .next { s with results := s.results ++ [⟨s.turn, .ok (.grid o)⟩] } ∧
      o.wf = true ∧ o.h = g.w ∧ o.w = g.h ∧
      ∀ r c, r < g.w → c < g.h → gridBit o r c = gridBit g c (g.w - 1 - r))

/-- The other four orientations, as operations: the size stays, and each output bit copies the input bit the rule
says (R148 to R151). Nothing but the result changes. The axes of the two mirrors are the spec's own decision
D17; the orientations as operations of their own are log 6. -/
def Obligations.MirrorsExecute : Prop :=
  ∀ (s : State) (g : Grid), g.wf = true →
    let answers := fun (i : Instr) (source : Nat → Nat → Nat × Nat) =>
      ∃ o, exec i s = .next { s with results := s.results ++ [⟨s.turn, .ok (.grid o)⟩] } ∧
        o.wf = true ∧ o.h = g.h ∧ o.w = g.w ∧
        ∀ r c, r < g.h → c < g.w → gridBit o r c = gridBit g (source r c).1 (source r c).2
    answers (.orientNormal g) (fun r c => (r, c)) ∧
    answers (.orientRot180 g) (fun r c => (g.h - 1 - r, g.w - 1 - c)) ∧
    answers (.orientFliph g) (fun r c => (r, g.w - 1 - c)) ∧
    answers (.orientFlipv g) (fun r c => (g.h - 1 - r, c))

/-- With at most seven rows folded, every column byte is below 0x80, so none equals a framing byte (R96). The spec
derives this at R96. -/
def Obligations.ColumnBytesBelowTheStartByte : Prop :=
  ∀ (frame : Frame) (p : PanelConfig), foldHeight p ≤ 7 →
    ∀ b ∈ panelCols frame p, b.toNat < 0x80 ∧ b ≠ 0x80 ∧ b ≠ 0x8F

/-! ### Encoder -/

/-- ENCODE_PANEL (R88, R94, R166, R167): for every pair the table has, the frame with the data copied unchanged;
for any other length, and for (7, buffered), the error, never a nearby size. Nothing but the result changes
(R175). That an entry of no data is the flush form, and that (7, buffered) is an error, is also the spec's own
decision D26. -/
def Obligations.EncodePanelFramesTheDataOrRejects : Prop :=
  ∀ (s : State) (addr : Byte) (data : List Byte) (mode : Mode),
    (∀ cmd : Byte, (data.length, mode, cmd) ∈ [(7, Mode.instant, (0x87 : Byte)), (14, .instant, 0x92),
        (14, .buffered, 0x93), (28, .instant, 0x83), (28, .buffered, 0x84), (0, .instant, 0x82),
        (0, .buffered, 0x82)] →
      exec (.encodePanel addr data mode) s =
        .next { s with results := s.results ++
          [⟨s.turn, .ok (.bytes ([0x80, cmd, addr] ++ data ++ [0x8F]))⟩] }) ∧
    ((data.length ≠ 0 ∧ data.length ≠ 7 ∧ data.length ≠ 14 ∧ data.length ≠ 28) ∨
        (data.length = 7 ∧ mode = .buffered) →
      exec (.encodePanel addr data mode) s =
        .next { s with results := s.results ++
          [⟨s.turn, .err (.unsupportedDataWidthMode data.length mode)⟩] })

/-- ENCODE_FLUSH: `80 82 addr 8F` for every address, the same as ENCODE_PANEL of no data in either mode (R86,
R174). The equality with ENCODE_PANEL is derived by the spec at R174, and rests on its decision D26. -/
def Obligations.EncodeFlushFramesTheAddress : Prop :=
  ∀ (s : State) (addr : Byte) (mode : Mode),
    exec (.encodeFlush addr) s =
      .next { s with results := s.results ++ [⟨s.turn, .ok (.bytes [0x80, 0x82, addr, 0x8F])⟩] } ∧
    exec (.encodePanel addr [] mode) s = exec (.encodeFlush addr) s

/-- The recogniser reads a concatenation of frames the encoder built back as those frames, whatever their data
bytes are, framing bytes among them (R101, R267). The spec derives this at R101 and R267. -/
def Obligations.EncodedFramesAreRecognised : Prop :=
  ∀ parts : List (Byte × List Byte × Mode × List Byte),
    (∀ q ∈ parts, encodePanel q.1 q.2.1 q.2.2.1 = .ok q.2.2.2) →
    ∃ fs, recognise (parts.flatMap fun q => q.2.2.2) = (fs, .wellFormed) ∧
      fs.length = parts.length ∧
      ∀ (k : Nat) (q : Byte × List Byte × Mode × List Byte), parts[k]? = some q →
        ∃ f, fs[k]? = some f ∧ f.addr = q.1 ∧ f.data = q.2.1 ∧ cmdLookup q.2.1.length q.2.2.1 = some f.cmd

/-! ### Receivers -/

/-- An instant data frame of the panel's own width, at the receivers: the panel shows the data at once; what it
holds stays nothing if it was nothing and is unknown otherwise; every other panel and the rest of the state
stay as they are (R168, R169, R171, R177). The receiver model is the spec's own (D39); a panel that an earlier
frame of another width has lost is in FramesForNoPanelOrOfAnotherWidth (log 32). -/
def Obligations.InstantFramesShowAtOnce : Prop :=
  ∀ (s : State) (addr : Byte) (data : List Byte) (p : PanelConfig) (i : Instr) (r : RxState),
    s.rxLost = false → s.truncated = false → s.configured = true → ValidTopology s.cfg →
    p ∈ s.cfg.panels → p.addr = addr.toNat → data.length = dataWidth p → s.rxPanel addr = .live r →
    (i, data.length) ∈ [(Instr.data7I addr data, 7), (.data14I addr data, 14), (.data28I addr data, 28)] →
    ∃ t, exec i s = .next t ∧ t = { s with rx := t.rx } ∧
      t.rxPanel addr = .live ⟨.cols data, if r.held = .nothing then .nothing else .unknown⟩ ∧
      ∀ b, b ≠ addr → t.rxPanel b = s.rxPanel b

/-- A buffered data frame of the panel's own width, at the receivers: the panel holds the data in place of what it
held and shows what it showed; every other panel and the rest of the state stay as they are (R170, R172,
R179). The receiver model is the spec's own (D39); a panel that an earlier frame of another width has lost is
in FramesForNoPanelOrOfAnotherWidth (log 32). -/
def Obligations.BufferedFramesAreHeld : Prop :=
  ∀ (s : State) (addr : Byte) (data : List Byte) (p : PanelConfig) (i : Instr) (r : RxState),
    s.rxLost = false → s.truncated = false → s.configured = true → ValidTopology s.cfg →
    p ∈ s.cfg.panels → p.addr = addr.toNat → data.length = dataWidth p → s.rxPanel addr = .live r →
    (i, data.length) ∈ [(Instr.data14B addr data, 14), (.data28B addr data, 28)] →
    ∃ t, exec i s = .next t ∧ t = { s with rx := t.rx } ∧
      t.rxPanel addr = .live ⟨r.displayed, .cols data⟩ ∧
      ∀ b, b ≠ addr → t.rxPanel b = s.rxPanel b

/-- A flush frame at the receivers, whatever its address byte: every configured panel at once shows what it held,
or is unknown where that was unknown, or stays where it held nothing; what it holds is unknown afterwards
unless it held nothing; a lost panel stays lost (log 32); everything else stays as it is (R173, R178, R181).
The receiver model is the spec's own (D39). -/
def Obligations.FlushAppliesHeldData : Prop :=
  ∀ (s : State) (addr : Byte), s.rxLost = false → s.truncated = false → rxWf s.rx →
    ∃ t, exec (.flush addr) s = .next t ∧ t = { s with rx := t.rx } ∧
      ∀ a : Byte,
        ((∃ p ∈ s.panels, p.addr = a.toNat) →
          (∀ r, s.rxPanel a = .live r →
            (∀ d, r.held = .cols d → t.rxPanel a = .live ⟨.cols d, .unknown⟩) ∧
            (r.held = .unknown → t.rxPanel a = .live ⟨.unknown, .unknown⟩) ∧
            (r.held = .nothing → t.rxPanel a = s.rxPanel a)) ∧
          (s.rxPanel a = .lost → t.rxPanel a = .lost)) ∧
        ((∀ p ∈ s.panels, p.addr ≠ a.toNat) → t.rxPanel a = s.rxPanel a)

/-- A data frame to an address without a configured panel changes nothing; one whose length is not the panel's
data width makes that panel unknown, lost for the rest of the run, and leaves the others; a frame to a panel
that is lost finds and leaves it so (R176, R269). The receiver model is the spec's own (D39); that R269 means
the one panel is log 32. -/
def Obligations.FramesForNoPanelOrOfAnotherWidth : Prop :=
  ∀ (s : State) (addr : Byte) (data : List Byte) (i : Instr),
    s.rxLost = false → s.truncated = false →
    i ∈ [Instr.data7I addr data, .data14I addr data, .data14B addr data, .data28I addr data,
      .data28B addr data] →
    ((∀ p ∈ s.panels, p.addr ≠ addr.toNat) → exec i s = .next s) ∧
    (∀ p ∈ s.panels, p.addr = addr.toNat → ValidTopology s.cfg →
      data.length ≠ dataWidth p ∨ s.rxPanel addr = .lost →
      ∃ t, exec i s = .next t ∧ t = { s with rx := t.rx } ∧
        t.rxPanel addr = .lost ∧ t.rxAt addr = ⟨.unknown, .unknown⟩ ∧
        ∀ b, b ≠ addr → t.rxPanel b = s.rxPanel b)

/-- Once a short write has cut a frame, or the bytes at the receivers' place are no whole frame, the next step
makes every panel unknown and the stream lost, and changes nothing else (R183). The receiver model is the
spec's own (D39); that the loss takes effect at once, also where the wire ends inside a frame, is log 24 and
log 25. -/
def Obligations.BrokenStreamIsLost : Prop :=
  ∀ s : State, s.rxLost = false →
    (s.truncated = true ∨
      (s.rxPos < s.wire.length ∧ ∀ (f : WireFrame) (rest : List Byte), s.wire.drop s.rxPos = f.bytes ++ rest →
        f.data.length ≠ f.cmd.dataLen)) →
    ∃ t, step s = .next t ∧ t = { s with rx := t.rx, rxLost := true } ∧
      ∀ a, t.rxAt a = ⟨.unknown, .unknown⟩

/-- A lost stream stays lost and every panel stays unknown, whatever step is taken (R183, R264); and a panel that
a frame of another width has lost stays unknown, by itself or with the whole stream (R269). The receiver model
is the spec's own (D39); log 8, log 32. -/
def Obligations.LostStreamStaysLost : Prop :=
  ∀ s t : State, step s = .next t →
    (s.rxLost = true → (∀ a, s.rxAt a = ⟨.unknown, .unknown⟩) →
      t.rxLost = true ∧ ∀ a, t.rxAt a = ⟨.unknown, .unknown⟩) ∧
    (∀ a, s.rxPanel a = .lost → t.rxAt a = ⟨.unknown, .unknown⟩ ∧
      (t.rxPanel a = .lost ∨ t.rxLost = true))

/-! ### Connection -/

/-- CONNECT (R187 step 1, R188, R189, R240): NotConfigured on an unconfigured block; with the connection lock
free, Ok at once on a connected block, and else connecting, with the lock taken and the configured serial
parameters at the device. Nothing else changes. These rest on the spec's own decisions D24, D31 and D38. -/
def Obligations.ConnectAnswersOrStartsTheOpen : Prop :=
  ∀ s : State,
    (s.configured = false → exec .connect s =
      .next { s with results := s.results ++ [⟨s.turn, .err .notConfigured⟩] }) ∧
    (s.configured = true → s.connLock = none →
      (s.conn = .connected → s.opOf s.turn = none → exec .connect s =
        .next { s with results := s.results ++ [⟨s.turn, .ok .unit⟩] }) ∧
      (s.conn ≠ .connected → ∃ t, exec .connect s = .next t ∧
        t = { s with conn := .connecting, connLock := some s.turn, ops := t.ops } ∧
        t.opOf s.turn = some (.opening s.cfg.serial) ∧ ∀ c, c ≠ s.turn → t.opOf c = s.opOf c))

/-- The device answers an open (R187 step 2, R191): connected and Ok, or disconnected and ConnectError with the
device's info; the lock is released, the operation is over, nothing else changes. That the operation is over
in either case is how the model makes no retry. -/
def Obligations.OpenIsAnswered : Prop :=
  ∀ (s u : State) (a : DeviceAnswer) (c : Caller) (serial : SerialParams),
    s.receiversDue = false → s.takeEvent = (.device a, u) → s.connLock = some c →
    s.opOf c = some (.opening serial) →
    ∃ t, step s = .next t ∧
      t = { u with
        conn := if a.ok then .connected else .disconnected
        connLock := none
        ops := t.ops
        results := s.results ++ [⟨c, if a.ok then .ok .unit else .err (.connectError a.info)⟩] } ∧
      t.opOf c = none ∧ ∀ d, d ≠ c → t.opOf d = s.opOf d

/-- DISCONNECT with the connection lock free: on a disconnected block Ok at once and nothing changes; else
disconnected, the lock taken and the close at the device. It needs no configuration (R192, R194). Idempotence
without a device action is the spec's own decision D32. -/
def Obligations.DisconnectStartsTheClose : Prop :=
  ∀ s : State, s.connLock = none → s.opOf s.turn = none →
    (s.conn = .disconnected → exec .disconnect s =
      .next { s with results := s.results ++ [⟨s.turn, .ok .unit⟩] }) ∧
    (s.conn ≠ .disconnected → ∃ t, exec .disconnect s = .next t ∧
      t = { s with conn := .disconnected, connLock := some s.turn, ops := t.ops } ∧
      t.opOf s.turn = some .closing ∧ ∀ c, c ≠ s.turn → t.opOf c = s.opOf c)

/-- The device answers a close (R193): Ok or DisconnectError, and either way the block stays as DISCONNECT left
it, disconnected; the lock is released. The effect of a failed close is the spec's own decision D32. -/
def Obligations.CloseIsAnswered : Prop :=
  ∀ (s u : State) (a : DeviceAnswer) (c : Caller), Invariant s →
    s.receiversDue = false → s.takeEvent = (.device a, u) → s.connLock = some c →
    s.opOf c = some .closing →
    ∃ t, step s = .next t ∧
      t = { u with
        connLock := none
        ops := t.ops
        results := s.results ++ [⟨c, if a.ok then .ok .unit else .err (.disconnectError a.info)⟩] } ∧
      t.conn = .disconnected ∧
      t.opOf c = none ∧ ∀ d, d ≠ c → t.opOf d = s.opOf d

/-- While the connection lock is held, CONNECT and DISCONNECT of another caller wait, a waiting caller's turn
changes nothing, and no frame write starts (R190, R199). The waiting is the spec's own decisions D31 and D34;
a waiting turn as a step that changes nothing is log 14. -/
def Obligations.TheConnectionLockMakesOthersWait : Prop :=
  ∀ (s u : State) (d : Caller), s.connLock = some d →
    (s.configured = true → ∃ t, exec .connect s = .next t ∧ t = { s with ops := t.ops } ∧
      t.opOf s.turn = some .connectWait ∧ ∀ c, c ≠ s.turn → t.opOf c = s.opOf c) ∧
    (∃ t, exec .disconnect s = .next t ∧ t = { s with ops := t.ops } ∧
      t.opOf s.turn = some .disconnectWait ∧ ∀ c, c ≠ s.turn → t.opOf c = s.opOf c) ∧
    (∀ c, s.receiversDue = false → s.takeEvent = (.caller c, u) → c ∈ s.params.callers → tableWf s.ops →
      s.opOf c = some .connectWait ∨ s.opOf c = some .disconnectWait → step s = .next u) ∧
    (∀ b kind ms, s.receiversDue = false → s.takeEvent = (.transmitter, u) → s.batch = some b →
      s.opOf b.owner = some (.ready kind ms) → b.current.isSome = true → step s = .next u)

/-- A waiting caller's turn, once its lock is free (R187, R192, R204, R220): CONNECT and DISCONNECT do what they
do where they find the lock free at once, and a transmit operation takes the write lock for its batch. While
the lock an operation waits for is held, by whomever, its turn changes nothing. The waiting order is the spec's
own decision D35; taking the lock and going on in one step is log 14. -/
def Obligations.AFreeLockIsTakenOnTheWaitersTurn : Prop :=
  ∀ (s u : State) (c : Caller), s.receiversDue = false → s.takeEvent = (.caller c, u) →
    c ∈ s.params.callers →
    let goesOn := fun (p : Phase) (next : State) => ∃ t, step s = .next t ∧ t = { next with ops := t.ops } ∧
      t.opOf c = some p ∧ ∀ d, d ≠ c → t.opOf d = s.opOf d
    let ends := ∃ t, step s = .next t ∧
      t = { u with ops := t.ops, results := s.results ++ [⟨c, .ok .unit⟩] } ∧
      t.opOf c = none ∧ ∀ d, d ≠ c → t.opOf d = s.opOf d
    (s.opOf c = some .connectWait → s.connLock = none →
      (s.conn = .connected → ends) ∧
      (s.conn ≠ .connected →
        goesOn (.opening s.cfg.serial) { u with conn := .connecting, connLock := some c })) ∧
    (s.opOf c = some .disconnectWait → s.connLock = none →
      (s.conn = .disconnected → ends) ∧
      (s.conn ≠ .disconnected → goesOn .closing { u with conn := .disconnected, connLock := some c })) ∧
    (s.opOf c = some .connectWait ∨ s.opOf c = some .disconnectWait →
      s.connLock ≠ none → tableWf s.ops → step s = .next u) ∧
    (∀ kind b, s.opOf c = some (.writeWait kind b) →
      (s.writeLock = none →
        goesOn (.ready kind 0) { u with writeLock := some c, batch := some b }) ∧
      (s.writeLock ≠ none → tableWf s.ops → step s = .next u))

/-! ### The frame write and the transmit operations -/

/-- WRITE starts (R195, R196): on a connected block with the connection lock free the frame goes to the
device under that lock; on any other the transmit operation ends with NotConnected, nothing reaches the
wire and the last write duration stays. That the write starts in a step of its own is R201, the spec's own
decision D36, as the model reads it at log 15; the position in a TICK's error is R213 (D47). That only the
connection state at the write counts, also after a disconnect and a new connect within a TICK, is the model's
choice between R195 and R219 (log 35). -/
def Obligations.WriteStartsOrFindsNoConnection : Prop :=
  ∀ (s u : State) (b : Batch) (kind : TxKind) (ms : Nat),
    s.receiversDue = false → s.takeEvent = (.transmitter, u) → s.connLock = none →
    s.batch = some b → s.opOf b.owner = some (.ready kind ms) → b.current.isSome = true →
    (s.conn = .connected → ∃ t, step s = .next t ∧
      t = { u with connLock := some b.owner, ops := t.ops } ∧
      t.opOf b.owner = some (.writing kind) ∧ ∀ c, c ≠ b.owner → t.opOf c = s.opOf c) ∧
    (s.conn ≠ .connected → ∃ t, step s = .next t ∧
      t = { u with
        writeLock := none, batch := none, ops := t.ops
        results := s.results ++ [⟨b.owner, .err (.notConnected
          (if kind = .tick then some ⟨b.cur, b.cur⟩ else none))⟩] } ∧
      t.opOf b.owner = none ∧ ∀ c, c ≠ b.owner → t.opOf c = s.opOf c)

/-- A short write (R197, R198, R200, R213): exactly the accepted bytes are on the wire, `truncated` is set, the
duration is recorded, the operation ends with ShortWrite, and no later frame and no flush is written; the
block stays connected and nothing is rolled back. What a short write leaves is the spec's own decisions D33
and D47. -/
def Obligations.ShortWriteEndsTheOperation : Prop :=
  ∀ (s u : State) (a : DeviceAnswer) (c : Caller) (kind : TxKind) (b : Batch) (f : List Byte),
    s.receiversDue = false → s.takeEvent = (.device a, u) → s.connLock = some c →
    s.opOf c = some (.writing kind) → s.batch = some b → b.current = some f →
    a.accepted < f.length →
    ∃ t, step s = .next t ∧
      t = { u with
        wire := s.wire ++ f.take a.accepted
        truncated := true, lastWriteDuration := some a.duration
        connLock := none, writeLock := none, batch := none, ops := t.ops
        results := s.results ++ [⟨c, .err (.shortWrite a.accepted f.length
          (if kind = .tick then some ⟨b.cur, b.cur⟩ else none))⟩] } ∧
      t.opOf c = none ∧ ∀ d, d ≠ c → t.opOf d = s.opOf d

/-- A full write (R197, R200, R205, R210, R212, R214): the whole frame is on the wire and the duration is
recorded. The batch goes on to its next panel frame, with the inter-panel delay before it; or, after the last
panel frame, to its flush, with no delay, if a buffered frame was among them; or the operation ends Ok and
both locks are free. The order, the delay and the flush are the spec's own decisions D28 to D30, and the
duration is D40. The delay as a lower bound in the phase is log 16. -/
def Obligations.FullWriteAdvancesTheBatch : Prop :=
  ∀ (s u : State) (a : DeviceAnswer) (c : Caller) (kind : TxKind) (b : Batch) (f : List Byte),
    s.receiversDue = false → s.takeEvent = (.device a, u) → s.connLock = some c →
    s.opOf c = some (.writing kind) → s.batch = some b → BatchOk b → b.current = some f →
    f.length ≤ a.accepted →
    ∃ t, step s = .next t ∧ (∀ d, d ≠ c → t.opOf d = s.opOf d) ∧
      (b.cur + 1 < b.frames.length ∨ (b.cur + 1 = b.frames.length ∧ b.anyBuffered = true) →
        t = { u with
          wire := s.wire ++ f, lastWriteDuration := some a.duration, connLock := none
          batch := some { b with cur := b.cur + 1 }, ops := t.ops } ∧
        t.opOf c = some (.ready kind
          (if b.cur + 1 < b.frames.length then s.cfg.interPanelDelayMs else 0))) ∧
      (b.cur = b.frames.length ∨ (b.cur + 1 = b.frames.length ∧ b.anyBuffered = false) →
        t = { u with
          wire := s.wire ++ f, lastWriteDuration := some a.duration
          connLock := none, writeLock := none, batch := none, ops := t.ops
          results := s.results ++ [⟨c,
            if kind = .tick then .ok (.tick b.frames.length b.anyBuffered) else .ok .unit⟩] } ∧
        t.opOf c = none)

/-- SEND_FRAME (R202, R204): the empty string is Ok and changes nothing; any other takes the write lock for a
batch of that one string, unchecked, if the lock is free, and waits for it otherwise. The empty string and the
unchecked bytes are the spec's own decision D44, and the waiting is D35. -/
def Obligations.SendFrameTakesTheWriteLock : Prop :=
  ∀ (s : State) (f : List Byte),
    (f = [] → exec (.sendFrame f) s =
      .next { s with results := s.results ++ [⟨s.turn, .ok .unit⟩] }) ∧
    (f ≠ [] → s.writeLock = none → ∃ t, exec (.sendFrame f) s = .next t ∧
      t = { s with writeLock := some s.turn, batch := some ⟨s.turn, [f], 0, false, none⟩, ops := t.ops } ∧
      t.opOf s.turn = some (.ready .send 0) ∧ ∀ c, c ≠ s.turn → t.opOf c = s.opOf c) ∧
    (f ≠ [] → s.writeLock ≠ none → ∃ t, exec (.sendFrame f) s = .next t ∧ t = { s with ops := t.ops } ∧
      t.opOf s.turn = some (.writeWait .send ⟨s.turn, [f], 0, false, none⟩) ∧
      ∀ c, c ≠ s.turn → t.opOf c = s.opOf c)

/-- SEND_FLUSH (R203): NotConfigured on an unconfigured block; else what SEND_FRAME does with the flush frame of
the configured flush address. The flush address is the spec's own decision D25. -/
def Obligations.SendFlushSendsTheFlushFrame : Prop :=
  ∀ s : State,
    (s.configured = false → exec .sendFlush s =
      .next { s with results := s.results ++ [⟨s.turn, .err .notConfigured⟩] }) ∧
    (s.configured = true → s.writeLock = none → ∃ t, exec .sendFlush s = .next t ∧
      t = { s with
        writeLock := some s.turn
        batch := some ⟨s.turn, [[0x80, 0x82, s.cfg.flushAddress, 0x8F]], 0, false, none⟩
        ops := t.ops } ∧
      t.opOf s.turn = some (.ready .send 0) ∧ ∀ c, c ≠ s.turn → t.opOf c = s.opOf c) ∧
    (s.configured = true →
      exec .sendFlush s = exec (.sendFrame [0x80, 0x82, s.cfg.flushAddress, 0x8F]) s)

/-- TICK of a frame every panel fits, on a configured block with panels: its batch has one frame per panel in
configuration order, each with the command its width and mode give, and a flush exactly when one of them is
buffered; it takes the write lock for that batch if the lock is free, and waits for it otherwise (R205, R208,
R209, R212, R204). The encoder never fails (R122). The mode rule and the order are the spec's own decisions
D27, D28 and D29; that the encoder never fails is derived by the spec at R122. -/
def Obligations.TickStartsItsBatch : Prop :=
  ∀ (s : State) (frame : Frame),
    s.configured = true → ValidTopology s.cfg → s.cfg.panels ≠ [] → FrameFits s.cfg frame →
    ∃ b : Batch, b.owner = s.turn ∧ b.cur = 0 ∧
      b.frames = s.cfg.panels.map (tickFrameBytes s.cfg frame) ∧
      (tickBuffered s.cfg → b.anyBuffered = true ∧
        b.flush = some [0x80, 0x82, s.cfg.flushAddress, 0x8F]) ∧
      (¬ tickBuffered s.cfg → b.anyBuffered = false ∧ b.flush = none) ∧
      ∃ t, exec (.tick frame) s = .next t ∧ (∀ c, c ≠ s.turn → t.opOf c = s.opOf c) ∧
        (s.writeLock = none →
          t = { s with writeLock := some s.turn, batch := some b, ops := t.ops } ∧
          t.opOf s.turn = some (.ready .tick 0)) ∧
        (s.writeLock ≠ none →
          t = { s with ops := t.ops } ∧ t.opOf s.turn = some (.writeWait .tick b))

/-- TICK that ends before it takes a lock (R206, R207, R215, R239): NotConfigured, MAP's errors, and Ok with
nothing written where no panel is configured. Only the result is new. NotConfigured is the spec's own decision
D24, MAP's checks D14 and D15, and the empty panel list D45. -/
def Obligations.TickAnswersAtOnce : Prop :=
  ∀ (s : State) (frame : Frame),
    let answer := fun r => exec (.tick frame) s = .next { s with results := s.results ++ [⟨s.turn, r⟩] }
    (s.configured = false → answer (.err .notConfigured)) ∧
    (s.configured = true → frame.bits.length ≠ frame.height * stride frame.width →
      answer (.err (.canvasLengthMismatch (frame.height * stride frame.width) frame.bits.length))) ∧
    (s.configured = true → frame.bits.length = frame.height * stride frame.width →
      (s.cfg.panels = [] → answer (.ok (.tick 0 false))) ∧
      ∀ pre p post, s.cfg.panels = pre ++ p :: post →
        (∀ q ∈ pre, q.x + q.w ≤ frame.width ∧ q.y + q.h ≤ frame.height) →
        frame.width < p.x + p.w ∨ frame.height < p.y + p.h →
        answer (.err (.panelOutOfBounds pre.length)))

/-- QUERY_STATUS returns one snapshot of the status indications, takes no lock, never waits, and changes nothing
but its result (R39, R43, R222). The linearisable snapshot is the spec's own decision D40. -/
def Obligations.QueryStatusReturnsTheSnapshot : Prop :=
  ∀ s : State, exec .queryStatus s =
    .next { s with results := s.results ++ [⟨s.turn, .ok (.status
      ⟨s.configured, s.conn, decide (s.writeLock ≠ none), s.lastWriteDuration, s.truncated⟩)⟩] }

/-! ### The whole machine -/

/-- The state after reset, for every element R44 gives a value, whatever the parameters of R4 are; the machine's
own reset state is the one at the parameters log 12 names. The values are the spec's own decision D52. -/
def Obligations.ResetLeavesTheSpecifiedValues : Prop :=
  State.reset = State.resetWith paramsAtReset ∧
  ∀ p : Params, (State.resetWith p).params = p ∧
    (State.resetWith p).configured = false ∧ (State.resetWith p).conn = .disconnected ∧
    (State.resetWith p).writeLock = none ∧ (State.resetWith p).connLock = none ∧
    (State.resetWith p).lastWriteDuration = none ∧ (State.resetWith p).wire = [] ∧
    (State.resetWith p).truncated = false ∧ (State.resetWith p).batch = none ∧
    ∀ a, (State.resetWith p).rxAt a = ⟨.unknown, .unknown⟩

/-- No step replaces or clears a configuration (R21, R75, R119). -/
def Obligations.ConfigurationIsWrittenOnce : Prop :=
  ∀ s t : State, step s = .next t → s.configured = true → t.configured = true ∧ t.cfg = s.cfg

/-- The only bytes a step puts on the wire are a prefix of the frame the operation in flight has at the device, by
the caller that holds both locks on a connected block; nothing on the wire is ever changed (R34, R70, R71,
R197, R199). That any prefix may reach the line is the spec's own decision D33, and the two locks' protocol is
D34. -/
def Obligations.TheWireGrowsOnlyByTheBatchInFlight : Prop :=
  ∀ s t : State, Invariant s → step s = .next t →
    t.wire = s.wire ∨
    ∃ c b f k, s.writeLock = some c ∧ s.connLock = some c ∧ s.conn = .connected ∧
      s.batch = some b ∧ b.owner = c ∧ b.current = some f ∧ k ≤ f.length ∧
      t.wire = s.wire ++ f.take k

/-- `truncated` is never cleared, and the step that sets it leaves the wire with a proper prefix of the frame
being written (R35). That a short write leaves its prefix is the spec's own decision D33. -/
def Obligations.TruncatedRecordsAShortWrite : Prop :=
  ∀ s t : State, step s = .next t →
    (s.truncated = true → t.truncated = true) ∧
    (s.truncated = false → t.truncated = true → ∃ b f k, s.batch = some b ∧ b.current = some f ∧
      k < f.length ∧ t.wire = s.wire ++ f.take k)

/-- The connection state changes only along its state machine: Disconnected, Connecting, Connected, Disconnected,
and back from Connecting on a failed open (R30). CONNECT on a block that is not disconnected is the spec's own
decision D31. -/
def Obligations.ConnectionFollowsItsStateMachine : Prop :=
  ∀ s t : State, Invariant s → step s = .next t → s.conn ≠ t.conn →
    (s.conn, t.conn) ∈ [(ConnState.disconnected, ConnState.connecting), (.connecting, .connected),
      (.connecting, .disconnected), (.connected, .disconnected)]

/-- Between two frame writes of a tick another caller may disconnect; the next frame write then ends the tick with
NotConnected at that frame, with nothing more on the wire (R219, R213, R221). The interleaving is the spec's
own decision D34, and the abort's state is D47. -/
def Obligations.DisconnectBetweenFramesEndsTheTick : Prop :=
  ∀ (s : State) (b : Batch) (ms : Nat) (d : Caller) (a : DeviceAnswer) (rest : List Event)
    (requests : List Request),
    Invariant s → s.receiversDue = false → s.conn = .connected → s.connLock = none →
    s.batch = some b → s.opOf b.owner = some (.ready .tick ms) →
    d ≠ b.owner → d ∈ s.params.callers → s.opOf d = none → a.ok = true →
    takeRequest d s.requests = some (encode .disconnect, requests) →
    s.schedule = .caller d :: .device a :: .transmitter :: rest →
    ∃ t, core.run 3 s = .next t ∧ t.conn = .disconnected ∧ t.wire = s.wire ∧
      t.truncated = s.truncated ∧ t.lastWriteDuration = s.lastWriteDuration ∧
      t.batch = none ∧ t.writeLock = none ∧ t.connLock = none ∧ t.schedule = rest ∧
      t.results = s.results ++ [⟨d, .ok .unit⟩, ⟨b.owner, .err (.notConnected (some ⟨b.cur, b.cur⟩))⟩]

/-- The invariant holds after reset, whatever the parameters of R4 are. The reset values are the spec's own
decision D52 and, for the model's own fields, log 26. -/
def Obligations.InvariantHoldsAtReset : Prop :=
  Invariant State.reset ∧ ∀ p : Params, Invariant (State.resetWith p)

/-- Every step keeps the invariant and the parameters of R4 (R3, log 12): the locks agree with the operations
under way and the batch, the connection with its device actions, the configuration with the topology rules, and
`rx` with the fold of the recognised wire. The invariant gathers what 10_state.md says of each element with what
the spec derives at R122, R218 and R229; the model's own fields are log 1, log 7 and log 9. -/
def Obligations.EveryStepKeepsTheInvariant : Prop :=
  ∀ s t : State, Invariant s → step s = .next t → Invariant t ∧ t.params = s.params

/-- In a state that meets the invariant no step faults, and a step is refused only where a caller's request
decodes to no operation: every error of the block is a result (R225, R245). That every error is a result and
that only undecodable requests are refused is the spec's own inference at R245; log 13 and log 17. -/
def Obligations.OnlyUndecodableRequestsStopTheMachine : Prop :=
  ∀ s : State, Invariant s →
    (∀ f, step s ≠ .fault f) ∧
    (∀ r, step s = .refused r → ∃ c code rest, s.takeEvent.1 = .caller c ∧
      c ∈ s.params.callers ∧ s.opOf c = none ∧
      takeRequest c s.requests = some (code, rest) ∧ ∀ i, decodeRequest code ≠ .ok i)

/-- The two locks cannot deadlock each other: while any operation is outstanding and the receivers are done, some
agent's move takes an outstanding operation further or ends it (R218). The spec derives at R218 that the two
locks cannot deadlock each other. -/
def Obligations.TheLocksNeverDeadlock : Prop :=
  ∀ s : State, Invariant s → s.receiversDue = false → s.ops ≠ [] →
    ∃ (e : Event) (c : Caller) (t : State), s.opOf c ≠ none ∧
      step { s with schedule := [e] } = .next t ∧ t.opOf c ≠ s.opOf c

/-- Under a fair device every started device action completes: whoever holds the connection lock, there is a later
state in which it is free (R201). serial_progress is the spec's own decision D36, and fair runs as Safety's
Admissible are log 11. -/
def Obligations.AFairDeviceReleasesTheConnectionLock : Prop :=
  ∀ (r : Nat → State) (n : Nat) (c : Caller), Admissible r →
    (r 0).params.serialProgress = .fair → Invariant (r 0) →
    (r n).connLock = some c → ∃ m, n < m ∧ (r m).connLock = none

/-- A whole TICK (R205, R209, R211, R212, R214): from a state at rest, a caller's TICK whose frame writes the
device all takes in full puts exactly the panels' frames in configuration order on the wire, then one flush if
a panel is buffered, returns Ok with their number, and leaves both locks free. The expansion is derived by the
spec at R211; order and flush are its decisions D28 and D29. The schedule is the model's (log 9). -/
def Obligations.TickWritesItsFramesAndFlush : Prop :=
  ∀ (s : State) (c : Caller) (frame : Frame) (requests : List Request) (a : DeviceAnswer)
    (rest : List Event) (frames : List (List Byte)) (flushed : Bool),
    Invariant s → s.receiversDue = false → s.configured = true → s.conn = .connected →
    s.writeLock = none → s.connLock = none → c ∈ s.params.callers → s.opOf c = none →
    s.cfg.panels ≠ [] →
    FrameFits s.cfg frame → TakesAll a →
    takeRequest c s.requests = some (encode (.tick frame), requests) →
    (flushed = true ↔ tickBuffered s.cfg) →
    frames = s.cfg.panels.map (tickFrameBytes s.cfg frame) ++
      (if flushed then [[0x80, 0x82, s.cfg.flushAddress, 0x8F]] else []) →
    s.schedule = .caller c :: (frames.flatMap fun _ => [Event.transmitter, .device a]) ++ rest →
    ∃ n t, core.run n s = .next t ∧ t.receiversDue = false ∧ t.schedule = rest ∧
      t.wire = s.wire ++ frames.flatten ∧
      t.results = s.results ++ [⟨c, .ok (.tick s.cfg.panels.length flushed)⟩] ∧
      t.conn = .connected ∧ t.writeLock = none ∧ t.connLock = none ∧ t.batch = none ∧
      t.opOf c = none ∧ t.truncated = s.truncated ∧ t.lastWriteDuration = some a.duration

/-- After such a TICK, in a configuration where every panel gets the same mode and with neither the stream nor a
panel lost, every configured panel displays its own slice of the frame (R257). The spec derives this at R257
from its receiver model (D39). -/
def Obligations.TickIsDisplayed : Prop :=
  ∀ (s : State) (c : Caller) (frame : Frame) (requests : List Request) (a : DeviceAnswer)
    (rest : List Event) (frames : List (List Byte)) (flushed : Bool),
    Invariant s → s.receiversDue = false → s.rxLost = false →
    (∀ p ∈ s.cfg.panels, s.rxPanel (BitVec.ofNat 8 p.addr) ≠ .lost) →
    s.configured = true → s.conn = .connected →
    s.writeLock = none → s.connLock = none → c ∈ s.params.callers → s.opOf c = none →
    s.cfg.panels ≠ [] →
    FrameFits s.cfg frame → TakesAll a →
    (∀ p ∈ s.cfg.panels, ∀ q ∈ s.cfg.panels,
      refreshMode s.cfg (dataWidth p) = refreshMode s.cfg (dataWidth q)) →
    takeRequest c s.requests = some (encode (.tick frame), requests) →
    (flushed = true ↔ tickBuffered s.cfg) →
    frames = s.cfg.panels.map (tickFrameBytes s.cfg frame) ++
      (if flushed then [[0x80, 0x82, s.cfg.flushAddress, 0x8F]] else []) →
    s.schedule = .caller c :: (frames.flatMap fun _ => [Event.transmitter, .device a]) ++ rest →
    ∃ n t, core.run n s = .next t ∧ t.receiversDue = false ∧ t.schedule = rest ∧
      ∀ p ∈ s.cfg.panels, (t.rxAt (BitVec.ofNat 8 p.addr)).displayed = .cols (panelCols frame p)
end

