-- ==== Sys2Proof/Laws/Configure.lean ====
section
/-! SUPPORT. What each check of CONFIGURE answers. -/

namespace Sys2Proof.Machine

theorem checkPanel_none {w h k : Nat} {p : PanelConfig} :
    checkPanel w h k p = none ↔ ValidPanel w h p := by
  unfold checkPanel ValidPanel inBounds
  split_ifs <;> simp_all <;> omega

theorem checkPanels_none {w h : Nat} (k : Nat) (ps : List PanelConfig) :
    checkPanels w h k ps = none ↔ ∀ p ∈ ps, ValidPanel w h p := by
  induction ps generalizing k with
  | nil => simp [checkPanels]
  | cons p ps ih =>
    simp only [checkPanels]
    cases hc : checkPanel w h k p with
    | none => simp [ih, checkPanel_none.1 hc]
    | some e =>
      have : ¬ ValidPanel w h p := fun hv => by rw [checkPanel_none.2 hv] at hc; cases hc
      simp [this]

theorem checkPanels_append {w h : Nat} (k : Nat) (pre : List PanelConfig) (p : PanelConfig) (post : List PanelConfig)
    (hp : ∀ q ∈ pre, ValidPanel w h q) {e : Err} (he : checkPanel w h (k + pre.length) p = some e) :
    checkPanels w h k (pre ++ p :: post) = some e := by
  induction pre generalizing k with
  | nil => simp only [List.nil_append, checkPanels]; simp at he; rw [he]
  | cons q pre ih =>
    simp only [List.cons_append, checkPanels]
    rw [checkPanel_none.2 (hp q List.mem_cons_self)]
    apply ih (k+1) (fun q' h' => hp q' (List.mem_cons_of_mem _ h'))
    rw [← he]; congr 1; simp; omega

theorem findSome?_range_eq_some {α : Type} (n : Nat) (f : Nat → Option α) (v : α) :
    (List.range n).findSome? f = some v ↔ ∃ k, k < n ∧ f k = some v ∧ ∀ k' < k, f k' = none := by
  induction n generalizing v with
  | zero => simp
  | succ n ih =>
    rw [List.range_succ, List.findSome?_append]
    cases h : (List.range n).findSome? f with
    | none =>
      rw [List.findSome?_eq_none_iff] at h
      simp only [Option.none_or]
      constructor
      · intro h'
        simp at h'
        exact ⟨n, by omega, h', fun k' hk' => h k' (by simpa using hk')⟩
      · rintro ⟨k, hk, hf, hm⟩
        have : k = n := by
          by_contra hne
          have := h k (by simp; omega)
          rw [this] at hf; cases hf
        subst this
        simp [hf]
    | some x =>
      simp only [Option.some_or]
      obtain ⟨k2, hk2, hf2, hm2⟩ := (ih x).1 h
      constructor
      · intro hx
        cases hx
        exact ⟨k2, by omega, hf2, hm2⟩
      · rintro ⟨k, hk, hf, hm⟩
        rcases Nat.lt_trichotomy k k2 with hlt | rfl | hlt
        · rw [hm2 k hlt] at hf; cases hf
        · rw [← hf2, hf]
        · rw [hm k2 hlt] at hf2; cases hf2

theorem findSome?_range_eq_none {α : Type} (n : Nat) (f : Nat → Option α) :
    (List.range n).findSome? f = none ↔ ∀ k < n, f k = none := by
  simp [List.findSome?_eq_none_iff]

theorem clashAt_some {rel} {ps : List PanelConfig} {k j : Nat} {v : Nat × Nat} :
    clashAt rel ps k j = some v ↔
      v = (j, k) ∧ ∃ a b, ps[j]? = some a ∧ ps[k]? = some b ∧ rel a b = true := by
  unfold clashAt
  cases ha : ps[j]? <;> cases hb : ps[k]? <;> simp
  rename_i a b
  cases rel a b <;> simp [eq_comm]

theorem clashAt_none {rel} {ps : List PanelConfig} {k j : Nat} :
    clashAt rel ps k j = none ↔ ∀ a b, ps[j]? = some a → ps[k]? = some b → rel a b = false := by
  unfold clashAt
  cases ha : ps[j]? <;> cases hb : ps[k]? <;> simp

theorem firstPair_some {rel} {ps : List PanelConfig} {j k : Nat} :
    firstPair rel ps = some (j, k) ↔
      j < k ∧ (∃ a b, ps[j]? = some a ∧ ps[k]? = some b ∧ rel a b = true) ∧
      ∀ j' k' a b, j' < k' → k' < k ∨ (k' = k ∧ j' < j) →
        ps[j']? = some a → ps[k']? = some b → rel a b = false := by
  unfold firstPair
  simp only [findSome?_range_eq_some, findSome?_range_eq_none, clashAt_some, clashAt_none]
  constructor
  · rintro ⟨k1, hk1, ⟨j1, hj1, ⟨he, hab⟩, hmin⟩, hmin2⟩
    cases he
    refine ⟨hj1, hab, ?_⟩
    rintro j' k' a b hjk (hlt | ⟨rfl, hlt⟩) ha hb
    · exact hmin2 k' hlt j' hjk a b ha hb
    · exact hmin j' hlt a b ha hb
  · rintro ⟨hjk, ⟨a, b, ha, hb, hr⟩, hmin⟩
    refine ⟨k, (List.getElem?_eq_some_iff.1 hb).1, ⟨j, hjk, ⟨rfl, a, b, ha, hb, hr⟩, ?_⟩, ?_⟩
    · intro j' hj' a b ha hb
      exact hmin j' k a b (by omega) (Or.inr ⟨rfl, hj'⟩) ha hb
    · intro k' hk' j' hj' a b ha hb
      exact hmin j' k' a b hj' (Or.inl hk') ha hb

theorem firstPair_none {rel} {ps : List PanelConfig} :
    firstPair rel ps = none ↔ ps.Pairwise fun a b => rel a b = false := by
  unfold firstPair
  simp only [findSome?_range_eq_none, clashAt_none]
  rw [List.pairwise_iff_getElem]
  constructor
  · intro h i j hi hj hij
    exact h j hj i hij _ _ (List.getElem?_eq_getElem hi) (List.getElem?_eq_getElem hj)
  · intro h k hk j hj a b ha hb
    obtain ⟨h1, rfl⟩ := List.getElem?_eq_some_iff.1 ha
    obtain ⟨h2, rfl⟩ := List.getElem?_eq_some_iff.1 hb
    exact h j k h1 h2 hj

theorem overlap_iff {W H : Nat} {a b : PanelConfig} (ha : ValidPanel W H a) (hb : ValidPanel W H b) :
    overlap a b = true ↔ SharesPixel a b := by
  have pos : ∀ p : PanelConfig, ValidPanel W H p → 1 ≤ p.w ∧ 1 ≤ p.h := by
    rintro ⟨_, _, _, _, w, h, o⟩ hp
    simp only [ValidPanel, foldHeight, dataWidth, orientDims] at hp ⊢
    cases o <;> simp at hp ⊢ <;> omega
  obtain ⟨ha1, ha2⟩ := pos a ha
  obtain ⟨hb1, hb2⟩ := pos b hb
  simp only [overlap, SharesPixel, covers, Bool.and_eq_true, decide_eq_true_eq]
  constructor
  · rintro ⟨⟨⟨h1, h2⟩, h3⟩, h4⟩
    exact ⟨max a.x b.x, max a.y b.y, by omega, by omega⟩
  · rintro ⟨x, y, h1, h2⟩; omega

theorem firstOtherWidth_none (w k : Nat) (ps : List PanelConfig) :
    firstOtherWidth w k ps = none ↔ ∀ p ∈ ps, dataWidth p = w := by
  induction ps generalizing k with
  | nil => simp [firstOtherWidth]
  | cons p ps ih =>
    simp only [firstOtherWidth]
    split_ifs with h
    · simp [ih, h]
    · simp [h]

theorem firstOtherWidth_some (w k0 j : Nat) (ps : List PanelConfig) (p : PanelConfig) (hp : ps[j]? = some p)
    (hne : dataWidth p ≠ w) (hmin : ∀ j' p', j' < j → ps[j']? = some p' → dataWidth p' = w) :
    firstOtherWidth w k0 ps = some (k0 + j) := by
  induction ps generalizing k0 j with
  | nil => simp at hp
  | cons q ps ih =>
    simp only [firstOtherWidth]
    cases j with
    | zero => simp at hp; subst hp; simp [hne]
    | succ j =>
      rw [if_pos (hmin 0 q (by omega) (by simp)), ih (k0+1) j (by simpa using hp) (fun j' p' hj' hp' => hmin (j'+1) p' (by omega) (by simpa using hp'))]
      congr 1; omega

theorem mixedWidth_none (ps : List PanelConfig) :
    mixedWidth ps = none ↔ ∀ a ∈ ps, ∀ b ∈ ps, dataWidth a = dataWidth b := by
  cases ps with
  | nil => simp [mixedWidth]
  | cons p ps =>
    simp only [mixedWidth, firstOtherWidth_none]
    constructor
    · intro h
      have h' : ∀ a ∈ p :: ps, dataWidth a = dataWidth p := by
        intro a ha
        rcases List.mem_cons.1 ha with rfl | ha
        · rfl
        · exact h a ha
      intro a ha b hb; rw [h' a ha, h' b hb]
    · intro h q hq; exact h q (List.mem_cons_of_mem _ hq) p List.mem_cons_self

theorem checkConfig_none (cfg : Config) : checkConfig cfg = none ↔ ValidTopology cfg := by
  unfold checkConfig
  by_cases hc : cfg.canvasW < 1 ∨ 65535 < cfg.canvasW ∨ cfg.canvasH < 1 ∨ 65535 < cfg.canvasH
  · simp only [if_pos hc, reduceCtorEq, false_iff]
    intro h; have := h.canvasW; have := h.canvasH; omega
  · rw [if_neg hc]
    cases hp : checkPanels cfg.canvasW cfg.canvasH 0 cfg.panels with
    | some e =>
      simp only [reduceCtorEq, false_iff]
      intro h
      rw [(checkPanels_none 0 _).2 h.panels] at hp; cases hp
    | none =>
      have hv := (checkPanels_none 0 _).1 hp
      simp only
      cases ha : firstPair sameAddress cfg.panels with
      | some jk =>
        simp only [reduceCtorEq, false_iff]
        intro h
        rw [firstPair_none.2 (h.addresses.imp (by intro a b hab; simp [sameAddress, hab]))] at ha
        cases ha
      | none =>
        have haddr := firstPair_none.1 ha
        simp only
        have hadd : cfg.panels.Pairwise fun a b => a.addr ≠ b.addr :=
          haddr.imp (by intro a b hab; simpa [sameAddress] using hab)
        split_ifs with hs
        · unfold checkStrict
          cases hm : mixedWidth cfg.panels with
          | some k =>
            simp only [reduceCtorEq, false_iff]
            intro h
            rw [(mixedWidth_none _).2 (h.widthClass hs)] at hm; cases hm
          | none =>
            have hm' := (mixedWidth_none _).1 hm
            simp only
            cases ho : firstPair overlap cfg.panels with
            | some jk =>
              simp only [reduceCtorEq, false_iff]
              intro h
              rw [firstPair_none.2] at ho
              · cases ho
              · apply List.Pairwise.imp_of_mem _ (h.disjoint hs)
                intro a b ha hb hab
                rw [← overlap_iff (hv a ha) (hv b hb)] at hab
                simpa using hab
            | none =>
              simp only [true_iff]
              refine ⟨by omega, by omega, hv, hadd, fun _ => hm', fun _ => ?_⟩
              apply List.Pairwise.imp_of_mem _ (firstPair_none.1 ho)
              intro a b ha hb hab
              rw [← overlap_iff (hv a ha) (hv b hb)]
              simpa using hab
        · simp only [true_iff]
          exact ⟨by omega, by omega, hv, hadd, fun h => absurd h hs, fun h => absurd h hs⟩

end Sys2Proof.Machine
end

