-- ==== Sys2Proof/Laws/State.lean ====
section
/-! SUPPORT. One lemma per field per update of the state, true by rfl, and what the updates do to the outstanding
operation of a caller. -/

namespace Sys2Proof.Machine

@[simp] theorem State.setOp_params (s : State) (c : Caller) (p : Phase) : (s.setOp c p).params = s.params := rfl
@[simp] theorem State.setOp_configured (s : State) (c : Caller) (p : Phase) : (s.setOp c p).configured = s.configured := rfl
@[simp] theorem State.setOp_cfg (s : State) (c : Caller) (p : Phase) : (s.setOp c p).cfg = s.cfg := rfl
@[simp] theorem State.setOp_conn (s : State) (c : Caller) (p : Phase) : (s.setOp c p).conn = s.conn := rfl
@[simp] theorem State.setOp_writeLock (s : State) (c : Caller) (p : Phase) : (s.setOp c p).writeLock = s.writeLock := rfl
@[simp] theorem State.setOp_connLock (s : State) (c : Caller) (p : Phase) : (s.setOp c p).connLock = s.connLock := rfl
@[simp] theorem State.setOp_lastWriteDuration (s : State) (c : Caller) (p : Phase) : (s.setOp c p).lastWriteDuration = s.lastWriteDuration := rfl
@[simp] theorem State.setOp_wire (s : State) (c : Caller) (p : Phase) : (s.setOp c p).wire = s.wire := rfl
@[simp] theorem State.setOp_truncated (s : State) (c : Caller) (p : Phase) : (s.setOp c p).truncated = s.truncated := rfl
@[simp] theorem State.setOp_batch (s : State) (c : Caller) (p : Phase) : (s.setOp c p).batch = s.batch := rfl
@[simp] theorem State.setOp_rx (s : State) (c : Caller) (p : Phase) : (s.setOp c p).rx = s.rx := rfl
@[simp] theorem State.setOp_rxPos (s : State) (c : Caller) (p : Phase) : (s.setOp c p).rxPos = s.rxPos := rfl
@[simp] theorem State.setOp_rxLost (s : State) (c : Caller) (p : Phase) : (s.setOp c p).rxLost = s.rxLost := rfl
@[simp] theorem State.setOp_requests (s : State) (c : Caller) (p : Phase) : (s.setOp c p).requests = s.requests := rfl
@[simp] theorem State.setOp_ops (s : State) (c : Caller) (p : Phase) : (s.setOp c p).ops = tablePut s.ops c p := rfl
@[simp] theorem State.setOp_results (s : State) (c : Caller) (p : Phase) : (s.setOp c p).results = s.results := rfl
@[simp] theorem State.setOp_turn (s : State) (c : Caller) (p : Phase) : (s.setOp c p).turn = s.turn := rfl
@[simp] theorem State.setOp_schedule (s : State) (c : Caller) (p : Phase) : (s.setOp c p).schedule = s.schedule := rfl
@[simp] theorem State.setOp_draws (s : State) (c : Caller) (p : Phase) : (s.setOp c p).draws = s.draws := rfl

@[simp] theorem State.answer_params (s : State) (c : Caller) (r : Result) : (s.answer c r).params = s.params := rfl
@[simp] theorem State.answer_configured (s : State) (c : Caller) (r : Result) : (s.answer c r).configured = s.configured := rfl
@[simp] theorem State.answer_cfg (s : State) (c : Caller) (r : Result) : (s.answer c r).cfg = s.cfg := rfl
@[simp] theorem State.answer_conn (s : State) (c : Caller) (r : Result) : (s.answer c r).conn = s.conn := rfl
@[simp] theorem State.answer_writeLock (s : State) (c : Caller) (r : Result) : (s.answer c r).writeLock = s.writeLock := rfl
@[simp] theorem State.answer_connLock (s : State) (c : Caller) (r : Result) : (s.answer c r).connLock = s.connLock := rfl
@[simp] theorem State.answer_lastWriteDuration (s : State) (c : Caller) (r : Result) : (s.answer c r).lastWriteDuration = s.lastWriteDuration := rfl
@[simp] theorem State.answer_wire (s : State) (c : Caller) (r : Result) : (s.answer c r).wire = s.wire := rfl
@[simp] theorem State.answer_truncated (s : State) (c : Caller) (r : Result) : (s.answer c r).truncated = s.truncated := rfl
@[simp] theorem State.answer_batch (s : State) (c : Caller) (r : Result) : (s.answer c r).batch = s.batch := rfl
@[simp] theorem State.answer_rx (s : State) (c : Caller) (r : Result) : (s.answer c r).rx = s.rx := rfl
@[simp] theorem State.answer_rxPos (s : State) (c : Caller) (r : Result) : (s.answer c r).rxPos = s.rxPos := rfl
@[simp] theorem State.answer_rxLost (s : State) (c : Caller) (r : Result) : (s.answer c r).rxLost = s.rxLost := rfl
@[simp] theorem State.answer_requests (s : State) (c : Caller) (r : Result) : (s.answer c r).requests = s.requests := rfl
@[simp] theorem State.answer_ops (s : State) (c : Caller) (r : Result) : (s.answer c r).ops = s.ops := rfl
@[simp] theorem State.answer_results (s : State) (c : Caller) (r : Result) : (s.answer c r).results = s.results ++ [⟨c, r⟩] := rfl
@[simp] theorem State.answer_turn (s : State) (c : Caller) (r : Result) : (s.answer c r).turn = s.turn := rfl
@[simp] theorem State.answer_schedule (s : State) (c : Caller) (r : Result) : (s.answer c r).schedule = s.schedule := rfl
@[simp] theorem State.answer_draws (s : State) (c : Caller) (r : Result) : (s.answer c r).draws = s.draws := rfl

@[simp] theorem State.raise_params (s : State) (c : Caller) (e : Err) : (s.raise c e).params = s.params := rfl
@[simp] theorem State.raise_configured (s : State) (c : Caller) (e : Err) : (s.raise c e).configured = s.configured := rfl
@[simp] theorem State.raise_cfg (s : State) (c : Caller) (e : Err) : (s.raise c e).cfg = s.cfg := rfl
@[simp] theorem State.raise_conn (s : State) (c : Caller) (e : Err) : (s.raise c e).conn = s.conn := rfl
@[simp] theorem State.raise_writeLock (s : State) (c : Caller) (e : Err) : (s.raise c e).writeLock = s.writeLock := rfl
@[simp] theorem State.raise_connLock (s : State) (c : Caller) (e : Err) : (s.raise c e).connLock = s.connLock := rfl
@[simp] theorem State.raise_lastWriteDuration (s : State) (c : Caller) (e : Err) : (s.raise c e).lastWriteDuration = s.lastWriteDuration := rfl
@[simp] theorem State.raise_wire (s : State) (c : Caller) (e : Err) : (s.raise c e).wire = s.wire := rfl
@[simp] theorem State.raise_truncated (s : State) (c : Caller) (e : Err) : (s.raise c e).truncated = s.truncated := rfl
@[simp] theorem State.raise_batch (s : State) (c : Caller) (e : Err) : (s.raise c e).batch = s.batch := rfl
@[simp] theorem State.raise_rx (s : State) (c : Caller) (e : Err) : (s.raise c e).rx = s.rx := rfl
@[simp] theorem State.raise_rxPos (s : State) (c : Caller) (e : Err) : (s.raise c e).rxPos = s.rxPos := rfl
@[simp] theorem State.raise_rxLost (s : State) (c : Caller) (e : Err) : (s.raise c e).rxLost = s.rxLost := rfl
@[simp] theorem State.raise_requests (s : State) (c : Caller) (e : Err) : (s.raise c e).requests = s.requests := rfl
@[simp] theorem State.raise_ops (s : State) (c : Caller) (e : Err) : (s.raise c e).ops = s.ops := rfl
@[simp] theorem State.raise_results (s : State) (c : Caller) (e : Err) : (s.raise c e).results = s.results ++ [⟨c, .err e⟩] := rfl
@[simp] theorem State.raise_turn (s : State) (c : Caller) (e : Err) : (s.raise c e).turn = s.turn := rfl
@[simp] theorem State.raise_schedule (s : State) (c : Caller) (e : Err) : (s.raise c e).schedule = s.schedule := rfl
@[simp] theorem State.raise_draws (s : State) (c : Caller) (e : Err) : (s.raise c e).draws = s.draws := rfl

@[simp] theorem State.finish_params (s : State) (c : Caller) (r : Result) : (s.finish c r).params = s.params := rfl
@[simp] theorem State.finish_configured (s : State) (c : Caller) (r : Result) : (s.finish c r).configured = s.configured := rfl
@[simp] theorem State.finish_cfg (s : State) (c : Caller) (r : Result) : (s.finish c r).cfg = s.cfg := rfl
@[simp] theorem State.finish_conn (s : State) (c : Caller) (r : Result) : (s.finish c r).conn = s.conn := rfl
@[simp] theorem State.finish_writeLock (s : State) (c : Caller) (r : Result) : (s.finish c r).writeLock = s.writeLock := rfl
@[simp] theorem State.finish_connLock (s : State) (c : Caller) (r : Result) : (s.finish c r).connLock = s.connLock := rfl
@[simp] theorem State.finish_lastWriteDuration (s : State) (c : Caller) (r : Result) : (s.finish c r).lastWriteDuration = s.lastWriteDuration := rfl
@[simp] theorem State.finish_wire (s : State) (c : Caller) (r : Result) : (s.finish c r).wire = s.wire := rfl
@[simp] theorem State.finish_truncated (s : State) (c : Caller) (r : Result) : (s.finish c r).truncated = s.truncated := rfl
@[simp] theorem State.finish_batch (s : State) (c : Caller) (r : Result) : (s.finish c r).batch = s.batch := rfl
@[simp] theorem State.finish_rx (s : State) (c : Caller) (r : Result) : (s.finish c r).rx = s.rx := rfl
@[simp] theorem State.finish_rxPos (s : State) (c : Caller) (r : Result) : (s.finish c r).rxPos = s.rxPos := rfl
@[simp] theorem State.finish_rxLost (s : State) (c : Caller) (r : Result) : (s.finish c r).rxLost = s.rxLost := rfl
@[simp] theorem State.finish_requests (s : State) (c : Caller) (r : Result) : (s.finish c r).requests = s.requests := rfl
@[simp] theorem State.finish_ops (s : State) (c : Caller) (r : Result) : (s.finish c r).ops = tableDrop s.ops c := rfl
@[simp] theorem State.finish_results (s : State) (c : Caller) (r : Result) : (s.finish c r).results = s.results ++ [⟨c, r⟩] := rfl
@[simp] theorem State.finish_turn (s : State) (c : Caller) (r : Result) : (s.finish c r).turn = s.turn := rfl
@[simp] theorem State.finish_schedule (s : State) (c : Caller) (r : Result) : (s.finish c r).schedule = s.schedule := rfl
@[simp] theorem State.finish_draws (s : State) (c : Caller) (r : Result) : (s.finish c r).draws = s.draws := rfl

@[simp] theorem State.loseStream_params (s : State) : (s.loseStream).params = s.params := rfl
@[simp] theorem State.loseStream_configured (s : State) : (s.loseStream).configured = s.configured := rfl
@[simp] theorem State.loseStream_cfg (s : State) : (s.loseStream).cfg = s.cfg := rfl
@[simp] theorem State.loseStream_conn (s : State) : (s.loseStream).conn = s.conn := rfl
@[simp] theorem State.loseStream_writeLock (s : State) : (s.loseStream).writeLock = s.writeLock := rfl
@[simp] theorem State.loseStream_connLock (s : State) : (s.loseStream).connLock = s.connLock := rfl
@[simp] theorem State.loseStream_lastWriteDuration (s : State) : (s.loseStream).lastWriteDuration = s.lastWriteDuration := rfl
@[simp] theorem State.loseStream_wire (s : State) : (s.loseStream).wire = s.wire := rfl
@[simp] theorem State.loseStream_truncated (s : State) : (s.loseStream).truncated = s.truncated := rfl
@[simp] theorem State.loseStream_batch (s : State) : (s.loseStream).batch = s.batch := rfl
@[simp] theorem State.loseStream_rx (s : State) : (s.loseStream).rx = [] := rfl
@[simp] theorem State.loseStream_rxPos (s : State) : (s.loseStream).rxPos = s.rxPos := rfl
@[simp] theorem State.loseStream_rxLost (s : State) : (s.loseStream).rxLost = true := rfl
@[simp] theorem State.loseStream_requests (s : State) : (s.loseStream).requests = s.requests := rfl
@[simp] theorem State.loseStream_ops (s : State) : (s.loseStream).ops = s.ops := rfl
@[simp] theorem State.loseStream_results (s : State) : (s.loseStream).results = s.results := rfl
@[simp] theorem State.loseStream_turn (s : State) : (s.loseStream).turn = s.turn := rfl
@[simp] theorem State.loseStream_schedule (s : State) : (s.loseStream).schedule = s.schedule := rfl
@[simp] theorem State.loseStream_draws (s : State) : (s.loseStream).draws = s.draws := rfl

@[simp] theorem endBatch_params (s : State) (c : Caller) (r : Result) : (endBatch c r s).params = s.params := rfl
@[simp] theorem endBatch_configured (s : State) (c : Caller) (r : Result) : (endBatch c r s).configured = s.configured := rfl
@[simp] theorem endBatch_cfg (s : State) (c : Caller) (r : Result) : (endBatch c r s).cfg = s.cfg := rfl
@[simp] theorem endBatch_conn (s : State) (c : Caller) (r : Result) : (endBatch c r s).conn = s.conn := rfl
@[simp] theorem endBatch_writeLock (s : State) (c : Caller) (r : Result) : (endBatch c r s).writeLock = none := rfl
@[simp] theorem endBatch_connLock (s : State) (c : Caller) (r : Result) : (endBatch c r s).connLock = s.connLock := rfl
@[simp] theorem endBatch_lastWriteDuration (s : State) (c : Caller) (r : Result) : (endBatch c r s).lastWriteDuration = s.lastWriteDuration := rfl
@[simp] theorem endBatch_wire (s : State) (c : Caller) (r : Result) : (endBatch c r s).wire = s.wire := rfl
@[simp] theorem endBatch_truncated (s : State) (c : Caller) (r : Result) : (endBatch c r s).truncated = s.truncated := rfl
@[simp] theorem endBatch_batch (s : State) (c : Caller) (r : Result) : (endBatch c r s).batch = none := rfl
@[simp] theorem endBatch_rx (s : State) (c : Caller) (r : Result) : (endBatch c r s).rx = s.rx := rfl
@[simp] theorem endBatch_rxPos (s : State) (c : Caller) (r : Result) : (endBatch c r s).rxPos = s.rxPos := rfl
@[simp] theorem endBatch_rxLost (s : State) (c : Caller) (r : Result) : (endBatch c r s).rxLost = s.rxLost := rfl
@[simp] theorem endBatch_requests (s : State) (c : Caller) (r : Result) : (endBatch c r s).requests = s.requests := rfl
@[simp] theorem endBatch_ops (s : State) (c : Caller) (r : Result) : (endBatch c r s).ops = tableDrop s.ops c := rfl
@[simp] theorem endBatch_results (s : State) (c : Caller) (r : Result) : (endBatch c r s).results = s.results ++ [⟨c, r⟩] := rfl
@[simp] theorem endBatch_turn (s : State) (c : Caller) (r : Result) : (endBatch c r s).turn = s.turn := rfl
@[simp] theorem endBatch_schedule (s : State) (c : Caller) (r : Result) : (endBatch c r s).schedule = s.schedule := rfl
@[simp] theorem endBatch_draws (s : State) (c : Caller) (r : Result) : (endBatch c r s).draws = s.draws := rfl

@[simp] theorem wroteBytes_params (s : State) (frame : List Byte) (k : Nat) (d : Duration) : (wroteBytes frame k d s).params = s.params := rfl
@[simp] theorem wroteBytes_configured (s : State) (frame : List Byte) (k : Nat) (d : Duration) : (wroteBytes frame k d s).configured = s.configured := rfl
@[simp] theorem wroteBytes_cfg (s : State) (frame : List Byte) (k : Nat) (d : Duration) : (wroteBytes frame k d s).cfg = s.cfg := rfl
@[simp] theorem wroteBytes_conn (s : State) (frame : List Byte) (k : Nat) (d : Duration) : (wroteBytes frame k d s).conn = s.conn := rfl
@[simp] theorem wroteBytes_writeLock (s : State) (frame : List Byte) (k : Nat) (d : Duration) : (wroteBytes frame k d s).writeLock = s.writeLock := rfl
@[simp] theorem wroteBytes_connLock (s : State) (frame : List Byte) (k : Nat) (d : Duration) : (wroteBytes frame k d s).connLock = none := rfl
@[simp] theorem wroteBytes_lastWriteDuration (s : State) (frame : List Byte) (k : Nat) (d : Duration) : (wroteBytes frame k d s).lastWriteDuration = some d := rfl
@[simp] theorem wroteBytes_wire (s : State) (frame : List Byte) (k : Nat) (d : Duration) : (wroteBytes frame k d s).wire = s.wire ++ frame.take k := rfl
@[simp] theorem wroteBytes_truncated (s : State) (frame : List Byte) (k : Nat) (d : Duration) : (wroteBytes frame k d s).truncated = s.truncated := rfl
@[simp] theorem wroteBytes_batch (s : State) (frame : List Byte) (k : Nat) (d : Duration) : (wroteBytes frame k d s).batch = s.batch := rfl
@[simp] theorem wroteBytes_rx (s : State) (frame : List Byte) (k : Nat) (d : Duration) : (wroteBytes frame k d s).rx = s.rx := rfl
@[simp] theorem wroteBytes_rxPos (s : State) (frame : List Byte) (k : Nat) (d : Duration) : (wroteBytes frame k d s).rxPos = s.rxPos := rfl
@[simp] theorem wroteBytes_rxLost (s : State) (frame : List Byte) (k : Nat) (d : Duration) : (wroteBytes frame k d s).rxLost = s.rxLost := rfl
@[simp] theorem wroteBytes_requests (s : State) (frame : List Byte) (k : Nat) (d : Duration) : (wroteBytes frame k d s).requests = s.requests := rfl
@[simp] theorem wroteBytes_ops (s : State) (frame : List Byte) (k : Nat) (d : Duration) : (wroteBytes frame k d s).ops = s.ops := rfl
@[simp] theorem wroteBytes_results (s : State) (frame : List Byte) (k : Nat) (d : Duration) : (wroteBytes frame k d s).results = s.results := rfl
@[simp] theorem wroteBytes_turn (s : State) (frame : List Byte) (k : Nat) (d : Duration) : (wroteBytes frame k d s).turn = s.turn := rfl
@[simp] theorem wroteBytes_schedule (s : State) (frame : List Byte) (k : Nat) (d : Duration) : (wroteBytes frame k d s).schedule = s.schedule := rfl
@[simp] theorem wroteBytes_draws (s : State) (frame : List Byte) (k : Nat) (d : Duration) : (wroteBytes frame k d s).draws = s.draws := rfl

end Sys2Proof.Machine
end

