-- ==== Sys2Proof/Laws/Table.lean ====
section
/-! SUPPORT. Tables: reading after writing, and the canonical form, for the outstanding operations and for `rx`. -/

namespace Sys2Proof.Machine

section
variable {α : Type}

@[simp] theorem tableGet_nil (a : Nat) : tableGet ([] : List (Nat × α)) a = none := rfl

theorem tableGet_cons (k a : Nat) (v : α) (t : List (Nat × α)) :
    tableGet ((k, v) :: t) a = if a = k then some v else tableGet t a := rfl

@[simp] theorem tableGet_tablePut_self (t : List (Nat × α)) (a : Nat) (v : α) :
    tableGet (tablePut t a v) a = some v := by
  induction t with
  | nil => simp [tablePut, tableGet]
  | cons e t ih =>
    obtain ⟨k, w⟩ := e
    simp only [tablePut]
    split_ifs with h1 h2
    · simp [tableGet]
    · simp [tableGet]
    · simp [tableGet, h2, ih]

theorem tableGet_tablePut_ne (t : List (Nat × α)) {a b : Nat} (v : α) (h : b ≠ a) :
    tableGet (tablePut t a v) b = tableGet t b := by
  induction t with
  | nil => simp [tablePut, tableGet, h]
  | cons e t ih =>
    obtain ⟨k, w⟩ := e
    simp only [tablePut]
    split_ifs with h1 h2
    · simp [tableGet, h]
    · subst h2; simp [tableGet, h]
    · simp [tableGet, ih]

@[simp] theorem tableGet_tableDrop_self (t : List (Nat × α)) (a : Nat) :
    tableGet (tableDrop t a) a = none := by
  induction t with
  | nil => rfl
  | cons e t ih =>
    obtain ⟨k, w⟩ := e
    by_cases h : k = a
    · subst h; simpa [tableDrop] using ih
    · have : ¬ a = k := fun h' => h h'.symm
      simpa [tableDrop, h, tableGet, this] using ih

theorem tableGet_tableDrop_ne (t : List (Nat × α)) {a b : Nat} (h : b ≠ a) :
    tableGet (tableDrop t a) b = tableGet t b := by
  induction t with
  | nil => rfl
  | cons e t ih =>
    obtain ⟨k, w⟩ := e
    by_cases hk : k = a
    · subst hk
      simpa [tableDrop, tableGet, h] using ih
    · by_cases hb : b = k
      · subst hb; simp [tableDrop, hk, tableGet]
      · simpa [tableDrop, hk, tableGet, hb] using ih

theorem mem_of_tableGet {t : List (Nat × α)} {a : Nat} {v : α} (h : tableGet t a = some v) :
    (a, v) ∈ t := by
  induction t with
  | nil => cases h
  | cons e t ih =>
    obtain ⟨k, w⟩ := e
    simp only [tableGet] at h
    split_ifs at h with hk
    · cases h; subst hk; simp
    · exact List.mem_cons_of_mem _ (ih h)

theorem tableGet_of_mem {t : List (Nat × α)} (hw : tableWf t) {a : Nat} {v : α}
    (h : (a, v) ∈ t) : tableGet t a = some v := by
  induction t with
  | nil => cases h
  | cons e t ih =>
    obtain ⟨k, w⟩ := e
    simp only [tableWf, List.map_cons, List.pairwise_cons] at hw
    rcases List.mem_cons.1 h with h' | h'
    · cases h'; simp [tableGet]
    · have : k < a := hw.1 a (List.mem_map.2 ⟨(a, v), h', rfl⟩)
      have hne : ¬ a = k := by omega
      simp [tableGet, hne, ih hw.2 h']

theorem mem_tablePut {t : List (Nat × α)} {a : Nat} {v : α} {e : Nat × α}
    (h : e ∈ tablePut t a v) : e = (a, v) ∨ e ∈ t := by
  induction t with
  | nil => left; simpa [tablePut] using h
  | cons d t ih =>
    obtain ⟨k, w⟩ := d
    simp only [tablePut] at h
    split_ifs at h with h1 h2
    · simpa [or_assoc] using h
    · rcases List.mem_cons.1 h with h' | h'
      · exact .inl h'
      · exact .inr (List.mem_cons_of_mem _ h')
    · rcases List.mem_cons.1 h with h' | h'
      · exact .inr (h' ▸ List.mem_cons_self)
      · exact (ih h').imp id (List.mem_cons_of_mem _)

theorem tableWf_nil : tableWf ([] : List (Nat × α)) := by simp [tableWf]

/-- Setting an entry keeps the canonical form. -/
theorem tableWf_tablePut {t : List (Nat × α)} (hw : tableWf t) (a : Nat) (v : α) :
    tableWf (tablePut t a v) := by
  induction t with
  | nil => simp [tablePut, tableWf]
  | cons e t ih =>
    obtain ⟨k, w⟩ := e
    have hw' := hw
    simp only [tableWf, List.map_cons, List.pairwise_cons] at hw'
    simp only [tablePut]
    split_ifs with h1 h2
    · simp only [tableWf, List.map_cons, List.pairwise_cons]
      refine ⟨?_, hw'⟩
      intro b hb
      rcases List.mem_cons.1 hb with hb | hb
      · omega
      · have := hw'.1 b hb; omega
    · subst h2; exact hw
    · simp only [tableWf, List.map_cons, List.pairwise_cons]
      refine ⟨?_, ih hw'.2⟩
      intro b hb
      obtain ⟨e, he, rfl⟩ := List.mem_map.1 hb
      rcases mem_tablePut he with rfl | he
      · simp; omega
      · exact hw'.1 _ (List.mem_map.2 ⟨e, he, rfl⟩)

/-- Dropping an entry keeps the canonical form. -/
theorem tableWf_tableDrop {t : List (Nat × α)} (hw : tableWf t) (a : Nat) :
    tableWf (tableDrop t a) :=
  List.Pairwise.sublist ((List.filter_sublist (l := t)).map Prod.fst) hw

/-- Two tables in canonical form that read alike are equal. -/
theorem table_ext {t u : List (Nat × α)} (ht : tableWf t) (hu : tableWf u)
    (h : ∀ a, tableGet t a = tableGet u a) : t = u := by
  induction t generalizing u with
  | nil =>
    cases u with
    | nil => rfl
    | cons e u => have := h e.1; obtain ⟨k, w⟩ := e; simp [tableGet] at this
  | cons e t ih =>
    obtain ⟨k, w⟩ := e
    cases u with
    | nil => have := h k; simp [tableGet] at this
    | cons d u =>
      obtain ⟨l, x⟩ := d
      have ht' := ht
      have hu' := hu
      simp only [tableWf, List.map_cons, List.pairwise_cons] at ht' hu'
      have low : ∀ {k : Nat} {t : List (Nat × α)}, (∀ b ∈ t.map Prod.fst, k < b) →
          ∀ a, a ≤ k → tableGet t a = none := by
        intro k t hlt a hak
        cases hg : tableGet t a with
        | none => rfl
        | some y =>
          have := hlt a (List.mem_map.2 ⟨(a, y), mem_of_tableGet hg, rfl⟩)
          omega
      have hkl : k = l := by
        rcases Nat.lt_trichotomy k l with hlt | heq | hgt
        · have := h k
          have hne : ¬ k = l := by omega
          simp [tableGet, hne, low hu'.1 k (by omega)] at this
        · exact heq
        · have := h l
          have hne : ¬ l = k := by omega
          simp [tableGet, hne, low ht'.1 l (by omega)] at this
      subst hkl
      have hwx : w = x := by simpa [tableGet] using h k
      subst hwx
      congr 1
      refine ih ht'.2 hu'.2 fun a => ?_
      by_cases ha : a = k
      · subst ha; rw [low ht'.1 a le_rfl, low hu'.1 a le_rfl]
      · simpa [tableGet, ha] using h a

end

/-! ### Outstanding operations -/

@[simp] theorem State.opOf_setOp_self (s : State) (c : Caller) (p : Phase) :
    (s.setOp c p).opOf c = some p := tableGet_tablePut_self _ _ _

theorem State.opOf_setOp_ne (s : State) {c d : Caller} (p : Phase) (h : d ≠ c) :
    (s.setOp c p).opOf d = s.opOf d := tableGet_tablePut_ne _ _ h

theorem State.opOf_setOp (s : State) (c d : Caller) (p : Phase) :
    (s.setOp c p).opOf d = if d = c then some p else s.opOf d := by
  by_cases h : d = c
  · subst h; simp
  · simp [h, State.opOf_setOp_ne]

@[simp] theorem State.opOf_finish_self (s : State) (c : Caller) (r : Result) :
    (s.finish c r).opOf c = none := tableGet_tableDrop_self _ _

theorem State.opOf_finish_ne (s : State) {c d : Caller} (r : Result) (h : d ≠ c) :
    (s.finish c r).opOf d = s.opOf d := tableGet_tableDrop_ne _ h

theorem State.opOf_finish (s : State) (c d : Caller) (r : Result) :
    (s.finish c r).opOf d = if d = c then none else s.opOf d := by
  by_cases h : d = c
  · subst h; simp
  · simp [h, State.opOf_finish_ne]

theorem opOf_endBatch (s : State) (c d : Caller) (r : Result) :
    (endBatch c r s).opOf d = if d = c then none else s.opOf d :=
  State.opOf_finish _ _ _ _

@[simp] theorem State.opOf_answer (s : State) (c d : Caller) (r : Result) :
    (s.answer c r).opOf d = s.opOf d := rfl

@[simp] theorem State.opOf_raise (s : State) (c d : Caller) (e : Err) :
    (s.raise c e).opOf d = s.opOf d := rfl

/-- Where there is no entry, dropping it changes nothing. -/
theorem tableDrop_of_none {α : Type} {t : List (Nat × α)} {a : Nat} (h : tableGet t a = none) :
    tableDrop t a = t := by
  induction t with
  | nil => rfl
  | cons e t ih =>
    obtain ⟨k, v⟩ := e
    simp only [tableGet] at h
    split_ifs at h with hk
    have : (k != a) = true := bne_iff_ne.2 fun h => hk h.symm
    rw [tableDrop, List.filter_cons, if_pos this]
    exact congrArg _ (ih h)

/-- An operation that ends in its first step only answers. -/
theorem State.finish_of_none {s : State} {c : Caller} (h : s.opOf c = none) (r : Result) :
    s.finish c r = s.answer c r := by
  simp only [State.finish, State.answer, tableDrop_of_none h]

/-- Setting an operation to the phase it is in changes nothing. -/
theorem State.setOp_of_eq {s : State} (hw : tableWf s.ops) {c : Caller} {p : Phase}
    (h : s.opOf c = some p) : s.setOp c p = s := by
  have : tablePut s.ops c p = s.ops := by
    apply table_ext (tableWf_tablePut hw _ _) hw
    intro a
    by_cases ha : a = c
    · subst ha; simpa [State.opOf] using h.symm
    · rw [tableGet_tablePut_ne _ _ ha]
  simp only [State.setOp, this]

/-! ### The receivers' table -/

@[simp] theorem rxGet_nil (a : Nat) : rxGet [] a = rxUnlisted := rfl

@[simp] theorem rxGet_rxPut_self (rx : List (Nat × RxPanel)) (a : Nat) (v : RxPanel) :
    rxGet (rxPut rx a v) a = v := by
  unfold rxPut rxGet
  split_ifs with h
  · simp [h]
  · simp

theorem rxGet_rxPut_ne (rx : List (Nat × RxPanel)) {a b : Nat} (v : RxPanel) (h : b ≠ a) :
    rxGet (rxPut rx a v) b = rxGet rx b := by
  unfold rxPut rxGet
  split_ifs
  · rw [tableGet_tableDrop_ne _ h]
  · rw [tableGet_tablePut_ne _ _ h]

@[simp] theorem RxPanel.update_live (f : RxState → RxState) (r : RxState) :
    (RxPanel.live r).update f = .live (f r) := rfl

@[simp] theorem RxPanel.update_lost (f : RxState → RxState) : RxPanel.lost.update f = .lost := rfl

@[simp] theorem RxPanel.seen_live (r : RxState) : (RxPanel.live r).seen = r := rfl

@[simp] theorem RxPanel.seen_lost : RxPanel.lost.seen = rxUnknown := rfl

theorem rxWf_nil : rxWf [] := by simp [rxWf, tableWf]

/-- Writing a panel's state keeps the canonical form. -/
theorem rxWf_rxPut {rx : List (Nat × RxPanel)} (h : rxWf rx) {a : Nat} (ha : a < 256)
    (v : RxPanel) : rxWf (rxPut rx a v) := by
  obtain ⟨h1, h2, h3⟩ := h
  unfold rxPut
  split_ifs with hv
  · refine ⟨tableWf_tableDrop h1 a, ?_, ?_⟩
    · intro e he; exact h2 e (List.mem_of_mem_filter he)
    · intro e he; exact h3 e (List.mem_of_mem_filter he)
  · refine ⟨tableWf_tablePut h1 a v, ?_, ?_⟩
    · intro e he
      rcases mem_tablePut he with rfl | he
      · exact hv
      · exact h2 e he
    · intro e he
      rcases mem_tablePut he with rfl | he
      · exact ha
      · exact h3 e he

end Sys2Proof.Machine
end

