-- ==== Sys2Proof/Laws/Grid.lean ====
section
/-! SUPPORT. Grids, bytes and the two packings, bit by bit. -/

namespace Sys2Proof.Machine

/-! ### Grids -/

@[simp] theorem gridOf_h (h w : Nat) (f : Nat → Nat → Bool) : (gridOf h w f).h = h := rfl
@[simp] theorem gridOf_w (h w : Nat) (f : Nat → Nat → Bool) : (gridOf h w f).w = w := rfl

@[simp] theorem gridOf_wf (h w : Nat) (f : Nat → Nat → Bool) : (gridOf h w f).wf = true := by
  simp [Grid.wf, gridOf]

/-- A bit inside a grid that was built is the bit it was built from. -/
theorem gridBit_gridOf {h w r c : Nat} (hr : r < h) (hc : c < w) (f : Nat → Nat → Bool) :
    gridBit (gridOf h w f) r c = f r c := by
  simp [gridBit, gridOf, hr, hc]

/-- A bit outside is clear. -/
theorem gridBit_gridOf_out {h w r c : Nat} (hrc : ¬ (r < h ∧ c < w)) (f : Nat → Nat → Bool) :
    gridBit (gridOf h w f) r c = false := by
  by_cases hr : r < h
  · have hc : ¬ c < w := fun hc => hrc ⟨hr, hc⟩
    simp [gridBit, gridOf, hr, hc]
  · simp [gridBit, gridOf, hr]

theorem gridOf_congr {h w : Nat} {f g : Nat → Nat → Bool}
    (hfg : ∀ r c, r < h → c < w → f r c = g r c) : gridOf h w f = gridOf h w g := by
  simp only [gridOf, Grid.mk.injEq, true_and]
  apply List.map_congr_left
  intro r hr
  apply List.map_congr_left
  intro c hc
  exact hfg r c (List.mem_range.1 hr) (List.mem_range.1 hc)

/-- A well-formed grid is the grid of its bits. -/
theorem gridOf_gridBit {g : Grid} (hg : g.wf = true) : gridOf g.h g.w (gridBit g) = g := by
  obtain ⟨h, w, cells⟩ := g
  simp only [Grid.wf, Bool.and_eq_true, beq_iff_eq, List.all_eq_true] at hg
  obtain ⟨hh, hw⟩ := hg
  simp only [gridOf, Grid.mk.injEq, true_and]
  subst hh
  apply List.ext_getElem
  · simp
  · intro r hr1 hr2
    have hlen := hw cells[r] (List.getElem_mem hr2)
    apply List.ext_getElem
    · simp [hlen]
    · intro c hc1 hc2
      simp [gridBit, hr2, hc2]

/-- Two well-formed grids of one size with the same bits are equal. -/
theorem grid_ext {g k : Grid} (hg : g.wf = true) (hk : k.wf = true) (hh : g.h = k.h)
    (hw : g.w = k.w) (hb : ∀ r c, r < g.h → c < g.w → gridBit g r c = gridBit k r c) : g = k := by
  rw [← gridOf_gridBit hg, ← gridOf_gridBit hk, ← hh, ← hw]
  exact gridOf_congr hb

/-- The output of an orientation: its size, and the bit it copies to each place (R146 to R153). -/
theorem orient_h (o : Orientation) (g : Grid) : (orient o g).h = (orientDims o g.w g.h).2 := by
  cases o <;> rfl

theorem orient_w (o : Orientation) (g : Grid) : (orient o g).w = (orientDims o g.w g.h).1 := by
  cases o <;> rfl

@[simp] theorem orient_wf (o : Orientation) (g : Grid) : (orient o g).wf = true := by
  cases o <;> exact gridOf_wf _ _ _

/-! ### Bytes -/

/-- Bit i of a byte that was built is the bit it was built from. -/
theorem getLsbD_byteOf (f : Nat → Bool) {i : Nat} (hi : i < 8) : (byteOf f).getLsbD i = f i := by
  have key : ∀ b0 b1 b2 b3 b4 b5 b6 b7 : Bool, ∀ i : Fin 8,
      (BitVec.ofNat 8 ((if b0 then 1 else 0) + ((if b1 then 2 else 0) + ((if b2 then 4 else 0)
        + ((if b3 then 8 else 0) + ((if b4 then 16 else 0) + ((if b5 then 32 else 0)
        + ((if b6 then 64 else 0) + ((if b7 then 128 else 0) + 0))))))))).getLsbD i =
      [b0, b1, b2, b3, b4, b5, b6, b7].getD i false := by decide
  have h := key (f 0) (f 1) (f 2) (f 3) (f 4) (f 5) (f 6) (f 7) ⟨i, hi⟩
  have hb : byteOf f = BitVec.ofNat 8 ((if f 0 then 1 else 0) + ((if f 1 then 2 else 0)
      + ((if f 2 then 4 else 0) + ((if f 3 then 8 else 0) + ((if f 4 then 16 else 0)
      + ((if f 5 then 32 else 0) + ((if f 6 then 64 else 0)
      + ((if f 7 then 128 else 0) + 0)))))))) := rfl
  rw [hb, h]
  interval_cases i <;> rfl

/-- Two bytes with the same bits are equal. -/
theorem byte_ext {a b : Byte} (h : ∀ i, i < 8 → a.getLsbD i = b.getLsbD i) : a = b :=
  BitVec.eq_of_getLsbD_eq h

/-! ### Packing -/

@[simp] theorem length_foldColumns (g : Grid) : (foldColumns g).length = g.w := by
  simp [foldColumns]

/-- Bit r of column byte c is bit (r, c) of the grid, and clear below the grid (R155). -/
theorem foldColumns_bit (g : Grid) {r c : Nat} (hc : c < g.w) (hr : r < 8) :
    ((foldColumns g).getD c 0).getLsbD r = (decide (r < g.h) && gridBit g r c) := by
  simp [foldColumns, hc, getLsbD_byteOf _ hr]

theorem stride_bounds (w : Nat) : w ≤ 8 * stride w ∧ 8 * stride w < w + 8 := by
  unfold stride ceilDiv; omega

theorem div_lt_stride {c w : Nat} (h : c < w) : c / 8 < stride w := by
  have := stride_bounds w; omega

@[simp] theorem length_packRows (g : Grid) : (packRows g).length = g.h * stride g.w := by
  simp [packRows, List.length_flatMap]

theorem getD_flatMap_range {α : Type} (n m : Nat) (f : Nat → Nat → α) (d : α) {r j : Nat}
    (hr : r < n) (hj : j < m) :
    (((List.range n).flatMap fun r => (List.range m).map fun j => f r j)).getD (r * m + j) d
      = f r j := by
  induction n generalizing r with
  | zero => omega
  | succ n ih =>
    rw [List.range_succ, List.flatMap_append, List.flatMap_singleton]
    have hlen : ((List.range n).flatMap fun r => (List.range m).map fun j => f r j).length = n * m := by
      simp [List.length_flatMap]
    by_cases hrn : r < n
    · have hlt : r * m + j < n * m := by
        calc r * m + j < r * m + m := by omega
          _ = (r + 1) * m := by ring
          _ ≤ n * m := Nat.mul_le_mul_right m hrn
      rw [List.getD_append _ _ _ _ (by rw [hlen]; exact hlt)]
      exact ih hrn
    · have hrn' : r = n := by omega
      subst hrn'
      rw [List.getD_append_right _ _ _ _ (by rw [hlen]; omega), hlen]
      simp [hj]

/-- The byte at row r, place j of the row-major payload (R144). -/
theorem packRows_byte (g : Grid) {r j : Nat} (hr : r < g.h) (hj : j < stride g.w) :
    (packRows g).getD (r * stride g.w + j) 0 =
      byteOf fun i => decide (8 * j + (7 - i) < g.w) && gridBit g r (8 * j + (7 - i)) :=
  getD_flatMap_range _ _ _ _ hr hj

/-- The pixel (c, r) of the row-major payload is bit (r, c) of the grid (R56, R145). -/
theorem pixel_packRows (g : Grid) {r c : Nat} (hr : r < g.h) (hc : c < g.w) :
    pixel (packRows g) g.w c r = gridBit g r c := by
  have h8 : 7 - c % 8 < 8 := by omega
  have hmod : c % 8 < 8 := Nat.mod_lt _ (by decide)
  have hback : 8 * (c / 8) + (7 - (7 - c % 8)) = c := by omega
  unfold pixel
  rw [packRows_byte g hr (div_lt_stride hc), getLsbD_byteOf _ h8, hback]
  simp [hc]

end Sys2Proof.Machine
end

