-- ==== Sys2Proof/Laws/Mapper.lean ====
section
/-! SUPPORT. What MAP answers, panel by panel and bit by bit. -/

namespace Sys2Proof.Machine

theorem payloadsOf_getElem? (frame : Frame) (k0 k : Nat) (ps : List PanelConfig) :
    (payloadsOf frame k0 ps)[k]? = ps[k]?.map (payloadOf frame (k0 + k)) := by
  induction ps generalizing k0 k with
  | nil => simp [payloadsOf]
  | cons p ps ih =>
    cases k with
    | zero => simp [payloadsOf]
    | succ k => simp [payloadsOf, ih]; congr 1; funext; congr 1; omega

theorem length_payloadsOf (frame : Frame) (k0 : Nat) (ps : List PanelConfig) :
    (payloadsOf frame k0 ps).length = ps.length := by
  induction ps generalizing k0 with
  | nil => rfl
  | cons p ps ih => simp [payloadsOf, ih]

theorem gridBit_panelGrid (frame : Frame) (p : PanelConfig) (hx : p.x + p.w ≤ frame.width) (hy : p.y + p.h ≤ frame.height)
    {r c : Nat} (hr : r < foldHeight p) (hc : c < dataWidth p) :
    gridBit (panelGrid frame p) r c = pixel frame.bits frame.width
      (p.x + (sourceCell p.orient p.h p.w r c).2) (p.y + (sourceCell p.orient p.h p.w r c).1) := by
  obtain ⟨id, addr, x, y, w, h, o⟩ := p
  simp only [foldHeight, dataWidth] at *
  have inner : ∀ a b, a < h → b < w → gridBit (sliceGrid (unpack frame.bits frame.width frame.height) x y w h) a b =
      pixel frame.bits frame.width (x + b) (y + a) := by
    intro a b ha hb
    rw [sliceGrid, gridBit_gridOf ha hb, unpack, gridBit_gridOf (by omega) (by omega)]
  have hh : (sliceGrid (unpack frame.bits frame.width frame.height) x y w h).h = h := rfl
  have hw : (sliceGrid (unpack frame.bits frame.width frame.height) x y w h).w = w := rfl
  cases o <;> simp only [orientDims] at hr hc <;>
    simp only [panelGrid, orient, orientNormal, orientRot90, orientRot180, orientRot270, orientFliph, orientFlipv, hh, hw, sourceCell] <;>
    rw [gridBit_gridOf hr hc, inner _ _ (by omega) (by omega)]

theorem panelGrid_w (frame : Frame) (p : PanelConfig) : (panelGrid frame p).w = dataWidth p := by
  rw [panelGrid, orient_w]; rfl
theorem panelGrid_h (frame : Frame) (p : PanelConfig) : (panelGrid frame p).h = foldHeight p := by
  rw [panelGrid, orient_h]; rfl

theorem firstOutOfBounds_none (w h k : Nat) (ps : List PanelConfig) :
    firstOutOfBounds w h k ps = none ↔ ∀ p ∈ ps, p.x + p.w ≤ w ∧ p.y + p.h ≤ h := by
  induction ps generalizing k with
  | nil => simp [firstOutOfBounds]
  | cons p ps ih =>
    simp only [firstOutOfBounds]
    by_cases hh : p.x + p.w ≤ w ∧ p.y + p.h ≤ h
    · have : inBounds w h p = true := by simpa [inBounds] using hh
      rw [if_pos this]; simp [hh, ih]
    · have : ¬ (inBounds w h p = true) := by simpa [inBounds] using hh
      rw [if_neg this]; simp [hh]

theorem mapFrame_ok {s : State} {frame : Frame} (hc : s.configured = true) (hf : FrameFits s.cfg frame) :
    mapFrame s frame = .ok (payloadsOf frame 0 s.cfg.panels) := by
  simp [mapFrame, hc, hf.1, (firstOutOfBounds_none _ _ 0 _).2 hf.2]

end Sys2Proof.Machine
end

