-- ==== Sys2Proof/Laws/Receiver.lean ====
section
/-! SUPPORT. Wire frames: cutting and recognising them. The receivers: what a frame does to each panel, and that it keeps
the canonical form. -/

namespace Sys2Proof.Machine

/-! ### Cutting frames -/

@[simp] theorem commandOfByte_byte (k : Command) : commandOfByte k.byte = some k := by
  cases k <;> decide

theorem byte_of_commandOfByte {b : Byte} {k : Command} (h : commandOfByte b = some k) :
    k.byte = b := by
  unfold commandOfByte at h
  split_ifs at h with h1 h2 h3 h4 h5 h6 <;> cases h <;> simp_all [Command.byte]

@[simp] theorem WireFrame.length_bytes (f : WireFrame) : f.bytes.length = f.data.length + 4 := by
  simp [WireFrame.bytes]

/-- A frame whose data has its command's length is cut off whole (R99, R101). -/
theorem cutFrame_bytes {f : WireFrame} (h : f.data.length = f.cmd.dataLen) (rest : List Byte) :
    cutFrame (f.bytes ++ rest) = .ok (f, rest) := by
  obtain ⟨k, a, d⟩ := f
  simp only at h
  have hl : ¬ (a :: (d ++ endByte :: rest)).length < k.dataLen + 2 := by simp; omega
  have he : (a :: (d ++ endByte :: rest)).getD (k.dataLen + 1) 0 = endByte := by
    simp [← h]
  have hd : List.drop (k.dataLen + 2) (a :: (d ++ endByte :: rest)) = rest := by
    simp [← h]
  simp only [WireFrame.bytes, List.cons_append, List.nil_append, List.append_assoc, cutFrame,
    ne_eq, not_true_eq_false, if_false, commandOfByte_byte, hl, he, hd]
  simp [← h]

/-- What is cut off is the frame's bytes, and the rest follows them (R101). -/
theorem cutFrame_ok {s rest : List Byte} {f : WireFrame} (h : cutFrame s = .ok (f, rest)) :
    s = f.bytes ++ rest ∧ f.data.length = f.cmd.dataLen := by
  unfold cutFrame at h
  split at h
  · cases h
  · cases h
  · rename_i start cmd tail
    split_ifs at h with h1
    · split at h
      · cases h
      · rename_i k hk
        split_ifs at h with h2 h3
        · cases h
          have hb := byte_of_commandOfByte hk
          obtain ⟨a, tl, rfl⟩ : ∃ a tl, tail = a :: tl := by
            cases tail with
            | nil => simp at h2
            | cons a tl => exact ⟨a, tl, rfl⟩
          simp only [List.length_cons, not_lt] at h2
          have hlt : k.dataLen < tl.length := by omega
          simp only [ne_eq, not_not] at h1 h3
          have h3' : tl[k.dataLen]'hlt = endByte := by simpa [hlt] using h3
          have hsplit : tl = tl.take k.dataLen ++ endByte :: tl.drop (k.dataLen + 1) := by
            conv_lhs => rw [← List.take_append_drop k.dataLen tl]
            rw [List.drop_eq_getElem_cons hlt, h3']
          refine ⟨?_, by simp; omega⟩
          simp only [WireFrame.bytes, h1, ← hb, List.headD_cons, List.drop_succ_cons,
            List.drop_zero, List.cons_append, List.nil_append, List.append_assoc]
          rw [← hsplit]

theorem cutFrame_nil : cutFrame [] = .error .noStartByte := rfl

/-! ### Recognising -/

@[simp] theorem recogniseFrom_nil (fuel i : Nat) : recogniseFrom fuel i [] = ([], .wellFormed) := by
  cases fuel <;> rfl

theorem WireFrame.bytes_ne_nil (f : WireFrame) : f.bytes ≠ [] := by simp [WireFrame.bytes]

/-- One more frame at the head. -/
theorem recogniseFrom_bytes {f : WireFrame} (h : f.data.length = f.cmd.dataLen) (fuel i : Nat)
    (rest : List Byte) :
    recogniseFrom (fuel + 1) i (f.bytes ++ rest) =
      (f :: (recogniseFrom fuel (i + f.bytes.length) rest).1,
        (recogniseFrom fuel (i + f.bytes.length) rest).2) := by
  have hc := cutFrame_bytes h rest
  cases hs : f.bytes ++ rest with
  | nil => simp [WireFrame.bytes] at hs
  | cons b bs =>
    rw [hs] at hc
    simp only [recogniseFrom, hc]

/-- The concatenation of well-formed frames is recognised as those frames, with any fuel that is enough. -/
theorem recogniseFrom_flatMap (fs : List WireFrame)
    (h : ∀ f ∈ fs, f.data.length = f.cmd.dataLen) (fuel i : Nat)
    (hf : (fs.flatMap WireFrame.bytes).length ≤ fuel) :
    recogniseFrom fuel i (fs.flatMap WireFrame.bytes) = (fs, .wellFormed) := by
  induction fs generalizing fuel i with
  | nil => simp
  | cons f fs ih =>
    simp only [List.flatMap_cons, List.length_append, WireFrame.length_bytes] at hf ⊢
    obtain ⟨n, rfl⟩ : ∃ n, fuel = n + 1 := ⟨fuel - 1, by omega⟩
    rw [recogniseFrom_bytes (h f List.mem_cons_self),
      ih (fun g hg => h g (List.mem_cons_of_mem _ hg)) n _ (by omega)]

/-- Recognition that ends well has read the whole string, frame by frame. -/
theorem recogniseFrom_wellFormed {fuel i : Nat} {s : List Byte} {fs : List WireFrame}
    (h : recogniseFrom fuel i s = (fs, .wellFormed)) :
    s = fs.flatMap WireFrame.bytes ∧ ∀ f ∈ fs, f.data.length = f.cmd.dataLen := by
  induction fuel generalizing i s fs with
  | zero =>
    simp only [recogniseFrom, Prod.mk.injEq] at h
    obtain ⟨rfl, h2⟩ := h
    split_ifs at h2 with hs
    simp [hs]
  | succ n ih =>
    simp only [recogniseFrom] at h
    split at h
    · cases h; simp
    · split at h
      · cases h
      · cases h
      · rename_i f rest hc
        simp only [Prod.mk.injEq] at h
        obtain ⟨rfl, h2⟩ := h
        obtain ⟨h3, h4⟩ := cutFrame_ok hc
        obtain ⟨h5, h6⟩ := ih (Prod.ext rfl h2)
        refine ⟨by rw [h3, List.flatMap_cons, ← h5], ?_⟩
        intro g hg
        rcases List.mem_cons.1 hg with rfl | hg
        · exact h4
        · exact h6 g hg

/-- A string is recognised as well formed exactly when it is a concatenation of well-formed frames. -/
theorem recognise_eq_iff (s : List Byte) (fs : List WireFrame) :
    recognise s = (fs, .wellFormed) ↔
      s = fs.flatMap WireFrame.bytes ∧ ∀ f ∈ fs, f.data.length = f.cmd.dataLen := by
  constructor
  · exact recogniseFrom_wellFormed
  · rintro ⟨rfl, h⟩
    exact recogniseFrom_flatMap fs h _ _ le_rfl

/-- A frame that follows a well-formed string is the one more frame recognised. -/
theorem recognise_append {s : List Byte} {fs : List WireFrame} {f : WireFrame}
    (h : recognise s = (fs, .wellFormed)) (hf : f.data.length = f.cmd.dataLen) :
    recognise (s ++ f.bytes) = (fs ++ [f], .wellFormed) := by
  rw [recognise_eq_iff] at h ⊢
  obtain ⟨rfl, h⟩ := h
  refine ⟨by simp, fun g hg => ?_⟩
  rcases List.mem_append.1 hg with hg | hg
  · exact h g hg
  · simp only [List.mem_singleton] at hg; subst hg; exact hf

/-! ### What a frame does to the panels -/

theorem rxOf_append (panels : List PanelConfig) (fs : List WireFrame) (f : WireFrame) :
    rxOf panels (fs ++ [f]) = rxFrame panels (rxOf panels fs) f := by
  simp [rxOf]

@[simp] theorem rxOf_nil (panels : List PanelConfig) : rxOf panels [] = [] := rfl

@[simp] theorem update_rxFlushOne_unlisted : rxUnlisted.update rxFlushOne = rxUnlisted := rfl

theorem tableGet_map {α : Type} (g : Nat × α → α) (t : List (Nat × α)) (a : Nat) :
    tableGet (t.map fun e => (e.1, g e)) a = (tableGet t a).map fun v => g (a, v) := by
  induction t with
  | nil => rfl
  | cons e t ih =>
    obtain ⟨k, w⟩ := e
    simp only [List.map_cons, tableGet, ih]
    by_cases h : a = k
    · subst h; simp
    · simp [h]

theorem tableGet_filter {α : Type} (q : Nat × α → Bool) {t : List (Nat × α)} (hw : tableWf t)
    (a : Nat) :
    tableGet (t.filter q) a = (tableGet t a).filter fun v => q (a, v) := by
  induction t with
  | nil => rfl
  | cons e t ih =>
    obtain ⟨k, w⟩ := e
    have hw' := hw
    simp only [tableWf, List.map_cons, List.pairwise_cons] at hw'
    have none_of_lt : ∀ u : List (Nat × α), (∀ b ∈ u.map Prod.fst, k < b) → tableGet u k = none := by
      intro u hu
      cases hg : tableGet u k with
      | none => rfl
      | some y =>
        have := hu k (List.mem_map.2 ⟨(k, y), mem_of_tableGet hg, rfl⟩)
        omega
    by_cases hq : q (k, w) = true
    · simp only [List.filter_cons, hq, if_true, tableGet]
      by_cases ha : a = k
      · subst ha; simp [Option.filter, hq]
      · simp [ha, ih hw'.2]
    · simp only [List.filter_cons, hq, tableGet]
      by_cases ha : a = k
      · subst ha
        simp only [Bool.false_eq_true, if_false, if_true, Option.filter]
        rw [none_of_lt]
        · simp [hq]
        · intro b hb
          obtain ⟨e, he, rfl⟩ := List.mem_map.1 hb
          exact hw'.1 _ (List.mem_map.2 ⟨e, List.mem_of_mem_filter he, rfl⟩)
      · simp [ha, ih hw'.2]

theorem rxFlush_eq (panels : List PanelConfig) (rx : List (Nat × RxPanel)) :
    rxFlush panels rx =
      (rx.map fun e => (e.1, if (panelAt panels e.1).isSome then e.2.update rxFlushOne else e.2)).filter
        fun e => e.2 != rxUnlisted := by
  unfold rxFlush
  congr 1
  apply List.map_congr_left
  intro e _
  split_ifs <;> rfl

/-- A flush does to every panel what R178 says, at once. -/
theorem rxGet_rxFlush (panels : List PanelConfig) {rx : List (Nat × RxPanel)} (h : tableWf rx)
    (a : Nat) :
    rxGet (rxFlush panels rx) a =
      if (panelAt panels a).isSome then (rxGet rx a).update rxFlushOne else rxGet rx a := by
  have hm : tableWf (rx.map fun e =>
      (e.1, if (panelAt panels e.1).isSome then e.2.update rxFlushOne else e.2)) := by
    simpa [tableWf, List.map_map, Function.comp_def] using h
  rw [rxFlush_eq]
  unfold rxGet
  rw [tableGet_filter _ hm,
    tableGet_map (fun e : Nat × RxPanel => if (panelAt panels e.1).isSome then e.2.update rxFlushOne else e.2)]
  cases tableGet rx a with
  | none => by_cases hp : (panelAt panels a).isSome <;> simp [hp]
  | some v =>
    by_cases hp : (panelAt panels a).isSome
    · by_cases hv : v.update rxFlushOne = rxUnlisted <;> simp [hp, hv, Option.filter]
    · by_cases hv : v = rxUnlisted <;> simp [hp, hv, Option.filter]

theorem rxWf_rxFlush (panels : List PanelConfig) {rx : List (Nat × RxPanel)} (h : rxWf rx) :
    rxWf (rxFlush panels rx) := by
  rw [rxFlush_eq]
  obtain ⟨h1, _, h3⟩ := h
  refine ⟨?_, ?_, ?_⟩
  · refine List.Pairwise.sublist (List.filter_sublist.map Prod.fst) ?_
    simpa [List.map_map, Function.comp_def] using h1
  · intro e he
    simpa using (List.mem_filter.1 he).2
  · intro e he
    obtain ⟨d, hd, rfl⟩ := List.mem_map.1 (List.mem_of_mem_filter he)
    exact h3 d hd

theorem rxWf_rxData (panels : List PanelConfig) (mode : Mode) (addr : Byte) (data : List Byte)
    {rx : List (Nat × RxPanel)} (h : rxWf rx) : rxWf (rxData panels mode addr data rx) := by
  unfold rxData
  split
  · exact h
  · split_ifs
    · exact rxWf_rxPut h addr.isLt _
    · exact rxWf_rxPut h addr.isLt _

/-- Every frame keeps the receivers' table in canonical form. -/
theorem rxWf_rxFrame (panels : List PanelConfig) {rx : List (Nat × RxPanel)} (h : rxWf rx)
    (f : WireFrame) : rxWf (rxFrame panels rx f) := by
  unfold rxFrame
  split <;> first | exact rxWf_rxData _ _ _ _ h | exact rxWf_rxFlush _ h

theorem rxWf_rxOf (panels : List PanelConfig) (fs : List WireFrame) : rxWf (rxOf panels fs) := by
  induction fs using List.reverseRecOn with
  | nil => exact rxWf_nil
  | append_singleton fs f ih => rw [rxOf_append]; exact rxWf_rxFrame _ ih f

/-- Data of the panel's own width has R177's or R179's effect on the panel it is addressed to, unless that panel is
lost; data of another width loses it. -/
theorem rxGet_rxData_self {panels : List PanelConfig} {addr : Byte} {p : PanelConfig}
    (hp : panelAt panels addr.toNat = some p) (mode : Mode) (data : List Byte)
    (rx : List (Nat × RxPanel)) :
    rxGet (rxData panels mode addr data rx) addr.toNat =
      if data.length = dataWidth p then (rxGet rx addr.toNat).update (rxTake mode data) else .lost := by
  unfold rxData
  rw [hp]
  split_ifs <;> simp_all

/-- A data frame leaves every other panel alone. -/
theorem rxGet_rxData_ne (panels : List PanelConfig) (mode : Mode) {addr : Byte} {a : Nat}
    (h : a ≠ addr.toNat) (data : List Byte) (rx : List (Nat × RxPanel)) :
    rxGet (rxData panels mode addr data rx) a = rxGet rx a := by
  unfold rxData
  split
  · rfl
  · split_ifs <;> exact rxGet_rxPut_ne _ _ h

end Sys2Proof.Machine
end

