-- ==== Sys2Proof/Laws/Step.lean ====
section
/-! SUPPORT. What a step can do, said once, and what each shared operation of the transmitter can do. -/

namespace Sys2Proof.Machine

/-! ### Events and fetching -/

/-- Taking an event changes only the choices still to come. -/
theorem takeEvent_state (s : State) :
    s.takeEvent.2 = { s with schedule := s.takeEvent.2.schedule, draws := s.takeEvent.2.draws } := by
  unfold State.takeEvent; split <;> rfl

theorem takeEvent_cons {s : State} {e : Event} {es : List Event} (h : s.schedule = e :: es) :
    s.takeEvent = (e, { s with schedule := es }) := by
  unfold State.takeEvent; rw [h]

theorem fetchRequest_some {c : Caller} {s u : State} {x : Except Refusal Instr}
    (h : fetchRequest c s = some (x, u)) :
    ∃ code rest, takeRequest c s.requests = some (code, rest) ∧ x = decodeRequest code ∧
      u = { s with requests := rest, turn := c } := by
  unfold fetchRequest at h
  split at h
  · cases h
  · rename_i code rest hq
    cases h
    exact ⟨code, rest, hq, rfl, rfl⟩

/-- What the receivers take is the frame at their place, and their place moves past it. -/
theorem fetchFrame_some {s u : State} {i : Instr} (h : fetchFrame s = some (i, u)) :
    ∃ f rest, s.truncated = false ∧ cutFrame (s.wire.drop s.rxPos) = .ok (f, rest) ∧
      i = f.instr ∧ u = { s with rxPos := s.rxPos + f.bytes.length } := by
  unfold fetchFrame at h
  split_ifs at h with ht
  split at h
  · cases h
  · rename_i f rest hc
    cases h
    exact ⟨f, rest, by simpa using ht, hc, rfl, rfl⟩

/-! ### A step -/

/-- The ways a step can answer a next state. -/
inductive StepNext (s t : State) : Prop
  /-- The receivers lose the stream (R183). -/
  | lose (due : s.receiversDue = true) (none_ : fetchFrame s = none) (eq : t = s.loseStream)
  /-- The receivers take a frame (R176). -/
  | frame (due : s.receiversDue = true) (i : Instr) (u : State) (fetch : fetchFrame s = some (i, u))
      (run : exec i u = .next t)
  /-- A caller's outstanding operation has its turn. -/
  | resume (idle : s.receiversDue = false) (c : Caller) (p : Phase)
      (event : s.takeEvent.1 = .caller c) (agent : c ∈ s.params.callers) (op : s.opOf c = some p)
      (eq : t = resume c p s.takeEvent.2)
  /-- A caller's request is taken up. -/
  | request (idle : s.receiversDue = false) (c : Caller) (i : Instr) (u : State)
      (event : s.takeEvent.1 = .caller c) (agent : c ∈ s.params.callers) (op : s.opOf c = none)
      (fetch : fetchRequest c s.takeEvent.2 = some (.ok i, u)) (run : exec i u = .next t)
  /-- The transmitter starts a frame write. -/
  | write (idle : s.receiversDue = false) (b : Batch) (kind : TxKind) (ms : Nat)
      (event : s.takeEvent.1 = .transmitter) (batch : s.batch = some b)
      (op : s.opOf b.owner = some (.ready kind ms)) (current : b.current.isSome = true)
      (eq : t = writeStart b.owner kind b s.takeEvent.2)
  /-- The device answers an open. -/
  | opened (idle : s.receiversDue = false) (c : Caller) (serial : SerialParams) (a : DeviceAnswer)
      (event : s.takeEvent.1 = .device a) (lock : s.connLock = some c)
      (op : s.opOf c = some (.opening serial)) (eq : t = openAnswer c a s.takeEvent.2)
  /-- The device answers a close. -/
  | closed (idle : s.receiversDue = false) (c : Caller) (a : DeviceAnswer)
      (event : s.takeEvent.1 = .device a) (lock : s.connLock = some c)
      (op : s.opOf c = some .closing) (eq : t = closeAnswer c a s.takeEvent.2)
  /-- The device answers a frame write. -/
  | wrote (idle : s.receiversDue = false) (c : Caller) (kind : TxKind) (b : Batch)
      (f : List Byte) (a : DeviceAnswer)
      (event : s.takeEvent.1 = .device a) (lock : s.connLock = some c)
      (op : s.opOf c = some (.writing kind)) (batch : s.batch = some b)
      (current : b.current = some f) (eq : t = writeAnswer c kind b f a s.takeEvent.2)
  /-- The agent has nothing to do: an event passes. -/
  | nothing (idle : s.receiversDue = false) (eq : t = s.takeEvent.2)

@[simp] theorem takeEvent_opOf (s : State) (c : Caller) : s.takeEvent.2.opOf c = s.opOf c := by
  rw [takeEvent_state]; rfl

@[simp] theorem takeEvent_params (s : State) : s.takeEvent.2.params = s.params := by
  rw [takeEvent_state]

@[simp] theorem takeEvent_batch (s : State) : s.takeEvent.2.batch = s.batch := by
  rw [takeEvent_state]

@[simp] theorem takeEvent_connLock (s : State) : s.takeEvent.2.connLock = s.connLock := by
  rw [takeEvent_state]

/-- Every step that answers a next state does one of these. -/
theorem step_next {s t : State} (h : step s = .next t) : StepNext s t := by
  unfold step at h
  split_ifs at h with hd
  · unfold receiverStep at h
    split at h
    · rename_i hf; cases h; exact .lose hd hf rfl
    · rename_i i u hf; exact .frame hd i u hf h
  · simp only [Bool.not_eq_true] at hd
    unfold eventStep at h
    split at h
    · rename_i c he
      unfold callerStep at h
      split_ifs at h with hc
      · have agent : c ∈ s.params.callers := by simpa using hc
        split at h
        · rename_i p hp
          cases h
          exact .resume hd c p he agent (by simpa using hp) rfl
        · rename_i hp
          split at h
          · cases h; exact .nothing hd rfl
          · cases h
          · rename_i i u hf
            exact .request hd c i u he agent (by simpa using hp) hf h
      · cases h; exact .nothing hd rfl
    · rename_i he
      unfold transmitterStep at h
      split at h
      · cases h; exact .nothing hd rfl
      · rename_i b hb
        split at h
        · rename_i kind ms f hop hcur
          cases h
          exact .write hd b kind ms he (by simpa using hb) (by simpa using hop) (by simp [hcur]) rfl
        · cases h; exact .nothing hd rfl
        · cases h
    · rename_i a he
      unfold deviceStep at h
      split at h
      · cases h; exact .nothing hd rfl
      · rename_i c hl
        split at h
        · rename_i serial hop
          cases h
          exact .opened hd c serial a he (by simpa using hl) (by simpa using hop) rfl
        · rename_i hop
          cases h
          exact .closed hd c a he (by simpa using hl) (by simpa using hop) rfl
        · rename_i kind hop
          split at h
          · cases h
          · rename_i b hb
            split at h
            · cases h
            · rename_i f hf
              cases h
              exact .wrote hd c kind b f a he (by simpa using hl) (by simpa using hop)
                (by simpa using hb) hf rfl
        · cases h

/-! ### Whose step does what -/

variable {s u : State}

theorem takeEvent_snd {e : Event} (he : s.takeEvent = (e, u)) : u = s.takeEvent.2 := by rw [he]

/-- The turn of a caller with an outstanding operation. -/
theorem step_resume {c : Caller} {p : Phase} (idle : s.receiversDue = false)
    (he : s.takeEvent = (.caller c, u)) (agent : c ∈ s.params.callers) (op : s.opOf c = some p) :
    step s = .next (resume c p u) := by
  have h1 : u.opOf c = some p := by rw [takeEvent_snd he]; simpa using op
  have h2 : c ∈ u.params.callers := by rw [takeEvent_snd he]; simpa using agent
  simp [step, idle, he, eventStep, callerStep, h1, h2]

/-- The turn of a caller with no outstanding operation and a request. -/
theorem step_request {c : Caller} {code : Code} {rest : List Request} (idle : s.receiversDue = false)
    (he : s.takeEvent = (.caller c, u)) (agent : c ∈ s.params.callers) (op : s.opOf c = none)
    (request : takeRequest c s.requests = some (code, rest)) :
    step s = match decodeRequest code with
      | .error r => .refused r
      | .ok i => exec i { u with requests := rest, turn := c } := by
  have h1 : u.opOf c = none := by rw [takeEvent_snd he]; simpa using op
  have h2 : c ∈ u.params.callers := by rw [takeEvent_snd he]; simpa using agent
  have h3 : u.requests = s.requests := by rw [takeEvent_snd he, takeEvent_state]
  simp only [step, idle, he, eventStep, callerStep, h1, h2, h3, fetchRequest, request, if_true,
    Bool.false_eq_true, if_false]
  cases decodeRequest code <;> rfl

/-- The turn of a name outside the set of callers. -/
theorem step_stranger {c : Caller} (idle : s.receiversDue = false)
    (he : s.takeEvent = (.caller c, u)) (stranger : c ∉ s.params.callers) : step s = .next u := by
  have : c ∉ u.params.callers := by rw [takeEvent_snd he]; simpa using stranger
  simp [step, idle, he, eventStep, callerStep, this]

/-- The transmitter's step, with a frame to write. -/
theorem step_write {b : Batch} {kind : TxKind} {ms : Nat} (idle : s.receiversDue = false)
    (he : s.takeEvent = (.transmitter, u)) (batch : s.batch = some b)
    (op : s.opOf b.owner = some (.ready kind ms)) (current : b.current.isSome = true) :
    step s = .next (writeStart b.owner kind b u) := by
  have h1 : u.opOf b.owner = some (.ready kind ms) := by rw [takeEvent_snd he]; simpa using op
  have h2 : u.batch = some b := by rw [takeEvent_snd he]; simpa using batch
  obtain ⟨f, hf⟩ := Option.isSome_iff_exists.1 current
  simp [step, idle, he, eventStep, transmitterStep, h1, h2, hf]

/-- The device's step, with an open to answer. -/
theorem step_opened {c : Caller} {serial : SerialParams} {a : DeviceAnswer}
    (idle : s.receiversDue = false) (he : s.takeEvent = (.device a, u))
    (lock : s.connLock = some c) (op : s.opOf c = some (.opening serial)) :
    step s = .next (openAnswer c a u) := by
  have h1 : u.opOf c = some (.opening serial) := by rw [takeEvent_snd he]; simpa using op
  have h2 : u.connLock = some c := by rw [takeEvent_snd he]; simpa using lock
  simp [step, idle, he, eventStep, deviceStep, h1, h2]

/-- The device's step, with a close to answer. -/
theorem step_closed {c : Caller} {a : DeviceAnswer}
    (idle : s.receiversDue = false) (he : s.takeEvent = (.device a, u))
    (lock : s.connLock = some c) (op : s.opOf c = some .closing) :
    step s = .next (closeAnswer c a u) := by
  have h1 : u.opOf c = some .closing := by rw [takeEvent_snd he]; simpa using op
  have h2 : u.connLock = some c := by rw [takeEvent_snd he]; simpa using lock
  simp [step, idle, he, eventStep, deviceStep, h1, h2]

/-- The device's step, with a frame write to answer. -/
theorem step_wrote {c : Caller} {kind : TxKind} {b : Batch} {f : List Byte} {a : DeviceAnswer}
    (idle : s.receiversDue = false) (he : s.takeEvent = (.device a, u))
    (lock : s.connLock = some c) (op : s.opOf c = some (.writing kind))
    (batch : s.batch = some b) (current : b.current = some f) :
    step s = .next (writeAnswer c kind b f a u) := by
  have h1 : u.opOf c = some (.writing kind) := by rw [takeEvent_snd he]; simpa using op
  have h2 : u.connLock = some c := by rw [takeEvent_snd he]; simpa using lock
  have h3 : u.batch = some b := by rw [takeEvent_snd he]; simpa using batch
  simp [step, idle, he, eventStep, deviceStep, h1, h2, h3, current]

/-! ### The shared operations of the transmitter -/

/-- WRITE starts by waiting, by failing NotConnected, or by taking the connection lock (R195, R196). -/
theorem writeStart_cases (c : Caller) (kind : TxKind) (b : Batch) (s : State) :
    (s.connLock.isSome = true ∧ writeStart c kind b s = s) ∨
    (s.connLock = none ∧ s.conn ≠ .connected ∧
      writeStart c kind b s = endBatch c (.err (.notConnected (batchPos kind b))) s) ∨
    (s.connLock = none ∧ s.conn = .connected ∧
      writeStart c kind b s = { s with connLock := some c }.setOp c (.writing kind)) := by
  unfold writeStart
  split
  · rename_i d hd; exact .inl ⟨by simp [hd], rfl⟩
  · rename_i hn
    split_ifs with hc
    · exact .inr (.inr ⟨hn, hc, rfl⟩)
    · exact .inr (.inl ⟨hn, hc, rfl⟩)

/-- After a full frame the batch goes on to a panel frame, goes on to its flush, or ends (R205, R212). -/
theorem advanceBatch_cases (c : Caller) (kind : TxKind) (b : Batch) (s : State) :
    (b.cur + 1 < b.frames.length ∧ advanceBatch c kind b s =
      { s with batch := some { b with cur := b.cur + 1 } }.setOp c
        (.ready kind s.cfg.interPanelDelayMs)) ∨
    (b.cur + 1 = b.frames.length ∧ b.anyBuffered = true ∧ advanceBatch c kind b s =
      { s with batch := some { b with cur := b.cur + 1 } }.setOp c (.ready kind 0)) ∨
    (¬ b.cur + 1 < b.frames.length ∧ ¬ (b.cur + 1 = b.frames.length ∧ b.anyBuffered = true) ∧
      advanceBatch c kind b s = endBatch c (batchResult kind b) s) := by
  unfold advanceBatch
  split_ifs with h1 h2
  · exact .inl ⟨h1, rfl⟩
  · exact .inr (.inl ⟨h2.1, h2.2, rfl⟩)
  · exact .inr (.inr ⟨h1, h2, rfl⟩)

/-- The frame a batch writes next is one of its panel frames or its flush (R205). -/
theorem Batch.current_mem {b : Batch} {f : List Byte} (h : b.current = some f) :
    f ∈ b.frames ∨ b.flush = some f := by
  unfold Batch.current at h
  split_ifs at h
  · exact .inl (List.mem_of_getElem? h)
  · exact .inr h

end Sys2Proof.Machine
end

