-- ==== Sys2Proof/Laws/Exec.lean ====
section
/-! SUPPORT. What an instruction can do to the state, said once, and the batch a tick starts. -/

namespace Sys2Proof.Machine

/-! ### The batch of a tick -/

/-- The encoder frames every payload, or fails at one; the frames are not empty (R166, R205). -/
theorem tickFrames_ne_nil {cfg : Config} {ps : List PanelPayload} {fs : List (List Byte)}
    (h : tickFrames cfg ps = .ok fs) : fs.length = ps.length ∧ ∀ f ∈ fs, f ≠ [] := by
  induction ps generalizing fs with
  | nil => cases h; simp
  | cons p ps ih =>
    simp only [tickFrames] at h
    split at h
    · cases h
    · rename_i f hf
      split at h
      · cases h
      · rename_i gs hg
        cases h
        obtain ⟨h1, h2⟩ := ih hg
        refine ⟨by simp [h1], ?_⟩
        intro x hx
        rcases List.mem_cons.1 hx with rfl | hx
        · unfold encodePanel at hf
          split at hf
          · cases hf
          · cases hf; exact WireFrame.bytes_ne_nil _
        · exact h2 x hx

theorem tickFlush_ne_nil {cfg : Config} {ps : List PanelPayload} {f : List Byte}
    (h : tickFlush cfg ps = some f) : f ≠ [] := by
  unfold tickFlush at h
  split_ifs at h
  cases h; exact WireFrame.bytes_ne_nil _

theorem isSome_tickFlush (cfg : Config) (ps : List PanelPayload) :
    (tickFlush cfg ps).isSome = anyBuffered cfg ps := by
  unfold tickFlush; split_ifs with h <;> simp [h]

theorem BatchOk.send {c : Caller} {bytes : List Byte} (h : bytes ≠ []) :
    BatchOk ⟨c, [bytes], 0, false, none⟩ :=
  ⟨by simp, by simp [Batch.current], by simpa using h, by simp, rfl⟩

theorem BatchOk.tick {c : Caller} {cfg : Config} {ps : List PanelPayload} {fs : List (List Byte)}
    (hps : ps ≠ []) (h : tickFrames cfg ps = .ok fs) :
    BatchOk ⟨c, fs, 0, anyBuffered cfg ps, tickFlush cfg ps⟩ := by
  obtain ⟨h1, h2⟩ := tickFrames_ne_nil h
  have hpos : 0 < fs.length := by rw [h1]; exact List.length_pos_iff.2 hps
  exact ⟨by simp, by simp [Batch.current, hpos], h2, fun f => tickFlush_ne_nil,
    (isSome_tickFlush _ _).symm⟩

/-! ### What an instruction can do -/

/-- The ways an instruction can leave the state. -/
inductive ExecNext (i : Instr) (s t : State) : Prop
  /-- A result and nothing else. -/
  | answered (r : Result) (eq : t = s.answer s.turn r)
  /-- CONFIGURE latches a valid topology (R110). -/
  | latched (cfg : Config) (fresh : s.configured = false) (valid : ValidTopology cfg)
      (eq : t = { s with cfg := cfg, configured := true }.answer s.turn (.ok .unit))
  /-- CONNECT or DISCONNECT finds nothing to do (R189, R194). -/
  | finished (lock : s.connLock = none) (eq : t = s.finish s.turn (.ok .unit))
  /-- CONNECT starts the open (R187). -/
  | opening (lock : s.connLock = none) (configured : s.configured = true)
      (conn : s.conn ≠ .connected)
      (eq : t = { s with conn := .connecting, connLock := some s.turn }.setOp s.turn
        (.opening s.cfg.serial))
  /-- DISCONNECT starts the close (R192). -/
  | closing (lock : s.connLock = none) (conn : s.conn ≠ .disconnected)
      (eq : t = { s with conn := .disconnected, connLock := some s.turn }.setOp s.turn .closing)
  /-- CONNECT or DISCONNECT waits for the connection lock (R190). -/
  | waits (lock : s.connLock ≠ none) (p : Phase) (wait : (p = .connectWait ∧ s.configured = true) ∨ p = .disconnectWait)
      (eq : t = s.setOp s.turn p)
  /-- A transmit operation takes the write lock (R202, R205). -/
  | takes (lock : s.writeLock = none) (kind : TxKind) (b : Batch) (owner : b.owner = s.turn)
      (cur : b.cur = 0) (ok : BatchOk b)
      (eq : t = { s with writeLock := some s.turn, batch := some b }.setOp s.turn (.ready kind 0))
  /-- A transmit operation waits for the write lock (R204). -/
  | queues (lock : s.writeLock ≠ none) (kind : TxKind) (b : Batch) (owner : b.owner = s.turn)
      (cur : b.cur = 0) (ok : BatchOk b) (eq : t = s.setOp s.turn (.writeWait kind b))
  /-- A frame at the receivers (R176). -/
  | received (f : WireFrame) (instr : i = f.instr)
      (eq : t = s.receive fun panels rx => rxFrame panels rx f)

/-- Taking the write lock, or waiting for it. -/
theorem ExecNext.acquireWrite {i : Instr} {s : State} {kind : TxKind} {b : Batch} (owner : b.owner = s.turn)
    (cur : b.cur = 0) (ok : BatchOk b) : ExecNext i s (acquireWrite s.turn kind b s) := by
  unfold Machine.acquireWrite
  split
  · rename_i h; exact .takes h kind b owner cur ok rfl
  · rename_i h; exact .queues (by simp [h]) kind b owner cur ok rfl

theorem ExecNext.sendBytes {i : Instr} (s : State) (bytes : List Byte) : ExecNext i s (sendBytes bytes s) := by
  unfold Machine.sendBytes
  split_ifs with h
  · exact .answered _ rfl
  · exact .acquireWrite rfl rfl (.send h)

theorem ExecNext.startTick {i : Instr} (s : State) (frame : Frame) : ExecNext i s (startTick frame s) := by
  unfold Machine.startTick
  split
  · exact .answered _ rfl
  · split_ifs with h
    · exact .answered _ rfl
    · split
      · exact .answered _ rfl
      · rename_i hf; exact .acquireWrite rfl rfl (.tick h hf)

theorem ExecNext.configure {i : Instr} (s : State) (cfg : Config) {t : State}
    (h : execConfigure cfg s = .next t) : ExecNext i s t := by
  unfold execConfigure at h
  cases h
  split_ifs with hc
  · exact .answered _ rfl
  · split
    · exact .answered _ rfl
    · rename_i hk
      exact .latched cfg (by simpa using hc) ((checkConfig_none cfg).1 hk) rfl

theorem ExecNext.connectBody {i : Instr} {s : State} (lock : s.connLock = none) (hc : s.configured = true) :
    ExecNext i s (connectBody s.turn s) := by
  unfold Machine.connectBody
  split_ifs with h
  · exact .finished lock rfl
  · exact .opening lock hc h rfl

theorem ExecNext.disconnectBody {i : Instr} {s : State} (lock : s.connLock = none) :
    ExecNext i s (disconnectBody s.turn s) := by
  unfold Machine.disconnectBody
  split_ifs with h
  · exact .finished lock rfl
  · exact .closing lock h rfl

/-- Every instruction answers a next state (R9, R245). -/
theorem exec_answers (i : Instr) (s : State) : ∃ t, exec i s = .next t := by
  cases i <;> exact ⟨_, rfl⟩

/-- Every instruction does one of these. -/
theorem exec_next {i : Instr} {s t : State} (h : exec i s = .next t) : ExecNext i s t := by
  cases i
  case configure cfg => exact .configure s cfg h
  case connect =>
    simp only [exec, execConnect, acquireConn, Host.Outcome.next.injEq] at h
    subst h
    split_ifs with hc
    · split
      · rename_i hl; exact .connectBody hl hc
      · rename_i hl; exact .waits (by simp [hl]) _ (.inl ⟨rfl, hc⟩) rfl
    · exact .answered _ rfl
  case disconnect =>
    simp only [exec, execDisconnect, acquireConn, Host.Outcome.next.injEq] at h
    subst h
    split
    · rename_i hl; exact .disconnectBody hl
    · rename_i hl; exact .waits (by simp [hl]) _ (.inr rfl) rfl
  case sendFrame bytes =>
    simp only [exec, execSendFrame, Host.Outcome.next.injEq] at h
    subst h; exact .sendBytes s bytes
  case sendFlush =>
    simp only [exec, execSendFlush, Host.Outcome.next.injEq] at h
    subst h
    split_ifs
    · exact .sendBytes s _
    · exact .answered _ rfl
  case tick frame =>
    simp only [exec, execTick, Host.Outcome.next.injEq] at h
    subst h; exact .startTick s frame
  case data7I a d => cases h; exact .received ⟨.data7I, a, d⟩ rfl rfl
  case data14I a d => cases h; exact .received ⟨.data14I, a, d⟩ rfl rfl
  case data14B a d => cases h; exact .received ⟨.data14B, a, d⟩ rfl rfl
  case data28I a d => cases h; exact .received ⟨.data28I, a, d⟩ rfl rfl
  case data28B a d => cases h; exact .received ⟨.data28B, a, d⟩ rfl rfl
  case flush a => cases h; exact .received ⟨.flush, a, []⟩ rfl rfl
  all_goals cases h; exact .answered _ rfl

/-- A wire frame's instruction is its effect at the receivers (R176). -/
theorem exec_instr (f : WireFrame) (s : State) :
    exec f.instr s = .next (s.receive fun panels rx => rxFrame panels rx f) := by
  obtain ⟨k, a, d⟩ := f
  cases k <;> rfl

/-! ### Callers issue no wire commands -/

/-- A wire command, which only the receivers execute. -/
def isWire : Instr → Bool
  | .data7I _ _ | .data14I _ _ | .data14B _ _ | .data28I _ _ | .data28B _ _ | .flush _ => true
  | .configure _ | .decodeRbm _ | .decodeFdis _ | .map _ | .encodePanel _ _ _ | .encodeFlush _
  | .connect | .disconnect | .sendFrame _ | .sendFlush | .tick _ | .queryStatus
  | .orientNormal _ | .orientRot90 _ | .orientRot180 _ | .orientRot270 _ | .orientFliph _
  | .orientFlipv _ => false

theorem isWire_instr (f : WireFrame) : isWire f.instr = true := by
  obtain ⟨k, a, d⟩ := f
  cases k <;> rfl

theorem isWire_decodeHost {l : Byte} {a : Operands} {i : Instr} (h : decodeHost l a = .ok i) :
    isWire i = false := by
  unfold decodeHost at h
  split at h
  · cases h
  · rename_i op _
    unfold decodeOperands at h
    cases op <;> cases a <;> simp only at h <;>
      first | (cases h; rfl) | (cases h) | (split at h <;> cases h; rfl)

theorem isWire_decodeOrient {o : Byte} {g : Grid} {i : Instr} (h : decodeOrient o g = .ok i) :
    isWire i = false := by
  unfold decodeOrient at h
  split at h
  · cases h
  · rename_i o _
    split_ifs at h
    cases h; cases o <;> rfl

/-- What a caller issues is no wire command. -/
theorem isWire_decodeRequest {code : Code} {i : Instr} (h : decodeRequest code = .ok i) :
    isWire i = false := by
  unfold decodeRequest at h
  split at h
  · cases h
  · split at h
    · rename_i j hj; cases h; exact isWire_decodeHost hj
    · cases h
  · split at h
    · rename_i j hj; cases h; exact isWire_decodeOrient hj
    · cases h

end Sys2Proof.Machine
end

