-- ==== Sys2Proof/Laws/Invariant.lean ====
section
/-! SUPPORT. Each shared operation keeps the invariant: one lemma an operation. -/

namespace Sys2Proof.Machine

/-- What the invariant does not speak of may change. -/
theorem Invariant.of_same {s : State} (h : Invariant s) (a b c d e)
    : Invariant { s with requests := a, results := b, turn := c, schedule := d, draws := e } :=
  ⟨h.ops, h.callers, h.rx, h.connLock, h.writeLock, h.batchOwner, h.batch, h.waiting, h.connectWaiting, h.connecting, h.opening, h.writing, h.closing, h.connConfigured, h.unconfigured, h.topology, h.receivers, h.lost⟩

/-- More callers, or another progress of the device, keep the invariant. -/
theorem Invariant.withParams {s : State} (h : Invariant s) (p : Params)
    (hc : ∀ c ∈ s.params.callers, c ∈ p.callers) : Invariant { s with params := p } :=
  { h with callers := fun c hd => hc c (h.callers c hd) }

/-- Taking an event keeps the invariant. -/
theorem Invariant.takeEvent {s : State} (h : Invariant s) : Invariant s.takeEvent.2 := by
  rw [takeEvent_state]; exact h.of_same s.requests s.results s.turn _ _

/-- A result keeps the invariant. -/
theorem Invariant.answer {s : State} (h : Invariant s) (c r) : Invariant (s.answer c r)
    := h.of_same _ _ _ _ _

/-- While the connection lock is free no operation holds it. -/
theorem Invariant.noHold {s : State} (h : Invariant s) (hl : s.connLock = none) {c p}
    (ho : s.opOf c = some p) : p.holdsConn = false := by
  by_contra hh
  have := (h.connLock c).2 ⟨p, ho, by simpa using hh⟩
  rw [hl] at this; cases this

/-- While the write lock is free no operation holds it. -/
theorem Invariant.noWrite {s : State} (h : Invariant s) (hl : s.writeLock = none) {c p}
    (ho : s.opOf c = some p) : p.holdsWrite = false := by
  by_contra hh
  have := (h.writeLock c).2 ⟨p, ho, by simpa using hh⟩
  rw [hl] at this; cases this

/-- Whoever has an operation outstanding is a caller of the set (D53). -/
theorem Invariant.agent {s : State} (h : Invariant s) {c p} (ho : s.opOf c = some p) :
    c ∈ s.params.callers := h.callers c (by rw [ho]; simp)

/-- An operation of a caller of the set is set. -/
theorem Invariant.callers_put {s t : State} (h : Invariant s) {c p} (hp : t.params = s.params)
    (hop : ∀ d, t.opOf d = if d = c then some p else s.opOf d) (hc : c ∈ s.params.callers) :
    ∀ d, t.opOf d ≠ none → d ∈ t.params.callers := by
  intro d hd
  rw [hp]
  by_cases hdc : d = c
  · exact hdc ▸ hc
  · rw [hop, if_neg hdc] at hd; exact h.callers d hd

/-- An operation ends. -/
theorem Invariant.callers_drop {s t : State} (h : Invariant s) {c} (hp : t.params = s.params)
    (hop : ∀ d, t.opOf d = if d = c then none else s.opOf d) :
    ∀ d, t.opOf d ≠ none → d ∈ t.params.callers := by
  intro d hd
  rw [hp]
  rw [hop] at hd
  split_ifs at hd with hdc
  · exact absurd rfl hd
  · exact h.callers d hd

/-- An operation that holds no lock goes on to a phase that holds none. -/
theorem Invariant.setOp_waiting {s : State} (h : Invariant s) (c : Caller) (p : Phase)
    (hc : c ∈ s.params.callers)
    (h0 : ∀ q, s.opOf c = some q → q.holdsConn = false ∧ q.holdsWrite = false)
    (hp : p.holdsConn = false ∧ p.holdsWrite = false) (hw : ∀ k b, p = .writeWait k b → b.owner = c ∧ b.cur = 0 ∧ BatchOk b) (hcw : p = .connectWait → s.configured = true) : Invariant (s.setOp c p) := by
  have hop : ∀ d, (s.setOp c p).opOf d = if d = c then some p else s.opOf d := fun d => State.opOf_setOp s c d p
  refine ⟨tableWf_tablePut h.ops _ _, h.callers_put rfl hop hc, h.rx, ?_, ?_, h.batchOwner, h.batch, ?_, ?_, ?_, ?_, ?_, ?_, h.connConfigured, h.unconfigured, h.topology, h.receivers, h.lost⟩
  · intro d
    rw [hop]; by_cases hd : d = c
    · subst hd; simp only [if_true, Option.some.injEq, exists_eq_left', hp.1, Bool.false_eq_true, iff_false]
      intro hl
      obtain ⟨q, hq, hq2⟩ := (h.connLock d).1 hl
      rw [(h0 q hq).1] at hq2; cases hq2
    · simp only [hd, if_false]; exact h.connLock d
  · intro d
    rw [hop]; by_cases hd : d = c
    · subst hd; simp only [if_true, Option.some.injEq, exists_eq_left', hp.2, Bool.false_eq_true, iff_false]
      intro hl
      obtain ⟨q, hq, hq2⟩ := (h.writeLock d).1 hl
      rw [(h0 q hq).2] at hq2; cases hq2
    · simp only [hd, if_false]; exact h.writeLock d
  · intro d k b
    rw [hop]; by_cases hd : d = c
    · subst hd; simp only [if_true, Option.some.injEq]; exact hw k b
    · simp only [hd, if_false]; exact h.waiting d k b
  · intro d hd; rw [hop] at hd; split_ifs at hd with hdc
    · cases hd; exact hcw rfl
    · exact h.connectWaiting d hd
  · show s.conn = _ ↔ _
    rw [h.connecting]
    constructor
    · rintro ⟨d, ser, hd⟩
      refine ⟨d, ser, ?_⟩
      rw [hop, if_neg]; exact hd
      rintro rfl; have := (h0 _ hd).1; cases this
    · rintro ⟨d, ser, hd⟩
      rw [hop] at hd
      split_ifs at hd with hdc
      · cases hd; cases hp.1
      · exact ⟨d, ser, hd⟩
  · intro d ser hd; rw [hop] at hd; split_ifs at hd with hdc
    · cases hd; cases hp.1
    · exact h.opening d ser hd
  · intro d k hd; rw [hop] at hd; split_ifs at hd with hdc
    · cases hd; cases hp.1
    · exact h.writing d k hd
  · intro d hd; rw [hop] at hd; split_ifs at hd with hdc
    · cases hd; cases hp.1
    · exact h.closing d hd

/-- An operation that holds no lock ends. -/
theorem Invariant.finish {s : State} (h : Invariant s) (c : Caller) (r)
    (h0 : ∀ q, s.opOf c = some q → q.holdsConn = false ∧ q.holdsWrite = false)
    : Invariant (s.finish c r) := by
  have hop : ∀ d, (s.finish c r).opOf d = if d = c then none else s.opOf d := fun d => State.opOf_finish s c d r
  refine ⟨tableWf_tableDrop h.ops _, h.callers_drop rfl hop, h.rx, ?_, ?_, h.batchOwner, h.batch, ?_, ?_, ?_, ?_, ?_, ?_, h.connConfigured, h.unconfigured, h.topology, h.receivers, h.lost⟩
  · intro d
    rw [hop]; by_cases hd : d = c
    · subst hd; simp only [if_true, reduceCtorEq, false_and, exists_false, iff_false]
      intro hl
      obtain ⟨q, hq, hq2⟩ := (h.connLock d).1 hl
      rw [(h0 q hq).1] at hq2; cases hq2
    · simp only [hd, if_false]; exact h.connLock d
  · intro d
    rw [hop]; by_cases hd : d = c
    · subst hd; simp only [if_true, reduceCtorEq, false_and, exists_false, iff_false]
      intro hl
      obtain ⟨q, hq, hq2⟩ := (h.writeLock d).1 hl
      rw [(h0 q hq).2] at hq2; cases hq2
    · simp only [hd, if_false]; exact h.writeLock d
  · intro d k b
    rw [hop]; by_cases hd : d = c
    · simp [hd]
    · simp only [hd, if_false]; exact h.waiting d k b
  · intro d hd; rw [hop] at hd; split_ifs at hd with hdc
    exact h.connectWaiting d hd
  · show s.conn = _ ↔ _
    rw [h.connecting]
    constructor
    · rintro ⟨d, ser, hd⟩
      refine ⟨d, ser, ?_⟩
      rw [hop, if_neg]; exact hd
      rintro rfl; have := (h0 _ hd).1; cases this
    · rintro ⟨d, ser, hd⟩
      rw [hop] at hd
      split_ifs at hd with hdc
      exact ⟨d, ser, hd⟩
  · intro d ser hd; rw [hop] at hd; split_ifs at hd with hdc; exact h.opening d ser hd
  · intro d k hd; rw [hop] at hd; split_ifs at hd with hdc; exact h.writing d k hd
  · intro d hd; rw [hop] at hd; split_ifs at hd with hdc; exact h.closing d hd

/-- An open or a close starts (R187, R192). -/
theorem Invariant.startConn {s : State} (h : Invariant s) (c : Caller) (p : Phase) (conn)
    (hl : s.connLock = none) (hc : c ∈ s.params.callers)
    (h0 : ∀ q, s.opOf c = some q → q.holdsWrite = false)
    (hp : (conn = .connecting ∧ p = .opening s.cfg.serial ∧ s.configured = true) ∨ (conn = .disconnected ∧ p = .closing)) :
    Invariant ({ s with conn := conn, connLock := some c }.setOp c p) := by
  have hop : ∀ d, ({ s with conn := conn, connLock := some c }.setOp c p).opOf d = if d = c then some p else s.opOf d := fun d => State.opOf_setOp _ c d p
  have hpc : p.holdsConn = true ∧ p.holdsWrite = false := by rcases hp with ⟨_, rfl, _⟩ | ⟨_, rfl⟩ <;> exact ⟨rfl, rfl⟩
  refine ⟨tableWf_tablePut h.ops _ _, h.callers_put rfl hop hc, h.rx, ?_, ?_, h.batchOwner, h.batch, ?_, ?_, ?_, ?_, ?_, ?_, ?_, h.unconfigured, h.topology, h.receivers, h.lost⟩
  · intro d
    show some c = some d ↔ _
    rw [hop]; by_cases hd : d = c
    · subst hd; simp [hpc.1]
    · simp only [hd, if_false, Option.some.injEq]
      constructor
      · intro e; exact absurd e.symm hd
      · rintro ⟨q, hq, hq2⟩; rw [h.noHold hl hq] at hq2; cases hq2
  · intro d
    rw [hop]; by_cases hd : d = c
    · subst hd; simp only [if_true, Option.some.injEq, exists_eq_left', hpc.2, Bool.false_eq_true, iff_false]
      intro hl
      obtain ⟨q, hq, hq2⟩ := (h.writeLock d).1 hl
      rw [(h0 q hq)] at hq2; cases hq2
    · simp only [hd, if_false]; exact h.writeLock d
  · intro d k b
    rw [hop]; by_cases hd : d = c
    · subst hd; simp only [if_true, Option.some.injEq]; rintro rfl; cases hpc.1
    · simp only [hd, if_false]; exact h.waiting d k b
  · intro d hd; rw [hop] at hd; split_ifs at hd with hdc
    · cases hd; cases hpc.1
    · exact h.connectWaiting d hd
  · show conn = _ ↔ _
    constructor
    · rintro rfl
      rcases hp with ⟨_, rfl, _⟩ | ⟨h1, _⟩
      · exact ⟨c, _, by rw [hop, if_pos rfl]⟩
      · cases h1
    · rintro ⟨d, ser, hd⟩
      rw [hop] at hd
      split_ifs at hd with hdc
      · cases hd; rcases hp with ⟨rfl, _, _⟩ | ⟨_, h2⟩
        · rfl
        · cases h2
      · have := h.noHold hl hd; cases this
  · intro d ser hd; rw [hop] at hd; split_ifs at hd with hdc
    · cases hd; rcases hp with ⟨_, h2, _⟩ | ⟨_, h2⟩
      · cases h2; rfl
      · cases h2
    · exact h.opening d ser hd
  · intro d k hd; rw [hop] at hd; split_ifs at hd with hdc
    · cases hd; cases hpc.2
    · have := h.noHold hl hd; cases this
  · intro d hd; rw [hop] at hd; split_ifs at hd with hdc
    · cases hd; rcases hp with ⟨_, h2, _⟩ | ⟨h1, _⟩
      · cases h2
      · exact h1
    · have := h.noHold hl hd; cases this
  · intro hc
    rcases hp with ⟨_, _, h3⟩ | ⟨h1, _⟩
    · exact h3
    · exact absurd h1 hc

/-- A transmit operation takes the write lock (R204). -/
theorem Invariant.takeWrite {s : State} (h : Invariant s) (c : Caller) (kind) (b : Batch)
    (hl : s.writeLock = none) (hc : c ∈ s.params.callers)
    (h0 : ∀ q, s.opOf c = some q → q.holdsConn = false) (ho : b.owner = c) (hb : BatchOk b) :
    Invariant ({ s with writeLock := some c, batch := some b }.setOp c (.ready kind 0)) := by
  have hop : ∀ d, ({ s with writeLock := some c, batch := some b }.setOp c (.ready kind 0)).opOf d = if d = c then some (.ready kind 0) else s.opOf d := fun d => State.opOf_setOp _ c d _
  refine ⟨tableWf_tablePut h.ops _ _, h.callers_put rfl hop hc, h.rx, ?_, ?_, ?_, ?_, ?_, ?_, ?_, ?_, ?_, ?_, h.connConfigured, h.unconfigured, h.topology, h.receivers, h.lost⟩
  · intro d
    rw [hop]; by_cases hd : d = c
    · subst hd; simp only [if_true, Option.some.injEq, exists_eq_left', Phase.holdsConn, Bool.false_eq_true, iff_false]
      intro hl
      obtain ⟨q, hq, hq2⟩ := (h.connLock d).1 hl
      rw [(h0 q hq)] at hq2; cases hq2
    · simp only [hd, if_false]; exact h.connLock d
  · intro d
    show some c = some d ↔ _
    rw [hop]; by_cases hd : d = c
    · subst hd; simp [Phase.holdsWrite]
    · simp only [hd, if_false, Option.some.injEq]
      constructor
      · intro e; exact absurd e.symm hd
      · rintro ⟨q, hq, hq2⟩; rw [h.noWrite hl hq] at hq2; cases hq2
  · show some b.owner = some c; rw [ho]
  · intro b' hb'; cases hb'; exact hb
  · intro d k b
    rw [hop]; by_cases hd : d = c
    · subst hd; simp
    · simp only [hd, if_false]; exact h.waiting d k b
  · intro d hd; rw [hop] at hd; split_ifs at hd with hdc
    · cases hd
    · exact h.connectWaiting d hd
  · show s.conn = _ ↔ _
    rw [h.connecting]
    constructor
    · rintro ⟨d, ser, hd⟩
      refine ⟨d, ser, ?_⟩
      rw [hop, if_neg]; exact hd
      rintro rfl; have := (h0 _ hd); cases this
    · rintro ⟨d, ser, hd⟩
      rw [hop] at hd
      split_ifs at hd with hdc
      · cases hd
      exact ⟨d, ser, hd⟩
  · intro d ser hd; rw [hop] at hd; split_ifs at hd with hdc; (· cases hd); exact h.opening d ser hd
  · intro d k hd; rw [hop] at hd; split_ifs at hd with hdc; (· cases hd); exact h.writing d k hd
  · intro d hd; rw [hop] at hd; split_ifs at hd with hdc; (· cases hd); exact h.closing d hd

/-- The receivers' part changes. -/
theorem Invariant.withRx {s : State} (h : Invariant s) (rx pos lost) (h1 : rxWf rx)
   (h2 : lost = false → pos ≤ s.wire.length ∧ ∃ fs, recognise (s.wire.take pos) = (fs, .wellFormed) ∧ rx = rxOf s.panels fs)
   (h3 : lost = true → rx = []) : Invariant { s with rx := rx, rxPos := pos, rxLost := lost } :=
  ⟨h.ops, h.callers, h1, h.connLock, h.writeLock, h.batchOwner, h.batch, h.waiting, h.connectWaiting, h.connecting, h.opening, h.writing, h.closing, h.connConfigured, h.unconfigured, h.topology, h2, h3⟩

/-- Losing the stream keeps the invariant (R183). -/
theorem Invariant.loseStream {s : State} (h : Invariant s) : Invariant s.loseStream :=
  h.withRx [] s.rxPos true rxWf_nil (by simp) (by simp)

/-- A frame the receivers take keeps the invariant (R176). -/
theorem Invariant.frame {s : State} (h : Invariant s) {i u t} (hf : fetchFrame s = some (i, u))
    (hd : s.receiversDue = true) (hr : exec i u = .next t) : Invariant t := by
  obtain ⟨f, rest, ht, hc, rfl, rfl⟩ := fetchFrame_some hf
  rw [exec_instr] at hr; cases hr
  have hl : s.rxLost = false := by
    by_contra hh; simp [State.receiversDue, hh] at hd
  have hrec : ({ s with rxPos := s.rxPos + f.bytes.length } : State).receive (fun panels rx => rxFrame panels rx f) =
      { s with rx := rxFrame s.panels s.rx f, rxPos := s.rxPos + f.bytes.length, rxLost := s.rxLost } := by
    simp [State.receive, hl, ht]; rfl
  rw [hrec]
  obtain ⟨hw, hlen⟩ := cutFrame_ok hc
  obtain ⟨hpos, fs, hfs, hrx⟩ := h.receivers hl
  apply h.withRx _ _ _ (rxWf_rxFrame _ h.rx f)
  · intro _
    have hle : s.rxPos + f.bytes.length ≤ s.wire.length := by
      have := congrArg List.length hw; simp only [List.length_drop, List.length_append] at this
      omega
    refine ⟨hle, fs ++ [f], ?_, ?_⟩
    · have : s.wire.take (s.rxPos + f.bytes.length) = s.wire.take s.rxPos ++ f.bytes := by
        rw [List.take_add, hw, List.take_left']; rfl
      rw [this]; exact recognise_append hfs hlen
    · rw [rxOf_append, ← hrx]
  · intro hh; rw [hl] at hh; cases hh

/-- CONFIGURE of a valid topology keeps the invariant (R110). -/
theorem Invariant.configure {s : State} (h : Invariant s) (hf : s.configured = false) (cfg)
    (hv : ValidTopology cfg) : Invariant { s with cfg := cfg, configured := true } := by
  obtain ⟨hw, ht, hd⟩ := h.unconfigured hf
  have hconn : s.conn = .disconnected := by
    by_contra hh; rw [h.connConfigured hh] at hf; cases hf
  refine ⟨h.ops, h.callers, h.rx, h.connLock, h.writeLock, h.batchOwner, h.batch, h.waiting, fun _ _ => rfl, h.connecting, ?_, h.writing, h.closing, fun _ => rfl, ?_, fun _ => hv, ?_, h.lost⟩
  · intro c ser ho
    have := h.connecting.2 ⟨c, ser, ho⟩
    rw [hconn] at this; cases this
  · intro hh; cases hh
  · intro hl
    obtain ⟨h1, fs, h2, h3⟩ := h.receivers hl
    refine ⟨h1, fs, h2, ?_⟩
    rw [hw] at h2
    have : fs = [] := by
      rw [recognise_eq_iff] at h2
      cases fs with
      | nil => rfl
      | cons f fs => have := h2.1; simp [WireFrame.bytes] at this
    subst this
    exact h3

/-- A caller's operation keeps the invariant. -/
theorem Invariant.runs {s : State} (h : Invariant s) {i t} (hr : exec i s = .next t)
    (agent : s.turn ∈ s.params.callers) (h0 : s.opOf s.turn = none) (hnw : ∀ f : WireFrame, i ≠ f.instr) : Invariant t := by
  have h0' : ∀ q, s.opOf s.turn = some q → q.holdsConn = false ∧ q.holdsWrite = false := by intro q hq; rw [h0] at hq; cases hq
  cases exec_next hr with
  | answered r eq => subst eq; exact h.answer _ _
  | latched cfg fresh valid eq => subst eq; exact (h.configure fresh cfg valid).answer _ _
  | finished lock eq => subst eq; exact h.finish _ _ h0'
  | opening lock hc conn eq => subst eq; exact h.startConn _ _ _ lock agent (fun q hq => (h0' q hq).2) (.inl ⟨rfl, rfl, hc⟩)
  | closing lock conn eq => subst eq; exact h.startConn _ _ _ lock agent (fun q hq => (h0' q hq).2) (.inr ⟨rfl, rfl⟩)
  | waits lock p wait eq =>
    subst eq
    apply h.setOp_waiting _ _ agent h0' ?_ ?_ (by rintro rfl; rcases wait with ⟨_, h⟩ | h; (· exact h); cases h)
    · rcases wait with ⟨rfl, _⟩ | rfl <;> exact ⟨rfl, rfl⟩
    · rcases wait with ⟨rfl, _⟩ | rfl <;> (intro k b hh; cases hh)
  | takes lock kind b owner cur ok eq => subst eq; exact h.takeWrite _ _ _ lock agent (fun q hq => (h0' q hq).1) owner ok
  | queues lock kind b owner cur ok eq =>
    subst eq
    exact h.setOp_waiting _ _ agent h0' ⟨rfl, rfl⟩ (by intro k b' hh; cases hh; exact ⟨owner, cur, ok⟩) (by intro e; cases e)
  | received f instr eq => exact absurd instr (hnw f)

/-- A caller's operation is no wire frame's instruction. -/
theorem decodeRequest_ne_instr {code i} (h : decodeRequest code = .ok i) (f : WireFrame)
    : i ≠ f.instr := by
  rintro rfl
  have := isWire_decodeRequest h
  rw [isWire_instr] at this; cases this

/-- A frame write at the device belongs to the batch in flight, whose owner holds both locks. -/
theorem Invariant.batch_of_writing {s : State} (h : Invariant s) {c kind}
    (ho : s.opOf c = some (.writing kind)) {b} (hb : s.batch = some b)
    : b.owner = c ∧ s.writeLock = some c ∧ s.connLock = some c := by
  have hw := (h.writeLock c).2 ⟨_, ho, rfl⟩
  have hc := (h.connLock c).2 ⟨_, ho, rfl⟩
  have := h.batchOwner
  rw [hb, hw] at this
  exact ⟨by simpa using this, hw, hc⟩

theorem Invariant.wireAppend {s : State} (h : Invariant s) (bs d tr) (hc : s.configured = true) :
    Invariant { s with wire := s.wire ++ bs, lastWriteDuration := d, truncated := tr } := by
  refine ⟨h.ops, h.callers, h.rx, h.connLock, h.writeLock, h.batchOwner, h.batch, h.waiting, h.connectWaiting, h.connecting, h.opening, h.writing, h.closing, h.connConfigured, ?_, h.topology, ?_, h.lost⟩
  · intro hh; rw [hc] at hh; cases hh
  · intro hl
    obtain ⟨h1, fs, h2, h3⟩ := h.receivers hl
    refine ⟨by simp; omega, fs, ?_, h3⟩
    simp only [List.take_append_of_le_length h1]; exact h2

/-- A frame write ends and the batch goes on (R205). -/
theorem Invariant.toReady {s : State} (h : Invariant s) {c kind}
    (ho : s.opOf c = some (.writing kind)) {b} (hb : s.batch = some b) (b' : Batch)
    (hok : BatchOk b') (hbo : b'.owner = b.owner) (ms) :
    Invariant ({ s with batch := some b', connLock := none }.setOp c (.ready kind ms)) := by
  obtain ⟨hbc, hwl, hcl⟩ := h.batch_of_writing ho hb
  have hop : ∀ d, ({ s with batch := some b', connLock := none }.setOp c (.ready kind ms)).opOf d = if d = c then some (.ready kind ms) else s.opOf d := fun d => State.opOf_setOp _ c d _
  have other : ∀ d q, d ≠ c → s.opOf d = some q → q.holdsConn = false ∧ q.holdsWrite = false := by
    intro d q hd hq
    constructor
    · by_contra hh
      have := (h.connLock d).2 ⟨q, hq, by simpa using hh⟩
      rw [hcl] at this; cases this; exact hd rfl
    · by_contra hh
      have := (h.writeLock d).2 ⟨q, hq, by simpa using hh⟩
      rw [hwl] at this; cases this; exact hd rfl
  refine ⟨tableWf_tablePut h.ops _ _, h.callers_put rfl hop (h.agent ho), h.rx, ?_, ?_, ?_, ?_, ?_, ?_, ?_, ?_, ?_, ?_, h.connConfigured, h.unconfigured, h.topology, h.receivers, h.lost⟩
  · intro d
    show none = some d ↔ _
    rw [hop]; by_cases hd : d = c
    · subst hd; simp [Phase.holdsConn]
    · simp only [hd, if_false, reduceCtorEq, false_iff]
      rintro ⟨q, hq, hq2⟩; rw [(other d q hd hq).1] at hq2; cases hq2
  · intro d
    show s.writeLock = some d ↔ _
    rw [hop]; by_cases hd : d = c
    · subst hd; simp [Phase.holdsWrite, hwl]
    · simp only [hd, if_false]; exact h.writeLock d
  · show some b'.owner = s.writeLock
    rw [hbo, hbc, hwl]
  · intro b'' hb''; cases hb''; exact hok
  · intro d k b
    rw [hop]; by_cases hd : d = c
    · subst hd; simp
    · simp only [hd, if_false]; exact h.waiting d k b
  · intro d hd; rw [hop] at hd; split_ifs at hd with hdc
    · cases hd
    · exact h.connectWaiting d hd
  · show s.conn = _ ↔ _
    rw [h.connecting]
    constructor
    · rintro ⟨d, ser, hd⟩
      refine ⟨d, ser, ?_⟩
      rw [hop, if_neg]; exact hd
      rintro rfl; rw [ho] at hd; cases hd
    · rintro ⟨d, ser, hd⟩
      rw [hop] at hd
      split_ifs at hd with hdc
      · cases hd
      exact ⟨d, ser, hd⟩
  · intro d ser hd; rw [hop] at hd; split_ifs at hd with hdc; (· cases hd); exact h.opening d ser hd
  · intro d k hd; rw [hop] at hd; split_ifs at hd with hdc; (· cases hd); exact h.writing d k hd
  · intro d hd; rw [hop] at hd; split_ifs at hd with hdc; (· cases hd); exact h.closing d hd

/-- A transmit operation ends (R202, R205). -/
theorem Invariant.batch_ends {s : State} (h : Invariant s) {c p} (ho : s.opOf c = some p)
    (hw : p.holdsWrite = true)
    (hcl : s.connLock = none ∨ s.connLock = some c) (r) : Invariant (endBatch c r { s with connLock := none }) := by
  have hwl := (h.writeLock c).2 ⟨_, ho, hw⟩
  have hop : ∀ d, (endBatch c r { s with connLock := none }).opOf d = if d = c then none else s.opOf d := fun d => opOf_endBatch _ c d _
  have other : ∀ d q, d ≠ c → s.opOf d = some q → q.holdsConn = false ∧ q.holdsWrite = false := by
    intro d q hd hq
    constructor
    · by_contra hh
      have := (h.connLock d).2 ⟨q, hq, by simpa using hh⟩
      rcases hcl with e | e <;> (rw [e] at this; cases this)
      exact hd rfl
    · by_contra hh
      have := (h.writeLock d).2 ⟨q, hq, by simpa using hh⟩
      rw [hwl] at this; cases this; exact hd rfl
  refine ⟨tableWf_tableDrop h.ops _, h.callers_drop rfl hop, h.rx, ?_, ?_, ?_, ?_, ?_, ?_, ?_, ?_, ?_, ?_, h.connConfigured, h.unconfigured, h.topology, h.receivers, h.lost⟩
  · intro d
    show none = some d ↔ _
    rw [hop]; by_cases hd : d = c
    · subst hd; simp
    · simp only [hd, if_false, reduceCtorEq, false_iff]
      rintro ⟨q, hq, hq2⟩; rw [(other d q hd hq).1] at hq2; cases hq2
  · intro d
    show none = some d ↔ _
    rw [hop]; by_cases hd : d = c
    · subst hd; simp
    · simp only [hd, if_false, reduceCtorEq, false_iff]
      rintro ⟨q, hq, hq2⟩; rw [(other d q hd hq).2] at hq2; cases hq2
  · rfl
  · intro b hb; cases hb
  · intro d k b
    rw [hop]; by_cases hd : d = c
    · subst hd; simp
    · simp only [hd, if_false]; exact h.waiting d k b
  · intro d hd; rw [hop] at hd; split_ifs at hd with hdc
    exact h.connectWaiting d hd
  · show s.conn = _ ↔ _
    rw [h.connecting]
    constructor
    · rintro ⟨d, ser, hd⟩
      refine ⟨d, ser, ?_⟩
      rw [hop, if_neg]; exact hd
      rintro rfl; rw [ho] at hd; cases hd; cases hw
    · rintro ⟨d, ser, hd⟩
      rw [hop] at hd
      split_ifs at hd with hdc
      exact ⟨d, ser, hd⟩
  · intro d ser hd; rw [hop] at hd; split_ifs at hd with hdc; exact h.opening d ser hd
  · intro d k hd; rw [hop] at hd; split_ifs at hd with hdc; exact h.writing d k hd
  · intro d hd; rw [hop] at hd; split_ifs at hd with hdc; exact h.closing d hd

/-- An open or a close is answered (R187, R192). -/
theorem Invariant.endConn {s : State} (h : Invariant s) {c p} (ho : s.opOf c = some p)
    (hp : (∃ ser, p = .opening ser) ∨ p = .closing)
    (conn r) (hcn : (∃ ser, p = .opening ser) ∧ (conn = .connected ∨ conn = .disconnected) ∨ p = .closing ∧ conn = .disconnected) :
    Invariant ({ s with conn := conn, connLock := none }.finish c r) := by
  have hpc : p.holdsConn = true ∧ p.holdsWrite = false := by rcases hp with ⟨_, rfl⟩ | rfl <;> exact ⟨rfl, rfl⟩
  have hcl := (h.connLock c).2 ⟨_, ho, hpc.1⟩
  have hop : ∀ d, ({ s with conn := conn, connLock := none }.finish c r).opOf d = if d = c then none else s.opOf d := fun d => State.opOf_finish _ c d _
  have other : ∀ d q, d ≠ c → s.opOf d = some q → q.holdsConn = false := by
    intro d q hd hq
    by_contra hh
    have := (h.connLock d).2 ⟨q, hq, by simpa using hh⟩
    rw [hcl] at this; cases this
    exact hd rfl
  refine ⟨tableWf_tableDrop h.ops _, h.callers_drop rfl hop, h.rx, ?_, ?_, h.batchOwner, h.batch, ?_, ?_, ?_, ?_, ?_, ?_, ?_, h.unconfigured, h.topology, h.receivers, h.lost⟩
  · intro d
    show none = some d ↔ _
    rw [hop]; by_cases hd : d = c
    · subst hd; simp
    · simp only [hd, if_false, reduceCtorEq, false_iff]
      rintro ⟨q, hq, hq2⟩; rw [(other d q hd hq)] at hq2; cases hq2
  · intro d
    show s.writeLock = some d ↔ _
    rw [hop]; by_cases hd : d = c
    · subst hd; simp only [if_true, reduceCtorEq, false_and, exists_false, iff_false]
      intro hl
      obtain ⟨q, hq, hq2⟩ := (h.writeLock d).1 hl
      rw [ho] at hq; cases hq; rw [hpc.2] at hq2; cases hq2
    · simp only [hd, if_false]; exact h.writeLock d
  · intro d k b
    rw [hop]; by_cases hd : d = c
    · subst hd; simp
    · simp only [hd, if_false]; exact h.waiting d k b
  · intro d hd; rw [hop] at hd; split_ifs at hd with hdc
    exact h.connectWaiting d hd
  · show conn = _ ↔ _
    constructor
    · rintro rfl; rcases hcn with ⟨_, h1 | h1⟩ | ⟨_, h1⟩ <;> cases h1
    · rintro ⟨d, ser, hd⟩
      rw [hop] at hd
      split_ifs at hd with hdc
      have := other d _ hdc hd; cases this
  · intro d ser hd; rw [hop] at hd; split_ifs at hd with hdc; exact h.opening d ser hd
  · intro d k hd; rw [hop] at hd; split_ifs at hd with hdc; have := other d _ hdc hd; cases this
  · intro d hd; rw [hop] at hd; split_ifs at hd with hdc; have := other d _ hdc hd; cases this
  · intro hc
    rcases hcn with ⟨⟨ser, rfl⟩, _⟩ | ⟨_, h1⟩
    · have := h.connecting.2 ⟨c, ser, ho⟩
      exact h.connConfigured (by rw [this]; simp)
    · exact absurd h1 hc

/-- A frame write starts (R195). -/
theorem Invariant.toWriting {s : State} (h : Invariant s) {c kind ms}
    (ho : s.opOf c = some (.ready kind ms)) (hl : s.connLock = none) (hconn : s.conn = .connected) :
    Invariant ({ s with connLock := some c }.setOp c (.writing kind)) := by
  have hwl := (h.writeLock c).2 ⟨_, ho, rfl⟩
  have hop : ∀ d, ({ s with connLock := some c }.setOp c (.writing kind)).opOf d = if d = c then some (.writing kind) else s.opOf d := fun d => State.opOf_setOp _ c d _
  refine ⟨tableWf_tablePut h.ops _ _, h.callers_put rfl hop (h.agent ho), h.rx, ?_, ?_, h.batchOwner, h.batch, ?_, ?_, ?_, ?_, ?_, ?_, h.connConfigured, h.unconfigured, h.topology, h.receivers, h.lost⟩
  · intro d
    show some c = some d ↔ _
    rw [hop]; by_cases hd : d = c
    · subst hd; simp [Phase.holdsConn]
    · simp only [hd, if_false, Option.some.injEq]
      constructor
      · intro e; exact absurd e.symm hd
      · rintro ⟨q, hq, hq2⟩; rw [h.noHold hl hq] at hq2; cases hq2
  · intro d
    show s.writeLock = some d ↔ _
    rw [hop]; by_cases hd : d = c
    · subst hd; simp [Phase.holdsWrite, hwl]
    · simp only [hd, if_false]; exact h.writeLock d
  · intro d k b
    rw [hop]; by_cases hd : d = c
    · subst hd; simp
    · simp only [hd, if_false]; exact h.waiting d k b
  · intro d hd; rw [hop] at hd; split_ifs at hd with hdc
    · cases hd
    · exact h.connectWaiting d hd
  · show s.conn = _ ↔ _
    constructor
    · intro e; rw [hconn] at e; cases e
    · rintro ⟨d, ser, hd⟩
      rw [hop] at hd
      split_ifs at hd with hdc
      · cases hd
      · have := h.noHold hl hd; cases this
  · intro d ser hd; rw [hop] at hd; split_ifs at hd with hdc; (· cases hd); exact h.opening d ser hd
  · intro d k hd; exact hconn
  · intro d hd; rw [hop] at hd; split_ifs at hd with hdc; (· cases hd); exact h.closing d hd

/-- A waiting caller's turn keeps the invariant (R220). -/
theorem Invariant.resumes {s : State} (h : Invariant s) {c p} (ho : s.opOf c = some p)
    : Invariant (resume c p s) := by
  cases p with
  | connectWait =>
    simp only [resume, acquireConn]
    have h0 : ∀ q, s.opOf c = some q → q.holdsConn = false ∧ q.holdsWrite = false := by intro q hq; rw [ho] at hq; cases hq; exact ⟨rfl, rfl⟩
    split
    · rename_i hl
      unfold connectBody
      split_ifs with hc
      · exact h.finish _ _ h0
      · refine h.startConn _ _ _ hl (h.agent ho) (fun q hq => (h0 q hq).2) (.inl ⟨rfl, rfl, ?_⟩)
        exact h.connectWaiting c ho
    · exact h.setOp_waiting _ _ (h.agent ho) h0 ⟨rfl, rfl⟩ (by intro k b e; cases e) (fun _ => h.connectWaiting c ho)
  | disconnectWait =>
    simp only [resume, acquireConn]
    have h0 : ∀ q, s.opOf c = some q → q.holdsConn = false ∧ q.holdsWrite = false := by intro q hq; rw [ho] at hq; cases hq; exact ⟨rfl, rfl⟩
    split
    · rename_i hl
      unfold disconnectBody
      split_ifs with hc
      · exact h.finish _ _ h0
      · exact h.startConn _ _ _ hl (h.agent ho) (fun q hq => (h0 q hq).2) (.inr ⟨rfl, rfl⟩)
    · exact h.setOp_waiting _ _ (h.agent ho) h0 ⟨rfl, rfl⟩ (by intro k b e; cases e) (by intro e; cases e)
  | writeWait kind b =>
    simp only [resume, acquireWrite]
    have h0 : ∀ q, s.opOf c = some q → q.holdsConn = false ∧ q.holdsWrite = false := by intro q hq; rw [ho] at hq; cases hq; exact ⟨rfl, rfl⟩
    obtain ⟨h1, h2, h3⟩ := h.waiting c kind b ho
    split
    · rename_i hl
      exact h.takeWrite _ _ _ hl (h.agent ho) (fun q hq => (h0 q hq).1) h1 h3
    · exact h.setOp_waiting _ _ (h.agent ho) h0 ⟨rfl, rfl⟩ (by intro k b e; cases e; exact ⟨h1, h2, h3⟩) (by intro e; cases e)
  | opening ser => exact h
  | closing => exact h
  | ready k ms => exact h
  | writing k => exact h

/-- The next frame of a batch. -/
theorem BatchOk.next {b : Batch} (hok : BatchOk b)
    (h : b.cur + 1 < b.frames.length ∨ (b.cur + 1 = b.frames.length ∧ b.anyBuffered = true)) :
    BatchOk { b with cur := b.cur + 1 } := by
  refine ⟨?_, ?_, hok.frames, hok.flush, hok.buffered⟩
  · show b.cur + 1 ≤ b.frames.length; omega
  · rcases h with h | ⟨h1, h2⟩
    · simp [Batch.current, h]
    · have : ¬ b.cur + 1 < b.frames.length := by omega
      simp only [Batch.current, this, if_false, h2, if_true]
      rw [← hok.buffered]; exact h2

/-- The device's answer to a write keeps the invariant (R195). -/
theorem Invariant.write_answered {s : State} (h : Invariant s) {c kind b f} (a)
    (ho : s.opOf c = some (.writing kind)) (hb : s.batch = some b) :
    Invariant (writeAnswer c kind b f a s) := by
  have hc : s.configured = true := h.connConfigured (by rw [h.writing c kind ho]; simp)
  obtain ⟨hbc, hwl, hcl⟩ := h.batch_of_writing ho hb
  unfold writeAnswer
  split_ifs with ha
  · have h1 := h.wireAppend (f.take a.accepted) (some a.duration) true hc
    exact h1.batch_ends (c := c) (p := .writing kind) ho rfl (.inr hcl) _
  · have h1 := h.wireAppend (f.take f.length) (some a.duration) s.truncated hc
    have hok := h.batch b hb
    rcases advanceBatch_cases c kind b (wroteBytes f f.length a.duration s) with ⟨h2, e⟩ | ⟨h2, h3, e⟩ | ⟨_, _, e⟩
    · rw [e]
      exact h1.toReady (c := c) ho hb { b with cur := b.cur + 1 } (BatchOk.next hok (.inl h2)) rfl _
    · rw [e]
      exact h1.toReady (c := c) ho hb { b with cur := b.cur + 1 } (BatchOk.next hok (.inr ⟨h2, h3⟩)) rfl _
    · rw [e]
      exact h1.batch_ends (c := c) (p := .writing kind) ho rfl (.inr hcl) _

end Sys2Proof.Machine
end

