-- ==== Sys2Proof/Laws/PerInstr.lean ====
section
/-! SUPPORT. Statements about every instruction, one lemma a constructor. -/

namespace Sys2Proof.Laws.RoundTrip

open Sys2Proof Sys2Proof.Machine

/-- Decoding the code of a well-formed instruction gives it back. -/
def Statement (i : Instr) : Prop := i.wf = true → decode (encode i) = .ok i

@[simp] theorem orientationOfCode_code (o : Orientation) :
    orientationOfCode (orientationCode o) = some o := by
  cases o <;> decide

theorem decode_panel (p : PanelConfig) : p.encode.decode = .ok p := by
  simp [PanelConfig.encode, RawPanel.decode]

theorem decode_panels (ps : List PanelConfig) :
    decodePanels (ps.map PanelConfig.encode) = .ok ps := by
  induction ps with
  | nil => rfl
  | cons p ps ih => simp [decodePanels, decode_panel, ih]

theorem decode_config (c : Config) : c.encode.decode = .ok c := by
  simp [Config.encode, RawConfig.decode, decode_panels]

/-- A wire frame with its command's data length decodes to its instruction. -/
theorem decode_wire (f : WireFrame) (h : f.data.length = f.cmd.dataLen) :
    decode (.wire f.bytes) = .ok f.instr := by
  have := cutFrame_bytes h []
  rw [List.append_nil] at this
  simp [decode, this]

/-- An orientation's code and a grid decode to that orientation of the grid. -/
theorem decode_orient (o : Orientation) (g : Grid) (h : g.wf = true) :
    decode (.orient (orientationCode o) g) = .ok (orientInstr o g) := by
  simp [decode, decodeOrient, h]

theorem configure (cfg : Config) : Statement (.configure cfg) := fun _ => by
  simp [encode, decode, decodeHost, hostOpOfLabel, HostOp.label, decodeOperands, decode_config]
theorem decodeRbm (msg : List Byte) : Statement (.decodeRbm msg) := fun _ => rfl
theorem decodeFdis (msg : List Byte) : Statement (.decodeFdis msg) := fun _ => rfl
theorem map (frame : Frame) : Statement (.map frame) := fun _ => rfl
theorem encodePanel (addr : Byte) (data : List Byte) (mode : Mode) :
    Statement (.encodePanel addr data mode) := fun _ => by cases mode <;> rfl
theorem encodeFlush (addr : Byte) : Statement (.encodeFlush addr) := fun _ => rfl
theorem connect : Statement .connect := fun _ => rfl
theorem disconnect : Statement .disconnect := fun _ => rfl
theorem sendFrame (bytes : List Byte) : Statement (.sendFrame bytes) := fun _ => rfl
theorem sendFlush : Statement .sendFlush := fun _ => rfl
theorem tick (frame : Frame) : Statement (.tick frame) := fun _ => rfl
theorem queryStatus : Statement .queryStatus := fun _ => rfl
theorem data7I (addr : Byte) (data : List Byte) : Statement (.data7I addr data) := fun h =>
  decode_wire ⟨.data7I, addr, data⟩ (by simpa [Instr.wf, Command.dataLen] using h)
theorem data14I (addr : Byte) (data : List Byte) : Statement (.data14I addr data) := fun h =>
  decode_wire ⟨.data14I, addr, data⟩ (by simpa [Instr.wf, Command.dataLen] using h)
theorem data14B (addr : Byte) (data : List Byte) : Statement (.data14B addr data) := fun h =>
  decode_wire ⟨.data14B, addr, data⟩ (by simpa [Instr.wf, Command.dataLen] using h)
theorem data28I (addr : Byte) (data : List Byte) : Statement (.data28I addr data) := fun h =>
  decode_wire ⟨.data28I, addr, data⟩ (by simpa [Instr.wf, Command.dataLen] using h)
theorem data28B (addr : Byte) (data : List Byte) : Statement (.data28B addr data) := fun h =>
  decode_wire ⟨.data28B, addr, data⟩ (by simpa [Instr.wf, Command.dataLen] using h)
theorem flush (addr : Byte) : Statement (.flush addr) := fun _ => decode_wire ⟨.flush, addr, []⟩ rfl
theorem orientNormal (grid : Grid) : Statement (.orientNormal grid) := decode_orient .normal grid
theorem orientRot90 (grid : Grid) : Statement (.orientRot90 grid) := decode_orient .rot90 grid
theorem orientRot180 (grid : Grid) : Statement (.orientRot180 grid) := decode_orient .rot180 grid
theorem orientRot270 (grid : Grid) : Statement (.orientRot270 grid) := decode_orient .rot270 grid
theorem orientFliph (grid : Grid) : Statement (.orientFliph grid) := decode_orient .fliph grid
theorem orientFlipv (grid : Grid) : Statement (.orientFlipv grid) := decode_orient .flipv grid

end Sys2Proof.Laws.RoundTrip
end

