-- ==== Sys2Proof/Laws/Tick.lean ====
section
/-! SUPPORT. What a TICK builds before its first frame write, and what taking the write lock does. -/

namespace Sys2Proof.Machine

/-- Taking the write lock: every other caller's operation stays; with the lock free the batch is in place and
the caller stands before its first frame write; else only the caller's phase is new (R204, R220). -/
theorem acquireWrite_spec (c : Caller) (kind : TxKind) (b : Batch) (s : State) :
    (∀ d, d ≠ c → (acquireWrite c kind b s).opOf d = s.opOf d) ∧
    (s.writeLock = none → acquireWrite c kind b s =
        { s with writeLock := some c, batch := some b, ops := (acquireWrite c kind b s).ops } ∧
      (acquireWrite c kind b s).opOf c = some (.ready kind 0)) ∧
    (s.writeLock ≠ none → acquireWrite c kind b s = { s with ops := (acquireWrite c kind b s).ops } ∧
      (acquireWrite c kind b s).opOf c = some (.writeWait kind b)) := by
  by_cases h : s.writeLock = none
  · have e : acquireWrite c kind b s =
        { s with writeLock := some c, batch := some b }.setOp c (.ready kind 0) := by
      simp only [acquireWrite, h]
    rw [e]
    exact ⟨fun d hd => State.opOf_setOp_ne _ _ hd, fun _ => ⟨rfl, State.opOf_setOp_self _ _ _⟩,
      fun hn => absurd h hn⟩
  · obtain ⟨x, hx⟩ := Option.ne_none_iff_exists'.1 h
    have e : acquireWrite c kind b s = s.setOp c (.writeWait kind b) := by
      simp only [acquireWrite, hx]
    rw [e]
    exact ⟨fun d hd => State.opOf_setOp_ne _ _ hd, fun hn => absurd hn h,
      fun _ => ⟨rfl, State.opOf_setOp_self _ _ _⟩⟩

/-- A panel's slice has one byte a column. -/
theorem length_panelCols (frame : Frame) (p : PanelConfig) :
    (panelCols frame p).length = dataWidth p := by
  simp [panelCols, panelGrid_w]

/-- The command of a tick's panel frame, from its width and mode (R88, R208). -/
theorem cmdLookup_refreshMode {cfg : Config} {w : Nat} (hw : w = 7 ∨ w = 14 ∨ w = 28) :
    (cmdLookup w (refreshMode cfg w)).map Command.byte = some (tickCommand cfg w) := by
  unfold cmdLookup refreshMode tickCommand
  by_cases hb : cfg.bufferedModeEnabled = true <;> by_cases hc : 1 < cfg.panels.length <;>
    rcases hw with h | h | h <;> simp [h, hb, hc, Command.byte]

/-- The encoder never fails on a panel of a supported width (R122). -/
theorem encodePanel_payloadOf {cfg : Config} {frame : Frame} {k : Nat} {p : PanelConfig}
    (hp : dataWidth p = 7 ∨ dataWidth p = 14 ∨ dataWidth p = 28) :
    encodePanel (payloadOf frame k p).addr (payloadOf frame k p).cols
      (refreshMode cfg (payloadOf frame k p).w) = .ok (tickFrameBytes cfg frame p) := by
  have hl : (payloadOf frame k p).cols.length = dataWidth p := length_panelCols frame p
  have hw : (payloadOf frame k p).w = dataWidth p := rfl
  obtain ⟨cmd, hc, hb⟩ := Option.map_eq_some_iff.1 (cmdLookup_refreshMode (cfg := cfg) hp)
  unfold encodePanel
  rw [hl, hw, hc]
  unfold tickFrameBytes
  rw [← hb]
  rfl

/-- The panel frames of a tick, in configuration order (R205). -/
theorem tickFrames_payloadsOf {cfg : Config} {frame : Frame} (k : Nat) {ps : List PanelConfig}
    (h : ∀ p ∈ ps, dataWidth p = 7 ∨ dataWidth p = 14 ∨ dataWidth p = 28) :
    tickFrames cfg (payloadsOf frame k ps) = .ok (ps.map (tickFrameBytes cfg frame)) := by
  induction ps generalizing k with
  | nil => rfl
  | cons p ps ih =>
    simp only [payloadsOf, tickFrames, encodePanel_payloadOf (h p List.mem_cons_self),
      ih (k + 1) (fun q hq => h q (List.mem_cons_of_mem _ hq)), List.map_cons]

/-- When a tick has a buffered panel (R208). -/
theorem anyBuffered_payloadsOf (cfg : Config) (frame : Frame) (k : Nat) (ps : List PanelConfig) :
    anyBuffered cfg (payloadsOf frame k ps) = true ↔ cfg.bufferedModeEnabled = true ∧
      1 < cfg.panels.length ∧ ∃ p ∈ ps, dataWidth p = 14 ∨ dataWidth p = 28 := by
  unfold anyBuffered
  induction ps generalizing k with
  | nil => simp [payloadsOf]
  | cons p ps ih =>
    have hw : (payloadOf frame k p).w = dataWidth p := rfl
    simp only [payloadsOf, List.any_cons, Bool.or_eq_true, ih, hw]
    simp only [refreshMode, List.mem_cons, exists_eq_or_imp]
    by_cases hh : cfg.bufferedModeEnabled = true ∧ 1 < cfg.panels.length ∧
        (dataWidth p = 14 ∨ dataWidth p = 28)
    · simp [hh]
    · simp only [hh, if_false]; simp; tauto

/-- The batch of a tick, up to taking the write lock (R205, R212). -/
theorem exec_tick {s : State} {frame : Frame} (hc : s.configured = true) (hv : ValidTopology s.cfg)
    (hne : s.cfg.panels ≠ []) (hf : FrameFits s.cfg frame) {fl : Bool}
    (hfl : fl = true ↔ tickBuffered s.cfg) :
    exec (.tick frame) s = .next (acquireWrite s.turn .tick
      ⟨s.turn, s.cfg.panels.map (tickFrameBytes s.cfg frame), 0, fl,
        if fl then some [0x80, 0x82, s.cfg.flushAddress, 0x8F] else none⟩ s) := by
  have h1 := mapFrame_ok hc hf
  have h2 : payloadsOf frame 0 s.cfg.panels ≠ [] := by
    intro h
    have := congrArg List.length h
    rw [length_payloadsOf] at this
    exact hne (List.length_eq_zero_iff.1 this)
  have h3 := tickFrames_payloadsOf (cfg := s.cfg) (frame := frame) 0
    (fun p hp => (hv.panels p hp).2.2.2.2.2)
  have h4 : anyBuffered s.cfg (payloadsOf frame 0 s.cfg.panels) = fl := by
    rw [Bool.eq_iff_iff, anyBuffered_payloadsOf, hfl]; rfl
  simp only [exec, execTick, startTick, h1, h2, if_false, h3, h4, tickFlush]
  rfl

end Sys2Proof.Machine
end

