-- ==== Sys2Proof/Tests/Slice0.lean ====
section
/-! SUPPORT. Tests: ill-formed terms are refused, words written out from the spec decode to their instructions, one or
two vectors of 95_test_vectors.md an instruction, and for every statement with hypotheses a state that meets them. -/

namespace Sys2Proof.Tests

open Sys2Proof Sys2Proof.Machine

/-! ### Helpers -/

/-- A panel of 95_test_vectors.md: `P(addr, x, y, w, h, orient)`. -/
def panel (addr x y w h : Nat) (o : Orientation) : PanelConfig := ⟨"", addr, x, y, w, h, o⟩

/-- A configuration with section 95's defaults. -/
def config (w h : Nat) (ps : List PanelConfig) : Config :=
  { cfgAtReset with
    canvasW := w, canvasH := h, panels := ps, strictTopology := true, bufferedModeEnabled := true }

/-- The same without the strict topology. -/
def lax (w h : Nat) (ps : List PanelConfig) : Config := { config w h ps with strictTopology := false }

/-- A host frame. -/
def hostFrame (w h : Nat) (bits : List Byte) : Frame := ⟨w, h, bits, 0, 0, 0, none, .host⟩

/-- `b×n`. -/
def times (n : Nat) (bs : List Byte) : List Byte := (List.replicate n bs).flatten

/-- Configuration C1: one 28×7 panel. -/
def one : Config := config 28 7 [panel 0 0 0 28 7 .normal]

/-- The configuration of L1-7: two stacked 28×7 panels. -/
def two : Config := config 28 14 [panel 0 0 0 28 7 .normal, panel 1 0 7 28 7 .normal]

/-- A 7×7 panel at address 5. -/
def small : Config := config 7 7 [panel 5 0 0 7 7 .normal]

/-- Two 14×7 panels side by side, both buffered. -/
def pair : Config := config 28 7 [panel 0 0 0 14 7 .normal, panel 1 14 0 14 7 .normal]

/-- A configured block with nothing under way. -/
def ready (cfg : Config) (conn : ConnState) : State :=
  { State.reset with configured := true, cfg := cfg, conn := conn }

/-- A field of the next state. -/
def after {α : Type} (o : Host.Outcome State Fault Refusal) (f : State → α) : Option α :=
  match o with
  | .next t => some (f t)
  | .fault _ => none
  | .refused _ => none

/-- The results an operation has returned, from a state in which none was. -/
def answers (i : Instr) (s : State) : Option (List Result) :=
  after (exec i s) fun t => t.results.map Returned.result

/-- The instruction decoded from a code. -/
def decoded (c : Code) : Option Instr :=
  match decode c with
  | .ok i => some i
  | .error _ => none

/-- The device takes every byte. -/
def full : DeviceAnswer := ⟨true, 9, 1000, 5⟩

/-- The device refuses an open or a close, and takes `k` bytes of a write. -/
def partly (k : Nat) : DeviceAnswer := ⟨false, 9, k, 5⟩

/-! ### Well-formedness: each check has a term it refuses -/

theorem test_wf_data7I : (Instr.data7I 0 (times 6 [0])).wf = false := by decide
theorem test_wf_data14I : (Instr.data14I 0 (times 7 [0])).wf = false := by decide
theorem test_wf_data14B : (Instr.data14B 0 (times 15 [0])).wf = false := by decide
theorem test_wf_data28I : (Instr.data28I 0 (times 27 [0])).wf = false := by decide
theorem test_wf_data28B : (Instr.data28B 0 (times 29 [0])).wf = false := by decide
theorem test_wf_orientNormal : (Instr.orientNormal ⟨2, 1, [[true]]⟩).wf = false := by decide
theorem test_wf_orientRot90 : (Instr.orientRot90 ⟨1, 2, [[true]]⟩).wf = false := by decide
theorem test_wf_orientRot180 : (Instr.orientRot180 ⟨0, 0, [[]]⟩).wf = false := by decide
theorem test_wf_orientRot270 : (Instr.orientRot270 ⟨2, 1, [[true], []]⟩).wf = false := by decide
theorem test_wf_orientFliph : (Instr.orientFliph ⟨1, 0, [[false]]⟩).wf = false := by decide
theorem test_wf_orientFlipv : (Instr.orientFlipv ⟨1, 1, []⟩).wf = false := by decide
theorem test_wf_sound : (Instr.data7I 0 (times 7 [0])).wf = true ∧
    (Instr.orientRot90 ⟨1, 2, [[true, false]]⟩).wf = true := by decide

/-! ### Decoding: codes written out from the tables of R88 to R91 and R97, and from the examples of R168 to
R174 -/

theorem test_decode_configure :
    decoded (.host 0x01 (.config ⟨7, 7, [⟨"", 5, 0, 0, 7, 7, 0⟩], true, true, 0xFF, 0,
      ⟨"", 0, 0, 0, 0⟩, 0, 0⟩)) = some (.configure small) := by decide
theorem test_decode_decodeRbm : decoded (.host 0x10 (.message [0x52])) = some (.decodeRbm [0x52]) := by decide
theorem test_decode_decodeFdis : decoded (.host 0x11 (.message [0x46])) = some (.decodeFdis [0x46]) := by decide
theorem test_decode_map : decoded (.host 0x20 (.frame (hostFrame 1 1 [0x80]))) =
    some (.map (hostFrame 1 1 [0x80])) := by decide
theorem test_decode_encodePanel : decoded (.host 0x28 (.panel 2 [1] 0)) =
    some (.encodePanel 2 [1] .instant) ∧
    decoded (.host 0x28 (.panel 2 [1] 1)) = some (.encodePanel 2 [1] .buffered) := by decide
theorem test_decode_encodeFlush : decoded (.host 0x29 (.address 9)) = some (.encodeFlush 9) := by decide
theorem test_decode_connect : decoded (.host 0x30 .none) = some .connect := by decide
theorem test_decode_disconnect : decoded (.host 0x31 .none) = some .disconnect := by decide
theorem test_decode_sendFrame : decoded (.host 0x32 (.message [1, 2])) = some (.sendFrame [1, 2]) := by decide
theorem test_decode_sendFlush : decoded (.host 0x33 .none) = some .sendFlush := by decide
theorem test_decode_tick : decoded (.host 0x34 (.frame (hostFrame 1 1 [0x80]))) =
    some (.tick (hostFrame 1 1 [0x80])) := by decide
theorem test_decode_queryStatus : decoded (.host 0x40 .none) = some .queryStatus := by decide
theorem test_decode_data7I : decoded (.wire [0x80, 0x87, 5, 1, 0, 0, 0, 0, 0, 0, 0x8F]) =
    some (.data7I 5 [1, 0, 0, 0, 0, 0, 0]) := by decide
theorem test_decode_data14I :
    decoded (.wire [0x80, 0x92, 1, 0, 0, 0, 0, 0, 0, 0, 0, 0, 0, 0, 0, 0, 7, 0x8F]) =
      some (.data14I 1 [0, 0, 0, 0, 0, 0, 0, 0, 0, 0, 0, 0, 0, 7]) := by decide
theorem test_decode_data14B :
    decoded (.wire [0x80, 0x93, 2, 1, 1, 1, 1, 1, 1, 1, 1, 1, 1, 1, 1, 1, 1, 0x8F]) =
      some (.data14B 2 (times 14 [1])) := by decide
theorem test_decode_data28I :
    decoded (.wire [0x80, 0x83, 0, 1, 0, 0, 0, 0, 0, 0, 0, 0, 0, 0, 0, 0, 0, 0, 0, 0, 0, 0, 0, 0, 0, 0, 0,
      0, 0, 0, 0, 0x8F]) = some (.data28I 0 (1 :: times 27 [0])) := by decide
theorem test_decode_data28B :
    decoded (.wire [0x80, 0x84, 0, 0x7F, 0, 0, 0, 0, 0, 0, 0, 0, 0, 0, 0, 0, 0, 0, 0, 0, 0, 0, 0, 0, 0, 0,
      0, 0, 0, 0, 0x80, 0x8F]) = some (.data28B 0 (0x7F :: times 26 [0] ++ [0x80])) := by decide
theorem test_decode_flush : decoded (.wire [0x80, 0x82, 0xFF, 0x8F]) = some (.flush 0xFF) := by decide

/-- The grid of L1-2, with a, d, f set. -/
def abc : Grid := ⟨2, 3, [[true, false, false], [true, false, true]]⟩

theorem test_decode_orientNormal : decoded (.orient 0 abc) = some (.orientNormal abc) := by decide
theorem test_decode_orientRot90 : decoded (.orient 1 abc) = some (.orientRot90 abc) := by decide
theorem test_decode_orientRot180 : decoded (.orient 2 abc) = some (.orientRot180 abc) := by decide
theorem test_decode_orientRot270 : decoded (.orient 3 abc) = some (.orientRot270 abc) := by decide
theorem test_decode_orientFliph : decoded (.orient 4 abc) = some (.orientFliph abc) := by decide
theorem test_decode_orientFlipv : decoded (.orient 5 abc) = some (.orientFlipv abc) := by decide

/-- What is no instruction is refused by name: a label, an orientation, a mode outside its table, an undefined
command (R93), a frame cut short, one without its end byte, and bytes after it (R101). -/
theorem test_decode_refuses :
    decode (.host 0x02 .none) = .error (.unknownLabel 0x02) ∧
    decode (.orient 6 abc) = .error (.unknownOrientation 6) ∧
    decode (.orient 0 ⟨1, 1, []⟩) = .error .wrongOperand ∧
    decode (.host 0x28 (.panel 0 [] 2)) = .error (.unknownMode 2) ∧
    decode (.host 0x34 .none) = .error .wrongOperand ∧
    decode (.wire [0x80, 0x81, 0, 0x8F]) = .error (.unknownCommand 0x81) ∧
    decode (.wire [0x81, 0x82, 0, 0x8F]) = .error .noStartByte ∧
    decode (.wire [0x80, 0x82, 0xFF]) = .error .incompleteFrame ∧
    decode (.wire [0x80, 0x82, 0xFF, 0x8E]) = .error .noEndByte ∧
    decode (.wire [0x80, 0x82, 0xFF, 0x8F, 0]) = .error .trailingBytes := ⟨rfl, rfl, rfl, rfl, rfl, rfl, rfl, rfl, rfl, rfl⟩

/-- The opcode table's words (log 5): the label 0x01 wins over the orientation code of the same value. -/
theorem test_table_words :
    decodeTableWord 8 0x01 = some (.configure ⟨0, 0, [], false, false, 0, 0, ⟨"", 0, 0, 0, 0⟩, 0, 0⟩) ∧
    decodeTableWord 8 0x40 = some .queryStatus ∧
    decodeTableWord 8 0x03 = some (.orientRot270 ⟨0, 0, []⟩) ∧
    decodeTableWord 16 0x8087 = some (.data7I 0 (times 7 [0])) ∧
    decodeTableWord 16 0x8082 = some (.flush 0) ∧
    decodeTableWord 8 0x06 = none ∧ decodeTableWord 16 0x8081 = none ∧
    decodeTableWord 24 0x01 = none := by decide

/-- From reset, a word placed where the next step takes it runs there (log 3): CONNECT answers NotConfigured,
and a flush frame on the wire moves the receivers past it. -/
theorem test_fetch_word :
    after (step (State.reset.withFetchWord 8 0x30)) (fun t => t.results) =
      some [⟨0, .err .notConfigured⟩] ∧
    after (step (State.reset.withFetchWord 8 0x02)) (fun t => t.results) =
      some [⟨0, .ok (.grid ⟨0, 0, []⟩)⟩] ∧
    after (step (State.reset.withFetchWord 16 0x8082)) (fun t => (t.rxPos, t.rxLost)) =
      some (4, false) := by decide

/-! ### Vectors of 95_test_vectors.md, one step each -/

/-- C1, C9, C13, C16: accepted, and the configuration is latched. -/
theorem test_configure_accepts :
    after (exec (.configure one) State.reset) (fun t => (t.configured, t.cfg)) = some (true, one) ∧
    answers (.configure (config 7 28 [panel 0 0 0 7 28 .rot90])) State.reset = some [.ok .unit] ∧
    answers (.configure (config 28 7 [])) State.reset = some [.ok .unit] ∧
    answers (.configure (config 28 8 [panel 0 0 0 28 8 .normal])) State.reset = some [.ok .unit] := by decide

/-- C2, C3, C4, C5, C7, C8, C10, C11, C12, C14, C15. -/
theorem test_configure_rejects :
    answers (.configure two) (ready one .disconnected) = some [.err .alreadyConfigured] ∧
    answers (.configure (config 0 7 [panel 0 0 0 28 7 .normal])) State.reset =
      some [.err (.invalidCanvas 0 7)] ∧
    answers (.configure (config 28 7 [panel 256 0 0 28 7 .normal])) State.reset =
      some [.err (.addressOutOfRange 0)] ∧
    answers (.configure (config 28 7 [panel 0 1 0 28 7 .normal])) State.reset =
      some [.err (.panelOutOfBounds 0)] ∧
    answers (.configure (config 28 7 [panel 0 0 0 27 7 .normal])) State.reset =
      some [.err (.unsupportedDataWidth 0)] ∧
    answers (.configure (config 7 28 [panel 0 0 0 7 28 .normal])) State.reset =
      some [.err (.unsupportedPanelHeight 0)] ∧
    answers (.configure (config 56 7 [panel 3 0 0 28 7 .normal, panel 3 28 0 28 7 .normal]))
      State.reset = some [.err (.duplicateAddress 0 1)] ∧
    answers (.configure (config 42 7 [panel 0 0 0 28 7 .normal, panel 1 28 0 14 7 .normal]))
      State.reset = some [.err (.mixedWidthClass 0 1)] ∧
    answers (.configure (config 28 7 [panel 0 0 0 28 7 .normal, panel 1 0 0 28 7 .normal]))
      State.reset = some [.err (.panelOverlap 0 1)] ∧
    answers (.configure (config 28 7 [panel 0 5 0 28 7 .normal, panel 0 0 0 28 7 .normal]))
      State.reset = some [.err (.panelOutOfBounds 0)] ∧
    answers (.configure (config 28 7 [panel 300 5 0 28 7 .normal])) State.reset =
      some [.err (.addressOutOfRange 0)] := by decide

/-- B2: the reserved bytes are ignored. -/
theorem test_decodeRbm_b2 :
    answers (.decodeRbm ([0x52, 0x42, 0x01, 0xA5, 0x00, 0x09, 0x00, 0x03, 0xFF, 0xFF, 0xFF, 0xFF, 0x00,
      0x21, 0x12, 0x34] ++ [0x80, 0, 0, 0, 0, 0x80])) State.reset =
    some [.ok (.frame ⟨9, 3, [0x80, 0, 0, 0, 0, 0x80], 4294967295, 33, 0xA5, none, .rbm⟩)] := by decide

/-- B4, B6, B7, B8. -/
theorem test_decodeRbm_rejects :
    answers (.decodeRbm ([0x52, 0x42, 0x02] ++ times 13 [0])) State.reset =
      some [.err .badMagicOrVersion] ∧
    answers (.decodeRbm ([0x52, 0x42, 0x01] ++ times 12 [0])) State.reset =
      some [.err (.shortHeader 15)] ∧
    answers (.decodeRbm [0x52, 0x43, 0x01]) State.reset = some [.err (.shortHeader 3)] ∧
    answers (.decodeRbm ([0x52, 0x42, 0x01, 0, 0, 0x1C, 0, 7, 0, 0, 0, 1, 0, 0, 0, 0, 0x80]
      ++ times 26 [0])) State.reset = some [.err (.shortPayload 28 27)] := by decide

/-- F2. -/
theorem test_decodeFdis_f2 :
    answers (.decodeFdis [0x46, 0x44, 0x49, 0x53, 0xFF, 0xFF, 0x78, 0x56, 0x34, 0x12, 1, 0, 1, 0, 1, 0,
      0x80]) State.reset =
    some [.ok (.frame ⟨1, 1, [0x80], 65535, 0, 0, some 0x12345678, .fdis⟩)] := by decide

/-- F3, F4, F12 and F13 (on a 1×1 canvas), F10, F11, F15. -/
theorem test_decodeFdis_rejects :
    answers (.decodeFdis [0x46, 0x44, 0x49, 0x53, 0, 0, 0, 0, 0, 0, 1, 0, 1, 0, 0, 0]) State.reset =
      some [.err (.payloadLengthMismatch 1 0)] ∧
    answers (.decodeFdis [0x46, 0x44, 0x49, 0x53, 0, 0, 0, 0, 0, 0, 1, 0, 1, 0, 2, 0, 0, 0]) State.reset =
      some [.err (.payloadLengthMismatch 1 2)] ∧
    answers (.decodeFdis [0x46, 0x44, 0x49, 0x53, 0, 0, 0, 0, 0, 0, 1, 0, 1, 0, 1, 0]) State.reset =
      some [.err (.shortPayload 1 0)] ∧
    answers (.decodeFdis [0x46, 0x44, 0x49, 0x53, 0, 0, 0, 0, 0, 0, 1, 0, 1, 0, 1, 0, 0, 0]) State.reset =
      some [.err (.payloadLengthMismatch 1 2)] ∧
    answers (.decodeFdis [0x46, 0x44, 0x49, 0x53, 0, 0, 0, 0, 0, 0, 0, 0, 1, 0, 0, 0]) State.reset =
      some [.err (.dimensionOutOfRange 0 1)] ∧
    answers (.decodeFdis [0x46, 0x44, 0x49, 0x54, 0, 0, 0, 0, 0, 0, 1, 4, 1, 0, 0, 0]) State.reset =
      some [.err .badMagicOrVersion] ∧
    answers (.decodeFdis [0x46, 0x44, 0x49, 0x53, 1, 0, 0, 0, 0, 0, 0, 0x1C, 0, 7, 0, 0]) State.reset =
      some [.err (.dimensionOutOfRange 7168 1792)] := by decide

/-- M7: a rot90 panel. -/
theorem test_map_m7 :
    answers (.map (hostFrame 7 28 (0x80 :: times 27 [0])))
      (ready (config 7 28 [panel 0 0 0 7 28 .rot90]) .disconnected) =
    some [.ok (.payloads [⟨0, 0, 28, 7, [0, 0, 0, 0x10] ++ times 24 [0], times 27 [0] ++ [1]⟩])] := by
  decide +kernel

/-- M17, M18, M19, M21, M22. -/
theorem test_map_rejects :
    answers (.map (hostFrame 28 7 (times 27 [0]))) (ready one .disconnected) =
      some [.err (.canvasLengthMismatch 28 27)] ∧
    answers (.map (hostFrame 28 7 (times 28 [0]))) (ready two .disconnected) =
      some [.err (.panelOutOfBounds 1)] ∧
    answers (.map (hostFrame 28 7 (times 28 [0]))) State.reset = some [.err .notConfigured] ∧
    answers (.map (hostFrame 28 7 (times 28 [0]))) (ready (config 28 7 []) .disconnected) =
      some [.ok (.payloads [])] ∧
    answers (.map (hostFrame 0 0 [])) (ready one .disconnected) =
      some [.err (.panelOutOfBounds 0)] := by decide

/-- E1, E6, E13. -/
theorem test_encodePanel_frames :
    answers (.encodePanel 5 (1 :: times 6 [0]) .instant) State.reset =
      some [.ok (.bytes [0x80, 0x87, 5, 1, 0, 0, 0, 0, 0, 0, 0x8F])] ∧
    answers (.encodePanel 9 [] .buffered) State.reset = some [.ok (.bytes [0x80, 0x82, 9, 0x8F])] ∧
    answers (.encodePanel 0 (0x80 :: times 26 [0] ++ [0x8F]) .instant) State.reset =
      some [.ok (.bytes ([0x80, 0x83, 0, 0x80] ++ times 26 [0] ++ [0x8F, 0x8F]))] := by decide

/-- E9, E10, E11, E12. -/
theorem test_encodePanel_rejects :
    answers (.encodePanel 0 (times 7 [0]) .buffered) State.reset =
      some [.err (.unsupportedDataWidthMode 7 .buffered)] ∧
    answers (.encodePanel 0 (times 8 [0]) .instant) State.reset =
      some [.err (.unsupportedDataWidthMode 8 .instant)] ∧
    answers (.encodePanel 0 (times 27 [0]) .buffered) State.reset =
      some [.err (.unsupportedDataWidthMode 27 .buffered)] ∧
    answers (.encodePanel 0 (times 29 [0]) .instant) State.reset =
      some [.err (.unsupportedDataWidthMode 29 .instant)] := by decide

/-- E7, E8. -/
theorem test_encodeFlush :
    answers (.encodeFlush 0xFF) State.reset = some [.ok (.bytes [0x80, 0x82, 0xFF, 0x8F])] ∧
    answers (.encodeFlush 0) State.reset = some [.ok (.bytes [0x80, 0x82, 0x00, 0x8F])] := by decide

/-- T1, T4, and the first half of T2. -/
theorem test_connect :
    answers .connect State.reset = some [.err .notConfigured] ∧
    answers .connect (ready one .connected) = some [.ok .unit] ∧
    after (exec .connect (ready one .disconnected)) (fun t => (t.conn, t.connLock, t.results)) =
      some (.connecting, some 0, []) := by decide

/-- An open at the device, from caller 0. -/
def opening : State :=
  { ready one .connecting with connLock := some 0, ops := [(0, .opening one.serial)] }

/-- T2, T3: the device answers the open. -/
theorem test_open_answers :
    after (step { opening with schedule := [.device full] }) (fun t => (t.conn, t.results)) =
      some (.connected, [⟨0, .ok .unit⟩]) ∧
    after (step { opening with schedule := [.device (partly 0)] }) (fun t => (t.conn, t.results)) =
      some (.disconnected, [⟨0, .err (.connectError 9)⟩]) := by decide

/-- T5, and the first half of T6. -/
theorem test_disconnect :
    answers .disconnect State.reset = some [.ok .unit] ∧
    after (exec .disconnect (ready one .connected)) (fun t => (t.conn, t.connLock, t.results)) =
      some (.disconnected, some 0, []) := by decide

/-- A close at the device, from caller 0. -/
def closing : State :=
  { ready one .disconnected with connLock := some 0, ops := [(0, .closing)] }

/-- T6, T7: the device answers the close. -/
theorem test_close_answers :
    after (step { closing with schedule := [.device full] }) (fun t => (t.conn, t.results)) =
      some (.disconnected, [⟨0, .ok .unit⟩]) ∧
    after (step { closing with schedule := [.device (partly 0)] }) (fun t => (t.conn, t.results)) =
      some (.disconnected, [⟨0, .err (.disconnectError 9)⟩]) := by decide

/-- A transmit operation of caller 0 before its next frame write. -/
def before (cfg : Config) (conn : ConnState) (kind : TxKind) (b : Batch) : State :=
  { ready cfg conn with writeLock := some 0, batch := some b, ops := [(0, .ready kind 0)] }

/-- The same with its frame at the device. -/
def writing (cfg : Config) (kind : TxKind) (b : Batch) : State :=
  { before cfg .connected kind b with connLock := some 0, ops := [(0, .writing kind)] }

/-- A batch of one flush frame, as SEND_FLUSH builds it. -/
def flushBatch : Batch := ⟨0, [[0x80, 0x82, 0xFF, 0x8F]], 0, false, none⟩

/-- T10, T15 up to its write, T9's write. -/
theorem test_sendFrame :
    answers (.sendFrame []) State.reset = some [.ok .unit] ∧
    after (exec (.sendFrame [1, 2, 3]) (ready one .connected)) (fun t => (t.writeLock, t.batch)) =
      some (some 0, some ⟨0, [[1, 2, 3]], 0, false, none⟩) ∧
    after (step { before one .disconnected .send flushBatch with schedule := [.transmitter] })
      (fun t => (t.wire, t.lastWriteDuration, t.results)) =
      some ([], none, [⟨0, .err (.notConnected none)⟩]) := by decide

/-- T11, T12: the device answers the write. -/
theorem test_write_answers :
    after (step { writing one .send flushBatch with schedule := [.device full] })
      (fun t => (t.wire, t.lastWriteDuration, t.results)) =
      some ([0x80, 0x82, 0xFF, 0x8F], some 5, [⟨0, .ok .unit⟩]) ∧
    after (step { writing one .send flushBatch with schedule := [.device (partly 2)] })
      (fun t => (t.wire, t.truncated, t.results)) =
      some ([0x80, 0x82], true, [⟨0, .err (.shortWrite 2 4 none)⟩]) := by decide

/-- T13, and T14 up to its write. -/
theorem test_sendFlush :
    answers .sendFlush State.reset = some [.err .notConfigured] ∧
    after (exec .sendFlush (ready one .connected)) (fun t => t.batch) = some (some flushBatch) := by
  decide

/-- K4's batch: an instant frame, a buffered one, and the flush. -/
theorem test_tick_k4 :
    after (exec (.tick (hostFrame 35 7 (times 35 [0xFF])))
      (ready (lax 35 7 [panel 0 0 0 7 7 .normal, panel 1 7 0 28 7 .normal]) .connected))
      (fun t => t.batch) =
    some (some ⟨0, [[0x80, 0x87, 0] ++ times 7 [0x7F] ++ [0x8F],
      [0x80, 0x84, 1] ++ times 28 [0x7F] ++ [0x8F]], 0, true, some [0x80, 0x82, 0xFF, 0x8F]⟩) := by
  decide +kernel

/-- K8, K11, K12, and K6's last write. -/
theorem test_tick_ends :
    answers (.tick (hostFrame 28 7 (times 28 [0]))) (ready (config 28 7 []) .connected) =
      some [.ok (.tick 0 false)] ∧
    answers (.tick (hostFrame 28 7 (times 28 [0]))) State.reset = some [.err .notConfigured] ∧
    answers (.tick (hostFrame 28 7 (times 27 [0]))) (ready one .connected) =
      some [.err (.canvasLengthMismatch 28 27)] ∧
    after (step { writing two .tick ⟨0, [times 32 [0], times 32 [1]], 1, true, some [2]⟩ with
      schedule := [.device (partly 0)] }) (fun t => (t.wire, t.truncated, t.results)) =
      some ([], true, [⟨0, .err (.shortWrite 0 32 (some ⟨1, 1⟩))⟩]) := by decide

/-- T16, T17. -/
theorem test_queryStatus :
    answers .queryStatus State.reset = some [.ok (.status ⟨false, .disconnected, false, none, false⟩)] ∧
    answers .queryStatus opening = some [.ok (.status ⟨true, .connecting, false, none, false⟩)] := by
  decide

/-- The receivers of the L1-7 configuration in a given state. -/
def panels (r0 r1 : RxState) : State :=
  { ready two .connected with rx := rxPut (rxPut [] 0 (.live r0)) 1 (.live r1) }

/-- The states of panels 0 and 1 after a wire command. -/
def shown (i : Instr) (s : State) : Option (RxState × RxState) :=
  after (exec i s) fun t => (t.rxAt 0, t.rxAt 1)

/-- X1. -/
theorem test_data28I :
    shown (.data28I 0 (1 :: times 27 [0])) (panels rxUnknown rxUnknown) =
      some (⟨.cols (1 :: times 27 [0]), .unknown⟩, rxUnknown) := by decide

/-- X2, X4. -/
theorem test_data28B :
    shown (.data28B 1 (times 28 [0x7F])) (panels ⟨.cols (1 :: times 27 [0]), .unknown⟩ rxUnknown) =
      some (⟨.cols (1 :: times 27 [0]), .unknown⟩, ⟨.unknown, .cols (times 28 [0x7F])⟩) ∧
    shown (.data28B 0 (times 28 [0])) (panels rxUnknown ⟨.cols (times 28 [0x7F]), .unknown⟩) =
      some (⟨.unknown, .cols (times 28 [0])⟩, ⟨.cols (times 28 [0x7F]), .unknown⟩) := by decide

/-- X3, X5. -/
theorem test_flush :
    shown (.flush 0xFF) (panels ⟨.cols (1 :: times 27 [0]), .unknown⟩
      ⟨.unknown, .cols (times 28 [0x7F])⟩) =
      some (rxUnknown, ⟨.cols (times 28 [0x7F]), .unknown⟩) ∧
    shown (.flush 0x12) (panels ⟨.unknown, .cols (times 28 [0])⟩
      ⟨.cols (times 28 [0x7F]), .unknown⟩) =
      some (⟨.cols (times 28 [0]), .unknown⟩, rxUnknown) := by decide

/-- X6: data of another width. -/
theorem test_data14I :
    shown (.data14I 0 (times 14 [0])) (panels ⟨.cols (times 28 [0]), .unknown⟩ rxUnknown) =
      some (rxUnknown, rxUnknown) ∧
    after (exec (.data14I 1 (times 14 [9])) (ready pair .connected)) (fun t => t.rxAt 1) =
      some ⟨.cols (times 14 [9]), .unknown⟩ := by decide

/-- R269, I14: after data of another width the panel stays unknown, also when data of its own width follows; the
other panel goes on. -/
theorem test_lost_panel :
    after (exec (.data14I 0 (times 14 [0])) (panels ⟨.cols (times 28 [0]), .unknown⟩ rxUnknown))
      (fun t => t.rx) = some [(0, .lost)] ∧
    shown (.data28I 0 (times 28 [1])) { ready two .connected with rx := [(0, .lost)] } =
      some (rxUnknown, rxUnknown) ∧
    shown (.data28I 1 (times 28 [1])) { ready two .connected with rx := [(0, .lost)] } =
      some (rxUnknown, ⟨.cols (times 28 [1]), .unknown⟩) := by decide

/-- R179 on a 14-wide panel. -/
theorem test_data14B :
    after (exec (.data14B 1 (times 14 [9])) (ready pair .connected)) (fun t => t.rxAt 1) =
      some ⟨.unknown, .cols (times 14 [9])⟩ := by decide

/-- R177 on a 7-wide panel; an address without a panel changes nothing (R176). -/
theorem test_data7I :
    after (exec (.data7I 5 (times 7 [9])) (ready small .connected)) (fun t => t.rxAt 5) =
      some ⟨.cols (times 7 [9]), .unknown⟩ ∧
    after (exec (.data7I 4 (times 7 [9])) (ready small .connected)) (fun t => t.rx) = some [] := by decide

/-- L1-2 and R148 to R153 on [[a b c], [d e f]]. -/
theorem test_orientations :
    answers (.orientNormal abc) State.reset = some [.ok (.grid abc)] ∧
    answers (.orientFliph abc) State.reset =
      some [.ok (.grid ⟨2, 3, [[false, false, true], [true, false, true]]⟩)] ∧
    answers (.orientFlipv abc) State.reset =
      some [.ok (.grid ⟨2, 3, [[true, false, true], [true, false, false]]⟩)] ∧
    answers (.orientRot180 abc) State.reset =
      some [.ok (.grid ⟨2, 3, [[true, false, true], [false, false, true]]⟩)] ∧
    answers (.orientRot90 abc) State.reset =
      some [.ok (.grid ⟨3, 2, [[true, true], [false, false], [true, false]]⟩)] ∧
    answers (.orientRot270 abc) State.reset =
      some [.ok (.grid ⟨3, 2, [[false, true], [false, false], [true, true]]⟩)] := by decide

/-- X7, T15: a broken stream makes every panel unknown. -/
theorem test_broken_stream :
    after (step { panels ⟨.cols (times 28 [0]), .unknown⟩ rxUnknown with wire := [0x80, 0x83, 0] })
      (fun t => (t.rx, t.rxLost)) = some ([], true) ∧
    after (step { ready two .connected with wire := [1, 2, 3] }) (fun t => (t.rx, t.rxLost)) =
      some ([], true) := by decide

/-- R180: disc (r, c) of a panel is bit r of column c, and has no meaning beyond the panel or where the panel is
unknown. -/
theorem test_disc_set :
    (panels ⟨.cols (0x41 :: times 27 [0]), .unknown⟩ rxUnknown).discSet 0 6 0 = some true ∧
    (panels ⟨.cols (0x41 :: times 27 [0]), .unknown⟩ rxUnknown).discSet 0 5 0 = some false ∧
    (panels ⟨.cols (0x41 :: times 27 [0]), .unknown⟩ rxUnknown).discSet 0 7 0 = none ∧
    (panels ⟨.cols (0x41 :: times 27 [0]), .unknown⟩ rxUnknown).discSet 1 0 0 = none := by decide

/-- R101: a whole frame, then one cut short; a lone start byte; an undefined command. -/
theorem test_recognise :
    recognise [0x80, 0x82, 0xFF, 0x8F, 0x80, 0x87] = ([⟨.flush, 0xFF, []⟩], .incomplete 4) ∧
    recognise [0x80] = ([], .illFormed 0) ∧
    recognise [0x80, 0x82, 0, 0x8F, 0x80, 0x85, 0, 0x8F] = ([⟨.flush, 0, []⟩], .illFormed 4) := by
  decide

/-- The numbers of R225 and R30. -/
theorem test_codes :
    (Result.ok .unit).code = 0 ∧ (Result.err .badMagicOrVersion).code = 1 ∧
    (Result.err (.shortHeader 15)).code = 5 ∧ (Result.err (.panelOutOfBounds 0)).code = 16 ∧
    (Result.err (.unsupportedDataWidthMode 8 .instant)).code = 18 ∧
    (Result.err (.shortWrite 2 4 none)).code = 34 ∧ ConnState.connected.code = 2 := by decide

/-! ### Witnesses: states and operands that meet the hypotheses of the statements, each clause at a boundary -/

/-- A topology that passes CONFIGURE's checks is valid. -/
theorem valid {cfg : Config} (h : checkConfig cfg = none) : ValidTopology cfg :=
  (checkConfig_none cfg).1 h

/-- A state with one request of caller 0 whose turn is next. -/
def asking (s : State) (code : Code) : State :=
  { s with requests := [⟨0, code⟩], schedule := [.caller 0] }

theorem witness_DecodeEncodeRoundTrip :
    (Instr.data7I 0xFF (times 7 [0x80])).wf = true ∧ (Instr.data14I 0 (times 14 [0x8F])).wf = true ∧
    (Instr.data14B 0 (times 14 [0])).wf = true ∧ (Instr.data28I 0 (times 28 [0])).wf = true ∧
    (Instr.data28B 0 (times 28 [0xFF])).wf = true ∧ (Instr.orientRot90 abc).wf = true ∧
    (Instr.orientFlipv ⟨0, 3, []⟩).wf = true ∧ (Instr.configure one).wf = true := by decide

theorem witness_AcceptedWireBytesAreTheirEncoding :
    decode (.wire [0x80, 0x87, 5, 0x80, 0, 0, 0, 0, 0, 0x8F, 0x8F]) =
      .ok (.data7I 5 [0x80, 0, 0, 0, 0, 0, 0x8F]) := rfl

theorem witness_UndefinedCodesAreRefused :
    (∀ code : Code, (asking State.reset code).receiversDue = false ∧
      (asking State.reset code).takeEvent = (.caller 0, { asking State.reset code with schedule := [] }) ∧
      0 ∈ (asking State.reset code).params.callers ∧ (asking State.reset code).opOf 0 = none ∧
      takeRequest 0 (asking State.reset code).requests = some (code, [])) ∧
    (0x00 : Byte) ∉ [(0x01 : Byte), 0x10, 0x11, 0x20, 0x28, 0x29, 0x30, 0x31, 0x32, 0x33, 0x34, 0x40] ∧
    6 ≤ (0x06 : Byte).toNat ∧ 2 ≤ (0x02 : Byte).toNat ∧
    (∃ (raw : RawConfig) (pre post : List RawPanel) (p : RawPanel), raw.panels = pre ++ p :: post ∧
      (∀ q ∈ pre, q.orient.toNat < 6) ∧ 6 ≤ p.orient.toNat) ∧
    (∀ label ∈ [(0x30 : Byte), 0x31, 0x33, 0x40], Operands.message [1] ≠ .none ∧
      decode (.host label (.message [1])) = .error .wrongOperand) ∧
    (∀ label ∈ [(0x01 : Byte), 0x10, 0x11, 0x20, 0x28, 0x29, 0x32, 0x34],
      decode (.host label .none) = .error .wrongOperand) ∧
    (∀ label ∈ [(0x01 : Byte), 0x20, 0x28, 0x29, 0x34],
      decode (.host label (.message [1])) = .error .wrongOperand) ∧
    (0x05 : Byte).toNat < 6 ∧ (⟨1, 1, []⟩ : Grid).wf = false :=
  ⟨fun _ => ⟨rfl, rfl, List.mem_cons_self, rfl, rfl⟩, by decide, by decide, by decide,
    ⟨{ zeroConfig with panels := [⟨"", 0, 0, 0, 7, 7, 5⟩, ⟨"", 1, 0, 0, 7, 7, 6⟩] },
      [⟨"", 0, 0, 0, 7, 7, 5⟩], [], ⟨"", 1, 0, 0, 7, 7, 6⟩, rfl, by decide, by decide⟩, by decide +kernel, by decide +kernel,
    by decide +kernel, by decide, by decide⟩

theorem witness_CallerStepRunsItsRequest :
    (∃ (s u : State) (code : Code) (i : Instr), s.receiversDue = false ∧ s.takeEvent = (.caller 0, u) ∧
      0 ∈ s.params.callers ∧ s.opOf 0 = none ∧ takeRequest 0 s.requests = some (code, []) ∧
      (∀ bytes, code ≠ .wire bytes) ∧ decode code = .ok i) ∧
    (∃ s u : State, s.receiversDue = false ∧ s.takeEvent = (.caller 2, u) ∧ 2 ∉ s.params.callers) :=
  ⟨⟨asking State.reset (.host 0x30 .none), _, _, .connect, rfl, rfl, by decide, rfl, rfl,
      fun _ h => (by cases h), rfl⟩,
    ⟨{ State.reset with schedule := [.caller 2] }, _, rfl, rfl, by decide⟩⟩

theorem witness_ReceiversRunTheFrameOnTheWire :
    ∃ (s : State) (f : WireFrame) (rest : List Byte), s.rxLost = false ∧ s.truncated = false ∧
      f.data.length = f.cmd.dataLen ∧
      s.wire.drop s.rxPos = [0x80, f.cmd.byte, f.addr] ++ f.data ++ [0x8F] ++ rest :=
  ⟨{ ready one .connected with wire := [0x80, 0x82, 0xFF, 0x8F, 0x80], rxPos := 0 },
    ⟨.flush, 0xFF, []⟩, [0x80], rfl, rfl, rfl, rfl⟩

theorem witness_ConfigureLatchesExactlyValidTopologies :
    State.reset.configured = false ∧ ValidTopology one ∧ ValidTopology (config 28 7 []) ∧
      ¬ ValidTopology (config 0 7 []) :=
  ⟨rfl, valid (by decide), valid (by decide), fun h => absurd h.canvasW (by decide)⟩

theorem witness_SecondConfigureChangesNothing : (ready one .disconnected).configured = true := rfl

theorem witness_ConfigureReportsTheFirstFailingPanelCheck :
    State.reset.configured = false ∧
    (∀ w ∈ [0, 65536], ¬ (1 ≤ w ∧ w ≤ 65535)) ∧
    (1 ≤ (config 28 65535 []).canvasW ∧ (config 28 65535 []).canvasH ≤ 65535) ∧
    ValidPanel 28 7 (panel 255 0 0 28 7 .normal) ∧
    255 < (panel 256 0 0 28 7 .normal).addr ∧
    28 < (panel 0 1 0 28 7 .normal).x + 28 ∧
    foldHeight (panel 0 0 0 28 0 .normal) = 0 ∧ 8 < foldHeight (panel 0 0 0 9 28 .rot90) ∧
    1 ≤ foldHeight (panel 0 0 0 27 1 .normal) ∧ foldHeight (panel 0 0 0 27 8 .normal) ≤ 8 ∧
    dataWidth (panel 0 0 0 27 8 .normal) = 27 := by
  unfold ValidPanel
  decide

theorem witness_ConfigureReportsTheFirstClashingPair :
    State.reset.configured = false ∧
    (∀ cfg ∈ [config 56 7 [panel 3 0 0 28 7 .normal, panel 3 28 0 28 7 .normal],
        config 42 7 [panel 0 0 0 28 7 .normal, panel 1 28 0 14 7 .normal],
        config 28 7 [panel 0 0 0 14 7 .normal, panel 1 13 6 14 1 .normal]],
      1 ≤ cfg.canvasW ∧ cfg.canvasW ≤ 65535 ∧ 1 ≤ cfg.canvasH ∧ cfg.canvasH ≤ 65535 ∧
      ∀ p ∈ cfg.panels, ValidPanel cfg.canvasW cfg.canvasH p) ∧
    (panel 3 0 0 28 7 .normal).addr = (panel 3 28 0 28 7 .normal).addr ∧
    (config 42 7 [panel 0 0 0 28 7 .normal, panel 1 28 0 14 7 .normal]).panels.Pairwise
      (fun a b => a.addr ≠ b.addr) ∧
    dataWidth (panel 0 0 0 28 7 .normal) ≠ dataWidth (panel 1 28 0 14 7 .normal) ∧
    SharesPixel (panel 0 0 0 14 7 .normal) (panel 1 13 6 14 1 .normal) := by
  refine ⟨rfl, ?_, rfl, by decide, by decide, 13, 6, ?_, ?_⟩
  · unfold ValidPanel; decide
  · unfold covers; decide
  · unfold covers; decide

theorem witness_DecodeRbmReturnsTheFrame :
    ∃ (w1 w0 h1 h0 : Byte) (body : List Byte) (w h : Nat), w = w1.toNat * 256 + w0.toNat ∧
      h = h1.toNat * 256 + h0.toNat ∧ h * ((w + 7) / 8) ≤ body.length ∧ w = 257 ∧ h = 1 :=
  ⟨1, 1, 0, 1, times 33 [0], 257, 1, rfl, rfl, by decide, rfl, rfl⟩

theorem witness_DecodeRbmRejects :
    (times 15 [(0x52 : Byte)]).length < 16 ∧
    (∀ msg ∈ [[0x52, 0x43, 0x01] ++ times 13 [0], [0x53, 0x42, 0x01] ++ times 13 [0],
        [0x52, 0x42, 0x00] ++ times 13 [(0 : Byte)]],
      16 ≤ msg.length ∧ (msg[0]? ≠ some 0x52 ∨ msg[1]? ≠ some 0x42 ∨ msg[2]? ≠ some 0x01)) ∧
    (∃ (fl w1 w0 h1 h0 : Byte) (rest : List Byte) (need : Nat),
      16 ≤ ([0x52, 0x42, 0x01, fl, w1, w0, h1, h0] ++ rest).length ∧
      need = (h1.toNat * 256 + h0.toNat) * ((w1.toNat * 256 + w0.toNat + 7) / 8) ∧
      ([0x52, 0x42, 0x01, fl, w1, w0, h1, h0] ++ rest).length - 16 < need) :=
  ⟨by decide, by decide, 0, 0, 8, 0, 1, times 8 [0], 1, by decide, by decide, by decide⟩

theorem witness_DecodeFdisReturnsTheFrame :
    ∃ (w0 w1 h0 h1 p0 p1 : Byte) (body : List Byte) (w h : Nat), w = w0.toNat + w1.toNat * 256 ∧
      h = h0.toNat + h1.toNat * 256 ∧ 1 ≤ w ∧ w ≤ 1024 ∧ 1 ≤ h ∧ h ≤ 1024 ∧
      p0.toNat + p1.toNat * 256 = (w + 7) / 8 * h ∧ body.length = (w + 7) / 8 * h ∧ w = 1024 ∧ h = 1 :=
  ⟨0, 4, 1, 0, 128, 0, List.replicate 128 0, 1024, 1, by decide, by decide, by decide, by decide,
    by decide, by decide, by decide, List.length_replicate, rfl, rfl⟩

theorem witness_DecodeFdisRejects :
    (times 15 [(0x46 : Byte)]).length < 16 ∧
    (16 ≤ (times 16 [(0x46 : Byte)]).length ∧ (times 16 [(0x46 : Byte)]).take 4 ≠ [0x46, 0x44, 0x49, 0x53]) ∧
    (∀ q ∈ [((0 : Nat), (1 : Nat)), (1025, 1), (1, 0), (1, 1025)],
      q.1 = 0 ∨ 1024 < q.1 ∨ q.2 = 0 ∨ 1024 < q.2) ∧
    (0x01 : Byte).toNat + (0x04 : Byte).toNat * 256 = 1025 ∧
    (∃ w h plen : Nat, 1 ≤ w ∧ w ≤ 1024 ∧ 1 ≤ h ∧ h ≤ 1024 ∧ plen ≠ (w + 7) / 8 * h ∧ plen < 65536) ∧
    (∃ (w h plen : Nat) (short long : List Byte), 1 ≤ w ∧ w ≤ 1024 ∧ 1 ≤ h ∧ h ≤ 1024 ∧
      plen = (w + 7) / 8 * h ∧ short.length < plen ∧ plen < long.length) :=
  ⟨by decide, by decide, by simp, rfl, ⟨1, 1, 2, by decide⟩,
    9, 2, 4, times 3 [0], times 5 [0], by decide⟩

theorem witness_DecodedFramesKeepTheCanvasInvariant :
    decodeFdis [0x46, 0x44, 0x49, 0x53, 0, 0, 0, 0, 0, 0, 1, 0, 1, 0, 1, 0, 0x80] =
      .ok ⟨1, 1, [0x80], 0, 0, 0, some 0, .fdis⟩ := by decide +kernel

/-- The solid frame of L1-7. -/
def solid : Frame := hostFrame 28 14 (times 14 [0xFF, 0xFF, 0xFF, 0xF0])

theorem fits_two : FrameFits two solid := by
  unfold FrameFits
  decide

theorem witness_MapSlicesEveryPanel :
    (ready two .disconnected).configured = true ∧ ValidTopology (ready two .disconnected).cfg ∧
      FrameFits (ready two .disconnected).cfg solid ∧
      (ready two .disconnected).cfg.panels[1]? = some (panel 1 0 7 28 7 .normal) :=
  ⟨rfl, valid (by decide), fits_two, rfl⟩

theorem witness_MapReportsItsFirstFailure :
    State.reset.configured = false ∧ (ready two .disconnected).configured = true ∧
    (times 27 [(0 : Byte)]).length ≠ 7 * stride 28 ∧
    (∃ (frame : Frame) (pre post : List PanelConfig) (p : PanelConfig),
      frame.bits.length = frame.height * stride frame.width ∧ two.panels = pre ++ p :: post ∧
      (∀ q ∈ pre, q.x + q.w ≤ frame.width ∧ q.y + q.h ≤ frame.height) ∧
      (frame.width < p.x + p.w ∨ frame.height < p.y + p.h)) :=
  ⟨rfl, rfl, by decide, hostFrame 28 13 (times 52 [0]), [panel 0 0 0 28 7 .normal], [],
    panel 1 0 7 28 7 .normal, by decide, rfl, by decide, by decide⟩

theorem witness_PackUnpackRoundTrip :
    abc.wf = true ∧ [(0xFF : Byte), 0x80].length = 1 * stride 9 ∧ [(0xFF : Byte), 0xFF].length = 1 * stride 9 := by
  decide

theorem witness_Orientations :
    abc.wf = true ∧ (⟨0, 3, []⟩ : Grid).wf = true ∧ (⟨3, 0, [[], [], []]⟩ : Grid).wf = true := by decide

theorem witness_ColumnBytesBelowTheStartByte :
    foldHeight (panel 0 0 0 28 7 .normal) ≤ 7 ∧ (panelCols solid (panel 0 0 0 28 7 .normal)) ≠ [] := by
  decide +kernel

theorem witness_EncodePanelFramesTheDataOrRejects :
    (∀ e ∈ [(0, Mode.instant, (0x82 : Byte)), (7, .instant, 0x87), (14, .instant, 0x92),
        (14, .buffered, 0x93), (28, .instant, 0x83), (28, .buffered, 0x84), (0, .buffered, 0x82)],
      ((List.replicate e.1 (0 : Byte)).length, e.2.1, e.2.2) ∈ [(7, Mode.instant, (0x87 : Byte)),
        (14, .instant, 0x92), (14, .buffered, 0x93), (28, .instant, 0x83), (28, .buffered, 0x84),
        (0, .instant, 0x82), (0, .buffered, 0x82)]) ∧
    (∀ n ∈ [1, 6, 8, 13, 15, 27, 29], n ≠ 0 ∧ n ≠ 7 ∧ n ≠ 14 ∧ n ≠ 28) ∧
    (times 7 [(0 : Byte)]).length = 7 := by decide

theorem witness_EncodedFramesAreRecognised :
    ∀ q ∈ [((9 : Byte), ([] : List Byte), Mode.buffered, [(0x80 : Byte), 0x82, 9, 0x8F]),
        (5, times 7 [0x8F], .instant, [0x80, 0x87, 5] ++ times 7 [0x8F] ++ [0x8F])],
      encodePanel q.1 q.2.1 q.2.2.1 = .ok q.2.2.2 := by
  intro q hq
  rcases List.mem_cons.1 hq with rfl | hq
  · rfl
  · rw [List.mem_singleton.1 hq]; rfl

theorem witness_InstantFramesShowAtOnce :
    ∀ e ∈ [(small, panel 5 0 0 7 7 .normal, (5 : Byte), Instr.data7I 5 (times 7 [1]), times 7 [(1 : Byte)]),
        (pair, panel 1 14 0 14 7 .normal, 1, .data14I 1 (times 14 [1]), times 14 [1]),
        (two, panel 0 0 0 28 7 .normal, 0, .data28I 0 (times 28 [1]), times 28 [1])],
      (ready e.1 .connected).rxLost = false ∧ (ready e.1 .connected).truncated = false ∧
      (ready e.1 .connected).configured = true ∧ ValidTopology e.1 ∧ e.2.1 ∈ e.1.panels ∧
      e.2.1.addr = e.2.2.1.toNat ∧ e.2.2.2.2.length = dataWidth e.2.1 ∧
      (ready e.1 .connected).rxPanel e.2.2.1 = .live rxUnknown ∧
      (e.2.2.2.1, e.2.2.2.2.length) ∈ [(Instr.data7I e.2.2.1 e.2.2.2.2, 7),
        (.data14I e.2.2.1 e.2.2.2.2, 14), (.data28I e.2.2.1 e.2.2.2.2, 28)] := by
  intro e he
  simp only [List.mem_cons, List.not_mem_nil, or_false] at he
  rcases he with rfl | rfl | rfl <;>
    exact ⟨rfl, rfl, rfl, valid (by decide), by decide, rfl, rfl, rfl, by decide⟩

theorem witness_BufferedFramesAreHeld :
    ∀ e ∈ [(pair, panel 1 14 0 14 7 .normal, (1 : Byte), Instr.data14B 1 (times 14 [1]), times 14 [(1 : Byte)]),
        (two, panel 1 0 7 28 7 .normal, 1, .data28B 1 (times 28 [1]), times 28 [1])],
      (ready e.1 .connected).rxLost = false ∧ (ready e.1 .connected).truncated = false ∧
      (ready e.1 .connected).configured = true ∧ ValidTopology e.1 ∧ e.2.1 ∈ e.1.panels ∧
      e.2.1.addr = e.2.2.1.toNat ∧ e.2.2.2.2.length = dataWidth e.2.1 ∧
      (ready e.1 .connected).rxPanel e.2.2.1 = .live rxUnknown ∧
      (e.2.2.2.1, e.2.2.2.2.length) ∈ [(Instr.data14B e.2.2.1 e.2.2.2.2, 14),
        (.data28B e.2.2.1 e.2.2.2.2, 28)] := by
  intro e he
  simp only [List.mem_cons, List.not_mem_nil, or_false] at he
  rcases he with rfl | rfl <;>
    exact ⟨rfl, rfl, rfl, valid (by decide), by decide, rfl, rfl, rfl, by decide⟩

theorem witness_FlushAppliesHeldData :
    (panels ⟨.unknown, .cols (times 28 [1])⟩ ⟨.cols (times 28 [0]), .nothing⟩).rxLost = false ∧
    (panels ⟨.unknown, .cols (times 28 [1])⟩ ⟨.cols (times 28 [0]), .nothing⟩).truncated = false ∧
    rxWf (panels ⟨.unknown, .cols (times 28 [1])⟩ ⟨.cols (times 28 [0]), .nothing⟩).rx ∧
    (panels ⟨.unknown, .cols (times 28 [1])⟩ rxUnknown).rxPanel 0 = .live ⟨.unknown, .cols (times 28 [1])⟩ ∧
    (panels ⟨.unknown, .cols (times 28 [1])⟩ rxUnknown).rxPanel 1 = .live ⟨.unknown, .unknown⟩ ∧
    (panels rxUnknown ⟨.cols (times 28 [0]), .nothing⟩).rxPanel 1 = .live ⟨.cols (times 28 [0]), .nothing⟩ ∧
    { ready two .connected with rx := [(0, .lost)] }.rxPanel 0 = .lost ∧
    rxWf [(0, RxPanel.lost)] ∧
    (∀ p ∈ (ready two .connected).panels, p.addr ≠ (2 : Byte).toNat) := by
  unfold rxWf
  decide

theorem witness_FramesForNoPanelOrOfAnotherWidth :
    (ready small .connected).rxLost = false ∧ (ready small .connected).truncated = false ∧
    (∀ p ∈ (ready small .connected).panels, p.addr ≠ (4 : Byte).toNat) ∧
    panel 5 0 0 7 7 .normal ∈ (ready small .connected).panels ∧ ValidTopology small ∧
    (times 14 [(0 : Byte)]).length ≠ dataWidth (panel 5 0 0 7 7 .normal) ∧
    { ready small .connected with rx := [(5, .lost)] }.rxPanel 5 = .lost :=
  ⟨rfl, rfl, by decide, by decide, valid (by decide), by decide, rfl⟩

theorem witness_BrokenStreamIsLost :
    { ready two .connected with truncated := true }.rxLost = false ∧
    { ready two .connected with truncated := true }.truncated = true ∧
    { ready two .connected with wire := [0x81] }.rxPos < 1 ∧
    ∀ (f : WireFrame) (rest : List Byte), [(0x81 : Byte)].drop 0 = f.bytes ++ rest →
      f.data.length ≠ f.cmd.dataLen :=
  ⟨rfl, rfl, by decide, fun f rest h => by
    have := congrArg List.length h
    simp [WireFrame.bytes] at this⟩

theorem witness_LostStreamStaysLost :
    (∃ s t : State, step s = .next t ∧ s.rxLost = true ∧ ∀ a, s.rxAt a = ⟨.unknown, .unknown⟩) ∧
    (∃ s t : State, step s = .next t ∧ s.rxPanel 0 = .lost) :=
  ⟨⟨{ ready two .connected with rxLost := true, schedule := [.transmitter] }, _, rfl, rfl, fun _ => rfl⟩,
    ⟨{ ready two .connected with rx := [(0, .lost)], schedule := [.transmitter] }, _, rfl, rfl⟩⟩

theorem witness_ConnectAnswersOrStartsTheOpen :
    State.reset.configured = false ∧
    (ready one .connected).configured = true ∧ (ready one .connected).connLock = none ∧
    (ready one .connected).conn = .connected ∧ (ready one .connected).opOf 0 = none ∧
    (ready one .disconnected).conn ≠ .connected := by decide

theorem witness_OpenIsAnswered :
    ∃ u : State, { opening with schedule := [.device full] }.receiversDue = false ∧
      { opening with schedule := [.device full] }.takeEvent = (.device full, u) ∧
      opening.connLock = some 0 ∧ opening.opOf 0 = some (.opening one.serial) ∧ full.ok = true ∧
      (partly 0).ok = false :=
  ⟨opening, rfl, rfl, rfl, rfl, rfl, rfl⟩

theorem witness_DisconnectStartsTheClose :
    (ready one .connected).connLock = none ∧ (ready one .connected).opOf 0 = none ∧
    (ready one .connected).conn ≠ .disconnected ∧ (ready one .disconnected).conn = .disconnected := by
  decide


/-- Caller 0 has the connection, caller 1 waits in a phase. -/
def waiting (p : Phase) : State := { opening with ops := opening.ops ++ [(1, p)] }

theorem witness_TheConnectionLockMakesOthersWait :
    opening.connLock = some 0 ∧ opening.configured = true ∧
    (∀ p ∈ [Phase.connectWait, .disconnectWait],
      { waiting p with schedule := [.caller 1] }.receiversDue = false ∧
      { waiting p with schedule := [.caller 1] }.takeEvent = (.caller 1, waiting p) ∧
      1 ∈ (waiting p).params.callers ∧ tableWf (waiting p).ops ∧ (waiting p).opOf 1 = some p) ∧
    (∃ (s : State) (b : Batch), s.connLock = some 1 ∧ s.receiversDue = false ∧
      s.takeEvent.1 = .transmitter ∧ s.batch = some b ∧ s.opOf b.owner = some (.ready .send 0) ∧
      b.current.isSome = true) := by
  refine ⟨rfl, rfl, by decide, { before one .connected .send flushBatch with
    connLock := some 1, schedule := [.transmitter] }, flushBatch, rfl, rfl, rfl, rfl, rfl, rfl⟩

theorem witness_AFreeLockIsTakenOnTheWaitersTurn :
    (∀ p ∈ [Phase.connectWait, .disconnectWait, .writeWait .send flushBatch],
      ∀ conn ∈ [ConnState.connected, .disconnected],
      { ready one conn with ops := [(0, p)], schedule := [.caller 0] }.receiversDue = false ∧
      { ready one conn with ops := [(0, p)], schedule := [.caller 0] }.takeEvent =
        (.caller 0, { ready one conn with ops := [(0, p)] }) ∧
      0 ∈ (ready one conn).params.callers ∧
      { ready one conn with ops := [(0, p)] }.opOf 0 = some p ∧
      (ready one conn).connLock = none ∧ (ready one conn).writeLock = none) ∧
    { before one .connected .send flushBatch with
      ops := [(0, .ready .send 0), (1, .writeWait .tick ⟨1, [[1]], 0, false, none⟩)] }.writeLock ≠ none ∧
    tableWf [((0 : Nat), Phase.ready .send 0), (1, .writeWait .tick ⟨1, [[1]], 0, false, none⟩)] ∧
    (∀ p ∈ [Phase.connectWait, .disconnectWait], (waiting p).connLock ≠ none ∧ (waiting p).opOf 1 = some p ∧
      1 ∈ (waiting p).params.callers ∧ tableWf (waiting p).ops) := by
  decide

theorem witness_WriteStartsOrFindsNoConnection :
    ∀ conn ∈ [ConnState.connected, .disconnected], ∀ kind ∈ [TxKind.send, .tick],
      { before one conn kind flushBatch with schedule := [.transmitter] }.receiversDue = false ∧
      { before one conn kind flushBatch with schedule := [.transmitter] }.takeEvent =
        (.transmitter, before one conn kind flushBatch) ∧
      (before one conn kind flushBatch).connLock = none ∧
      (before one conn kind flushBatch).batch = some flushBatch ∧
      (before one conn kind flushBatch).opOf flushBatch.owner = some (.ready kind 0) ∧
      flushBatch.current.isSome = true := by decide

theorem witness_ShortWriteEndsTheOperation :
    { writing one .send flushBatch with schedule := [.device (partly 3)] }.receiversDue = false ∧
    { writing one .send flushBatch with schedule := [.device (partly 3)] }.takeEvent =
      (.device (partly 3), writing one .send flushBatch) ∧
    (writing one .send flushBatch).connLock = some 0 ∧
    (writing one .send flushBatch).opOf 0 = some (.writing .send) ∧
    (writing one .send flushBatch).batch = some flushBatch ∧
    flushBatch.current = some [0x80, 0x82, 0xFF, 0x8F] ∧
    (partly 3).accepted < [(0x80 : Byte), 0x82, 0xFF, 0x8F].length := by decide

/-- A tick's batch of two short frames and a flush, at a given frame. -/
def tickBatch (cur : Nat) : Batch := ⟨0, [[1], [2]], cur, true, some [3]⟩

theorem tickBatch_ok (cur : Nat) (h : cur ≤ 2) : BatchOk (tickBatch cur) :=
  ⟨h, by unfold tickBatch Batch.current; interval_cases cur <;> rfl, by unfold tickBatch; simp,
    fun f hf => by cases hf; decide, rfl⟩

theorem flushBatch_ok : BatchOk flushBatch :=
  ⟨by decide, by decide, by decide, fun f hf => (by cases hf), rfl⟩

theorem witness_FullWriteAdvancesTheBatch :
    (∀ cur ∈ [0, 1, 2],
      { writing one .tick (tickBatch cur) with schedule := [.device full] }.receiversDue = false ∧
      { writing one .tick (tickBatch cur) with schedule := [.device full] }.takeEvent =
        (.device full, writing one .tick (tickBatch cur)) ∧
      (writing one .tick (tickBatch cur)).opOf 0 = some (.writing .tick) ∧
      (tickBatch cur).current = some [BitVec.ofNat 8 (cur + 1)]) ∧
    (∀ cur, cur ≤ 2 → BatchOk (tickBatch cur)) ∧
    (tickBatch 0).cur + 1 < (tickBatch 0).frames.length ∧
    ((tickBatch 1).cur + 1 = (tickBatch 1).frames.length ∧ (tickBatch 1).anyBuffered = true) ∧
    (tickBatch 2).cur = (tickBatch 2).frames.length ∧
    (flushBatch.cur + 1 = flushBatch.frames.length ∧ flushBatch.anyBuffered = false ∧ BatchOk flushBatch) :=
  ⟨by decide, tickBatch_ok, by decide, by decide, by decide, by decide, by decide, flushBatch_ok⟩

theorem witness_SendOperations :
    (ready one .connected).configured = true ∧ (ready one .connected).writeLock = none ∧
    (before one .connected .send flushBatch).writeLock ≠ none ∧ State.reset.configured = false := by decide

theorem witness_TickStartsItsBatch :
    (ready two .connected).configured = true ∧ ValidTopology two ∧ two.panels ≠ [] ∧
    FrameFits two solid ∧ tickBuffered two ∧
    FrameFits one (hostFrame 28 7 (times 28 [0])) ∧ ¬ tickBuffered one ∧
    (ready two .connected).writeLock = none ∧ (before two .connected .send flushBatch).writeLock ≠ none := by
  refine ⟨rfl, valid (by decide), by decide, fits_two, ?_, ?_, ?_, by decide, by decide⟩
  · unfold tickBuffered; decide
  · unfold FrameFits; decide
  · unfold tickBuffered; decide

theorem witness_TickAnswersAtOnce :
    State.reset.configured = false ∧ (ready two .connected).configured = true ∧
    (times 27 [(0 : Byte)]).length ≠ 7 * stride 28 ∧ (ready (config 28 7 []) .connected).cfg.panels = [] ∧
    (∃ (frame : Frame) (pre post : List PanelConfig) (p : PanelConfig),
      frame.bits.length = frame.height * stride frame.width ∧ two.panels = pre ++ p :: post ∧
      (∀ q ∈ pre, q.x + q.w ≤ frame.width ∧ q.y + q.h ≤ frame.height) ∧
      (frame.width < p.x + p.w ∨ frame.height < p.y + p.h)) :=
  ⟨rfl, rfl, by decide, rfl, witness_MapReportsItsFirstFailure.2.2.2⟩

theorem witness_ConfigurationIsWrittenOnce :
    ∃ s t : State, step s = .next t ∧ s.configured = true :=
  ⟨asking (ready one .connected) (encode (.configure two)), _, rfl, rfl⟩

/-- A configured block at rest meets the invariant. -/
theorem ready_invariant {cfg : Config} {conn : ConnState} (hv : checkConfig cfg = none)
    (hc : conn ≠ .connecting) : Invariant (ready cfg conn) where
  ops := tableWf_nil
  callers _ h := absurd rfl h
  rx := rxWf_nil
  connLock _ := ⟨fun h => (by cases h), fun ⟨_, h, _⟩ => (by cases h)⟩
  writeLock _ := ⟨fun h => (by cases h), fun ⟨_, h, _⟩ => (by cases h)⟩
  batchOwner := rfl
  batch _ h := by cases h
  waiting _ _ _ h := by cases h
  connectWaiting _ h := by cases h
  connecting := ⟨fun h => absurd h hc, fun ⟨_, _, h⟩ => by cases h⟩
  opening _ _ h := by cases h
  writing _ _ h := by cases h
  closing _ h := by cases h
  connConfigured _ := rfl
  unconfigured h := by cases h
  topology _ := valid hv
  receivers _ := ⟨Nat.le_refl 0, [], rfl, rfl⟩
  lost h := by cases h

/-- The tick's frame before the device: caller 0 holds the write lock. -/
theorem before_invariant {conn : ConnState} (hc : conn ≠ .connecting) (kind : TxKind) {b : Batch}
    (ho : b.owner = 0) (hb : BatchOk b) : Invariant (before two conn kind b) :=
  (ready_invariant (cfg := two) (by decide) hc).takeWrite 0 kind b rfl List.mem_cons_self (fun _ h => by cases h) ho hb

/-- The same with the frame at the device. -/
theorem writing_invariant (kind : TxKind) {b : Batch} (ho : b.owner = 0) (hb : BatchOk b) :
    Invariant (writing two kind b) :=
  (before_invariant (conn := .connected) (by decide) kind ho hb).toWriting (kind := kind) (ms := 0)
    rfl rfl rfl

/-- An open at the device. -/
theorem opening_invariant : Invariant opening :=
  (ready_invariant (cfg := one) (conn := .disconnected) (by decide) (by decide)).startConn 0
    (.opening one.serial) .connecting rfl (by decide) (fun _ h => by cases h) (.inl ⟨rfl, rfl, rfl⟩)

/-- A close at the device. -/
theorem closing_invariant : Invariant closing :=
  (ready_invariant (cfg := one) (conn := .connected) (by decide) (by decide)).startConn 0
    .closing .disconnected rfl (by decide) (fun _ h => by cases h) (.inr ⟨rfl, rfl⟩)

/-- The close fails, and the close succeeds. -/
theorem witness_CloseIsAnswered :
    (partly 0).ok = false ∧ full.ok = true ∧ ∀ a : DeviceAnswer, ∃ u : State,
      Invariant { closing with schedule := [.device a] } ∧
      { closing with schedule := [.device a] }.receiversDue = false ∧
      { closing with schedule := [.device a] }.takeEvent = (.device a, u) ∧
      { closing with schedule := [.device a] }.connLock = some 0 ∧
      { closing with schedule := [.device a] }.opOf 0 = some .closing :=
  ⟨rfl, rfl, fun _ => ⟨closing, closing_invariant.of_same _ _ _ _ _, rfl, rfl, rfl, rfl⟩⟩

/-- The device takes two bytes of caller 0's flush frame. -/
theorem witness_TheWireGrowsOnlyByTheBatchInFlight :
    ∃ s t : State, Invariant s ∧ step s = .next t ∧ t.wire = [0x80, 0x82] ∧ s.wire = [] :=
  ⟨{ writing two .send flushBatch with schedule := [.device (partly 2)] }, _,
    (writing_invariant .send rfl flushBatch_ok).of_same _ _ _ _ _, rfl, rfl, rfl⟩

theorem witness_TruncatedRecordsAShortWrite :
    ∃ s t : State, step s = .next t ∧ s.truncated = false ∧ t.truncated = true :=
  ⟨{ writing two .send flushBatch with schedule := [.device (partly 2)] }, _, rfl, rfl, rfl⟩

theorem witness_ConnectionFollowsItsStateMachine :
    ∃ s t : State, Invariant s ∧ step s = .next t ∧ s.conn ≠ t.conn :=
  ⟨{ opening with schedule := [.device full] }, _, opening_invariant.of_same _ _ _ _ _, rfl, by decide⟩

theorem witness_DisconnectBetweenFramesEndsTheTick :
    ∃ (s : State) (b : Batch), Invariant s ∧ s.receiversDue = false ∧ s.conn = .connected ∧
      s.connLock = none ∧ s.batch = some b ∧ s.opOf b.owner = some (.ready .tick 0) ∧
      1 ≠ b.owner ∧ 1 ∈ s.params.callers ∧ s.opOf 1 = none ∧ full.ok = true ∧
      takeRequest 1 s.requests = some (encode .disconnect, []) ∧
      s.schedule = .caller 1 :: .device full :: .transmitter :: [] :=
  ⟨{ before two .connected .tick (tickBatch 1) with
      requests := [⟨1, encode .disconnect⟩]
      schedule := [.caller 1, .device full, .transmitter] }, tickBatch 1,
    (before_invariant (by decide) .tick rfl (tickBatch_ok 1 (by decide))).of_same _ _ _ _ _,
    rfl, rfl, rfl, rfl, rfl, by decide, by decide, rfl, rfl, rfl, rfl⟩

theorem witness_EveryStepKeepsTheInvariant : ∃ s t : State, Invariant s ∧ step s = .next t :=
  ⟨{ opening with schedule := [.device full] }, _, opening_invariant.of_same _ _ _ _ _, rfl⟩

theorem witness_OnlyUndecodableRequestsStopTheMachine :
    ∃ s : State, Invariant s ∧ step s = .refused (.unknownLabel 0x02) :=
  ⟨asking (ready one .connected) (.host 0x02 .none),
    (ready_invariant (by decide) (by decide)).of_same _ _ _ _ _, rfl⟩

theorem witness_TheLocksNeverDeadlock :
    ∃ s : State, Invariant s ∧ s.receiversDue = false ∧ s.ops ≠ [] :=
  ⟨writing two .tick (tickBatch 0), writing_invariant .tick rfl (tickBatch_ok 0 (by decide)), rfl,
    by decide⟩

/-- From an open that fails, an unending run in which nothing more is asked: whoever's turn the free events
say it is, there is nothing to do. -/
def failedOpen : Nat → State
  | 0 => { opening with params := ⟨[0, 1], .fair⟩, schedule := [.device (partly 0)] }
  | n + 1 =>
    { ready one .disconnected with params := ⟨[0, 1], .fair⟩, results := [⟨0, .err (.connectError 9)⟩], draws := n }

theorem failedOpen_run : Run failedOpen := by
  intro n
  cases n with
  | zero => rfl
  | succ n =>
    simp only [failedOpen, step, ready, State.reset, State.resetWith, State.receiversDue, State.takeEvent]
    cases Config.freeEvent n with
    | caller c =>
      by_cases hc : c ∈ [0, 1]
      · simp only [eventStep, callerStep, hc, if_true]; rfl
      · simp only [eventStep, callerStep, hc, if_false]; rfl
    | transmitter => rfl
    | device a => rfl

theorem witness_AFairDeviceReleasesTheConnectionLock :
    ∃ (r : Nat → State) (n : Nat) (c : Caller), Admissible r ∧
      (r 0).params.serialProgress = .fair ∧ Invariant (r 0) ∧ (r n).connLock = some c := by
  refine ⟨failedOpen, 0, 0, ⟨failedOpen_run, fun n hn => ?_⟩, rfl,
    (opening_invariant.withParams ⟨[0, 1], .fair⟩ fun _ h => h).of_same _ _ _ _ _, rfl⟩
  cases n with
  | zero => exact ⟨0, Nat.le_refl 0, rfl, partly 0, rfl⟩
  | succ n => exact absurd rfl hn

/-- What the solid frame's tick writes on the L1-7 configuration. -/
def solidFrames : List (List Byte) :=
  two.panels.map (tickFrameBytes two solid) ++ [[0x80, 0x82, 0xFF, 0x8F]]

/-- Caller 0 asks for the solid frame's tick, and the device takes all of its frames. -/
def ticking : State :=
  { ready two .connected with
    requests := [⟨0, encode (.tick solid)⟩]
    schedule := .caller 0 :: (solidFrames.flatMap fun _ => [Event.transmitter, .device full]) ++ [] }

theorem witness_TickWritesItsFramesAndFlush :
    Invariant ticking ∧ ticking.receiversDue = false ∧ ticking.configured = true ∧
    ticking.conn = .connected ∧ ticking.writeLock = none ∧ ticking.connLock = none ∧
    0 ∈ ticking.params.callers ∧ ticking.opOf 0 = none ∧ ticking.cfg.panels ≠ [] ∧ FrameFits ticking.cfg solid ∧ TakesAll full ∧
    takeRequest 0 ticking.requests = some (encode (.tick solid), []) ∧
    (true = true ↔ tickBuffered ticking.cfg) ∧
    solidFrames = ticking.cfg.panels.map (tickFrameBytes ticking.cfg solid) ++
      (if true then [[0x80, 0x82, ticking.cfg.flushAddress, 0x8F]] else []) ∧
    ticking.schedule =
      .caller 0 :: (solidFrames.flatMap fun _ => [Event.transmitter, .device full]) ++ [] :=
  ⟨(ready_invariant (by decide) (by decide)).of_same _ _ _ _ _, rfl, rfl, rfl, rfl, rfl, by decide, rfl,
    List.cons_ne_nil _ _, fits_two, by unfold TakesAll; decide, rfl,
    ⟨fun _ => witness_TickStartsItsBatch.2.2.2.2.1, fun _ => rfl⟩, rfl, rfl⟩

theorem witness_TickIsDisplayed :
    ticking.rxLost = false ∧
    (∀ p ∈ ticking.cfg.panels, ticking.rxPanel (BitVec.ofNat 8 p.addr) ≠ .lost) ∧ ∀ p ∈ ticking.cfg.panels, ∀ q ∈ ticking.cfg.panels,
      refreshMode ticking.cfg (dataWidth p) = refreshMode ticking.cfg (dataWidth q) := by
  refine ⟨rfl, ?_, ?_⟩
  · show ∀ p ∈ two.panels, ticking.rxPanel (BitVec.ofNat 8 p.addr) ≠ .lost
    decide
  · show ∀ p ∈ two.panels, ∀ q ∈ two.panels, refreshMode two (dataWidth p) = refreshMode two (dataWidth q)
    decide

end Sys2Proof.Tests
end

section
/-! The status query (R222). -/

namespace Sys2Proof.Machine

/-- What `busy` reports: the write lock is held by some caller (R39). -/
theorem State.busy_eq_decide (s : State) : s.busy = decide (s.writeLock ≠ none) := by
  unfold State.busy
  cases s.writeLock with
  | none => rfl
  | some c => rfl

/-- The dispatcher's arm: the caller whose turn it is gets the snapshot of the state it asks in. -/
theorem exec_queryStatus (s : State) :
    exec .queryStatus s = .next (s.answer s.turn (.ok (.status s.status))) := rfl

/-- Settles O47: the query only answers, and the answer's `busy` says that the write lock is held. -/
theorem queryStatusReturnsTheSnapshot : Obligations.QueryStatusReturnsTheSnapshot := by
  intro s
  rw [exec_queryStatus, State.answer, State.status, State.busy_eq_decide]

end Sys2Proof.Machine
end

section
/-! What a step does to the configuration and to the wire log (20_memory.md section 6). The agents' operations keep
both; CONFIGURE latches the one once, and the device's answer to a frame write appends to the other. -/

namespace Sys2Proof.Machine

/-- The configuration (R21 to R29) and what the block logs of its frame writes (R33 to R35) stand in `t` as in `s`. -/
structure SameRecord (s t : State) : Prop where
  configured : t.configured = s.configured
  cfg : t.cfg = s.cfg
  wire : t.wire = s.wire
  truncated : t.truncated = s.truncated
  lastWriteDuration : t.lastWriteDuration = s.lastWriteDuration

namespace SameRecord

theorem refl (s : State) : SameRecord s s := ⟨rfl, rfl, rfl, rfl, rfl⟩

theorem trans {s t u : State} (h : SameRecord s t) (k : SameRecord t u) : SameRecord s u :=
  ⟨k.configured.trans h.configured, k.cfg.trans h.cfg, k.wire.trans h.wire, k.truncated.trans h.truncated,
    k.lastWriteDuration.trans h.lastWriteDuration⟩

theorem takeEvent (s : State) : SameRecord s s.takeEvent.2 := by
  rw [takeEvent_state]; exact ⟨rfl, rfl, rfl, rfl, rfl⟩

theorem fetchFrame {s u : State} {i : Instr} (h : fetchFrame s = some (i, u)) : SameRecord s u := by
  obtain ⟨f, rest, -, -, -, rfl⟩ := fetchFrame_some h
  exact ⟨rfl, rfl, rfl, rfl, rfl⟩

theorem fetchRequest {c : Caller} {s u : State} {x : Except Refusal Instr} (h : fetchRequest c s = some (x, u)) :
    SameRecord s u := by
  obtain ⟨code, rest, -, -, rfl⟩ := fetchRequest_some h
  exact ⟨rfl, rfl, rfl, rfl, rfl⟩

theorem receive (s : State) (f : List PanelConfig → List (Nat × RxPanel) → List (Nat × RxPanel)) :
    SameRecord s (s.receive f) := by
  unfold State.receive
  split_ifs <;> exact ⟨rfl, rfl, rfl, rfl, rfl⟩

theorem acquireConn {c : Caller} {wait : Phase} {body : State → State} {s : State} (h : SameRecord s (body s)) :
    SameRecord s (acquireConn c wait body s) := by
  unfold Machine.acquireConn
  split
  · exact h
  · exact ⟨rfl, rfl, rfl, rfl, rfl⟩

theorem connectBody (c : Caller) (s : State) : SameRecord s (connectBody c s) := by
  unfold Machine.connectBody
  split_ifs <;> exact ⟨rfl, rfl, rfl, rfl, rfl⟩

theorem disconnectBody (c : Caller) (s : State) : SameRecord s (disconnectBody c s) := by
  unfold Machine.disconnectBody
  split_ifs <;> exact ⟨rfl, rfl, rfl, rfl, rfl⟩

theorem acquireWrite (c : Caller) (kind : TxKind) (b : Batch) (s : State) :
    SameRecord s (acquireWrite c kind b s) := by
  unfold Machine.acquireWrite
  split <;> exact ⟨rfl, rfl, rfl, rfl, rfl⟩

theorem resume (c : Caller) (p : Phase) (s : State) : SameRecord s (resume c p s) := by
  cases p with
  | connectWait => exact acquireConn (connectBody c s)
  | disconnectWait => exact acquireConn (disconnectBody c s)
  | writeWait kind b => exact acquireWrite c kind b s
  | opening _ => exact refl s
  | closing => exact refl s
  | ready _ _ => exact refl s
  | writing _ => exact refl s

theorem openAnswer (c : Caller) (a : DeviceAnswer) (s : State) : SameRecord s (openAnswer c a s) := by
  unfold Machine.openAnswer
  split_ifs <;> exact ⟨rfl, rfl, rfl, rfl, rfl⟩

theorem closeAnswer (c : Caller) (a : DeviceAnswer) (s : State) : SameRecord s (closeAnswer c a s) :=
  ⟨rfl, rfl, rfl, rfl, rfl⟩

theorem writeStart (c : Caller) (kind : TxKind) (b : Batch) (s : State) : SameRecord s (writeStart c kind b s) := by
  rcases writeStart_cases c kind b s with ⟨_, e⟩ | ⟨_, _, e⟩ | ⟨_, _, e⟩ <;> rw [e] <;>
    exact ⟨rfl, rfl, rfl, rfl, rfl⟩

theorem advanceBatch (c : Caller) (kind : TxKind) (b : Batch) (s : State) :
    SameRecord s (advanceBatch c kind b s) := by
  rcases advanceBatch_cases c kind b s with ⟨_, e⟩ | ⟨_, _, e⟩ | ⟨_, _, e⟩ <;> rw [e] <;>
    exact ⟨rfl, rfl, rfl, rfl, rfl⟩

end SameRecord

/-- CONFIGURE latches a record over an unconfigured block and changes nothing else of it (R21, R119). -/
structure LatchesRecord (s t : State) : Prop where
  fresh : s.configured = false
  configured : t.configured = true
  valid : ValidTopology t.cfg
  wire : t.wire = s.wire
  truncated : t.truncated = s.truncated
  lastWriteDuration : t.lastWriteDuration = s.lastWriteDuration

/-- The device has taken a frame of which it accepted `a.accepted` bytes: those are appended to the wire, and a
short write sets `truncated` (R195, R197, R200). -/
structure WritesRecord (f : List Byte) (a : DeviceAnswer) (s t : State) : Prop where
  configured : t.configured = s.configured
  cfg : t.cfg = s.cfg
  wire : t.wire = s.wire ++ f.take a.accepted
  truncated : t.truncated = (s.truncated || decide (a.accepted < f.length))
  lastWriteDuration : t.lastWriteDuration = some a.duration

theorem LatchesRecord.after {s u t : State} (h : SameRecord s u) (k : LatchesRecord u t) : LatchesRecord s t :=
  ⟨h.configured ▸ k.fresh, k.configured, k.valid, k.wire.trans h.wire, k.truncated.trans h.truncated,
    k.lastWriteDuration.trans h.lastWriteDuration⟩

theorem WritesRecord.after {f : List Byte} {a : DeviceAnswer} {s u t : State} (h : SameRecord s u)
    (k : WritesRecord f a u t) : WritesRecord f a s t :=
  ⟨k.configured.trans h.configured, k.cfg.trans h.cfg, h.wire ▸ k.wire, h.truncated ▸ k.truncated,
    k.lastWriteDuration⟩

theorem writesRecord_writeAnswer (c : Caller) (kind : TxKind) (b : Batch) (f : List Byte) (a : DeviceAnswer)
    (s : State) : WritesRecord f a s (writeAnswer c kind b f a s) := by
  unfold writeAnswer
  split_ifs with short
  · exact ⟨rfl, rfl, rfl, by simp [short], rfl⟩
  · have whole : f.take f.length = f.take a.accepted := by
      rw [List.take_length, List.take_of_length_le (Nat.le_of_not_lt short)]
    have next := SameRecord.advanceBatch c kind b (wroteBytes f f.length a.duration s)
    exact ⟨next.configured, next.cfg, by rw [next.wire, wroteBytes_wire, whole],
      by rw [next.truncated]; simp [short], next.lastWriteDuration⟩

/-- An instruction keeps the record, or is the CONFIGURE that latches it. -/
theorem exec_record {i : Instr} {s t : State} (h : exec i s = .next t) : SameRecord s t ∨ LatchesRecord s t := by
  cases exec_next h with
  | latched cfg fresh valid eq => subst eq; exact .inr ⟨fresh, rfl, valid, rfl, rfl, rfl⟩
  | received f _ eq => subst eq; exact .inl (.receive s _)
  | answered _ eq | finished _ eq | opening _ _ _ eq | closing _ _ eq | waits _ _ _ eq | takes _ _ _ _ _ _ eq
  | queues _ _ _ _ _ _ eq => subst eq; exact .inl ⟨rfl, rfl, rfl, rfl, rfl⟩

/-- What a step can do to the record. -/
inductive StepRecord (s t : State) : Prop
  | kept (same : SameRecord s t)
  | latched (latches : LatchesRecord s t)
  /-- The device answers the frame write of the caller that holds the connection lock. -/
  | wrote (c : Caller) (kind : TxKind) (b : Batch) (f : List Byte) (a : DeviceAnswer) (lock : s.connLock = some c)
      (op : s.opOf c = some (.writing kind)) (batch : s.batch = some b) (current : b.current = some f)
      (writes : WritesRecord f a s t)

/-- An instruction that runs in a state of the same record. -/
theorem StepRecord.exec {i : Instr} {s u t : State} (h : SameRecord s u) (run : exec i u = .next t) :
    StepRecord s t :=
  (exec_record run).elim (fun same => .kept (h.trans same)) (fun latches => .latched (latches.after h))

theorem step_record {s t : State} (h : step s = .next t) : StepRecord s t := by
  have event := SameRecord.takeEvent s
  cases step_next h with
  | lose _ _ eq => subst eq; exact .kept ⟨rfl, rfl, rfl, rfl, rfl⟩
  | frame _ i u fetch run => exact .exec (.fetchFrame fetch) run
  | resume _ c p _ _ _ eq => subst eq; exact .kept (event.trans (.resume c p _))
  | request _ c i u _ _ _ fetch run => exact .exec (event.trans (.fetchRequest fetch)) run
  | write _ b kind _ _ _ _ _ eq => subst eq; exact .kept (event.trans (.writeStart _ kind b _))
  | opened _ c _ a _ _ _ eq => subst eq; exact .kept (event.trans (.openAnswer c a _))
  | closed _ c a _ _ _ eq => subst eq; exact .kept (event.trans (.closeAnswer c a _))
  | wrote _ c kind b f a _ lock op batch current eq =>
    subst eq
    exact .wrote c kind b f a lock op batch current ((writesRecord_writeAnswer c kind b f a _).after event)
  | nothing _ eq => subst eq; exact .kept event

/-- Settles O49: the one step that latches a record is CONFIGURE's, and it needs an unconfigured block. -/
theorem configurationIsWrittenOnce : Obligations.ConfigurationIsWrittenOnce := by
  intro s t h configured
  cases step_record h with
  | kept same => exact ⟨same.configured.trans configured, same.cfg⟩
  | latched latches => exact absurd latches.fresh (by simp [configured])
  | wrote c kind b f a _ _ _ _ writes => exact ⟨writes.configured.trans configured, writes.cfg⟩

/-- Settles O50: only the device's answer to a frame write appends, and by the invariant the write belongs to the
batch in flight, whose owner holds both locks on a connected block. -/
theorem theWireGrowsOnlyByTheBatchInFlight : Obligations.TheWireGrowsOnlyByTheBatchInFlight := by
  intro s t inv h
  cases step_record h with
  | kept same => exact .inl same.wire
  | latched latches => exact .inl latches.wire
  | wrote c kind b f a lock op batch current writes =>
    obtain ⟨owner, writeLock, -⟩ := inv.batch_of_writing op batch
    have bytes : f.take a.accepted = f.take (min a.accepted f.length) := List.take_eq_take_min
    exact .inr ⟨c, b, f, min a.accepted f.length, writeLock, lock, inv.writing c kind op, batch, owner, current,
      Nat.min_le_right _ _, bytes ▸ writes.wire⟩

end Sys2Proof.Machine
end

section
/-! Which error CONFIGURE reports (40_configure.md R110 to R120, R238): one equation for each check, under the checks
before it passing. -/

namespace Sys2Proof.Machine

/-- The canvas is in the range R112 asks for. -/
def CanvasOk (cfg : Config) : Prop :=
  1 ≤ cfg.canvasW ∧ cfg.canvasW ≤ 65535 ∧ 1 ≤ cfg.canvasH ∧ cfg.canvasH ≤ 65535

/-- The pair (j, k) is the first, in R116's order, whose panels clash. -/
def FirstClash (ps : List PanelConfig) (clash : PanelConfig → PanelConfig → Prop) (j k : Nat) : Prop :=
  j < k ∧ (∃ a b, ps[j]? = some a ∧ ps[k]? = some b ∧ clash a b) ∧
    ∀ j' k' a b, j' < k' → k' < k ∨ (k' = k ∧ j' < j) →
      ps[j']? = some a → ps[k']? = some b → ¬ clash a b

/-! ### One panel -/

section
variable {w h k : Nat} {p : PanelConfig}

theorem checkPanel_address (addr : 255 < p.addr) : checkPanel w h k p = some (.addressOutOfRange k) :=
  if_pos addr

theorem inBounds_iff : inBounds w h p = true ↔ p.x + p.w ≤ w ∧ p.y + p.h ≤ h := by
  simp [inBounds]

theorem checkPanel_bounds (addr : p.addr ≤ 255) (out : w < p.x + p.w ∨ h < p.y + p.h) :
    checkPanel w h k p = some (.panelOutOfBounds k) := by
  have outside : ¬ inBounds w h p = true := by rw [inBounds_iff]; omega
  rw [checkPanel, if_neg addr.not_gt, if_pos (by simpa using outside)]

theorem checkPanel_height (addr : p.addr ≤ 255) (right : p.x + p.w ≤ w) (bottom : p.y + p.h ≤ h)
    (height : foldHeight p = 0 ∨ 8 < foldHeight p) : checkPanel w h k p = some (.unsupportedPanelHeight k) := by
  have fold : foldHeight p < 1 ∨ 8 < foldHeight p := by omega
  rw [checkPanel, if_neg addr.not_gt, inBounds_iff.2 ⟨right, bottom⟩, if_neg (by decide), if_pos fold]

theorem checkPanel_width (addr : p.addr ≤ 255) (right : p.x + p.w ≤ w) (bottom : p.y + p.h ≤ h)
    (low : 1 ≤ foldHeight p) (high : foldHeight p ≤ 8) (ne7 : dataWidth p ≠ 7) (ne14 : dataWidth p ≠ 14)
    (ne28 : dataWidth p ≠ 28) : checkPanel w h k p = some (.unsupportedDataWidth k) := by
  have fold : ¬ (foldHeight p < 1 ∨ 8 < foldHeight p) := by omega
  rw [checkPanel, if_neg addr.not_gt, inBounds_iff.2 ⟨right, bottom⟩, if_neg (by decide), if_neg fold,
    if_neg (by simp [ne7, ne14, ne28])]

end

/-! ### Pairs of panels, and the width class -/

/-- `firstPair` finds the first clash, where its test agrees with the clash on the panels of the list. -/
theorem firstPair_of_firstClash {rel : PanelConfig → PanelConfig → Bool} {clash : PanelConfig → PanelConfig → Prop}
    {ps : List PanelConfig} {j k : Nat} (agree : ∀ a ∈ ps, ∀ b ∈ ps, rel a b = true ↔ clash a b)
    (first : FirstClash ps clash j k) : firstPair rel ps = some (j, k) := by
  obtain ⟨lt, ⟨a, b, ha, hb, hab⟩, earlier⟩ := first
  have agreeAt : ∀ {i i' : Nat} {a b : PanelConfig}, ps[i]? = some a → ps[i']? = some b →
      (rel a b = true ↔ clash a b) := fun ha hb =>
    agree _ (List.mem_of_getElem? ha) _ (List.mem_of_getElem? hb)
  refine firstPair_some.2 ⟨lt, ⟨a, b, ha, hb, (agreeAt ha hb).2 hab⟩, fun j' k' a' b' lt' before ha' hb' => ?_⟩
  exact Bool.eq_false_iff.2 fun found => earlier j' k' a' b' lt' before ha' hb' ((agreeAt ha' hb').1 found)

theorem sameAddress_iff {a b : PanelConfig} : sameAddress a b = true ↔ a.addr = b.addr := by
  simp [sameAddress]

theorem firstPair_sameAddress_none {ps : List PanelConfig} (distinct : ps.Pairwise fun a b => a.addr ≠ b.addr) :
    firstPair sameAddress ps = none :=
  firstPair_none.2 (distinct.imp fun ne => Bool.eq_false_iff.2 fun same => ne (sameAddress_iff.1 same))

theorem mixedWidth_some {ps : List PanelConfig} {k : Nat} {p₀ p : PanelConfig} (head : ps[0]? = some p₀)
    (at_k : ps[k]? = some p) (ne : dataWidth p ≠ dataWidth p₀)
    (earlier : ∀ k' p', k' < k → ps[k']? = some p' → dataWidth p' = dataWidth p₀) : mixedWidth ps = some k := by
  cases ps with
  | nil => cases head
  | cons _ qs =>
    cases head
    cases k with
    | zero => cases at_k; exact absurd rfl ne
    | succ k =>
      have found := firstOtherWidth_some (dataWidth p₀) 1 k qs p at_k ne fun j' p' lt h =>
        earlier (j' + 1) p' (Nat.succ_lt_succ lt) h
      rw [mixedWidth, found, Nat.add_comm]

/-! ### The configuration -/

section
variable {cfg : Config} {e : Err}

theorem checkConfig_canvas (bad : ¬ CanvasOk cfg) :
    checkConfig cfg = some (.invalidCanvas cfg.canvasW cfg.canvasH) :=
  if_pos (by unfold CanvasOk at bad; omega)

theorem CanvasOk.not_bad (canvas : CanvasOk cfg) :
    ¬ (cfg.canvasW < 1 ∨ 65535 < cfg.canvasW ∨ cfg.canvasH < 1 ∨ 65535 < cfg.canvasH) := by
  unfold CanvasOk at canvas; omega

theorem checkConfig_panel (canvas : CanvasOk cfg)
    (fails : checkPanels cfg.canvasW cfg.canvasH 0 cfg.panels = some e) : checkConfig cfg = some e := by
  rw [checkConfig, if_neg canvas.not_bad, fails]

variable (canvas : CanvasOk cfg) (valid : ∀ p ∈ cfg.panels, ValidPanel cfg.canvasW cfg.canvasH p)
include canvas valid

theorem checkConfig_address {j k : Nat} (found : firstPair sameAddress cfg.panels = some (j, k)) :
    checkConfig cfg = some (.duplicateAddress j k) := by
  rw [checkConfig, if_neg canvas.not_bad, (checkPanels_none 0 _).2 valid]
  simp only [found]

theorem checkConfig_strict (distinct : cfg.panels.Pairwise fun a b => a.addr ≠ b.addr)
    (strict : cfg.strictTopology = true) : checkConfig cfg = checkStrict cfg.panels := by
  rw [checkConfig, if_neg canvas.not_bad, (checkPanels_none 0 _).2 valid]
  simp only [firstPair_sameAddress_none distinct, if_pos strict]

end

theorem checkStrict_mixed {ps : List PanelConfig} {k : Nat} (mixed : mixedWidth ps = some k) :
    checkStrict ps = some (.mixedWidthClass 0 k) := by
  rw [checkStrict, mixed]

theorem checkStrict_overlap {ps : List PanelConfig} {j k : Nat} (one : mixedWidth ps = none)
    (found : firstPair overlap ps = some (j, k)) : checkStrict ps = some (.panelOverlap j k) := by
  rw [checkStrict, one]
  simp only [found]

/-- The dispatcher's arm. -/
theorem exec_configure (cfg : Config) (s : State) : exec (.configure cfg) s = execConfigure cfg s := rfl

/-- R110: on an unconfigured block CONFIGURE reports what the checks find, and changes nothing else. -/
theorem exec_configure_err {cfg : Config} {s : State} {e : Err} (fresh : s.configured = false)
    (fails : checkConfig cfg = some e) :
    exec (.configure cfg) s = .next { s with results := s.results ++ [⟨s.turn, .err e⟩] } := by
  rw [exec_configure, execConfigure, if_neg (Bool.eq_false_iff.1 fresh), fails]
  rfl

/-- R238: the first panel that fails a check of its own is the one reported. -/
theorem exec_configure_panel_err {cfg : Config} {s : State} {e : Err} {pre post : List PanelConfig} {p : PanelConfig}
    (fresh : s.configured = false) (canvas : CanvasOk cfg) (panels : cfg.panels = pre ++ p :: post)
    (valid : ∀ q ∈ pre, ValidPanel cfg.canvasW cfg.canvasH q)
    (fails : checkPanel cfg.canvasW cfg.canvasH pre.length p = some e) :
    exec (.configure cfg) s = .next { s with results := s.results ++ [⟨s.turn, .err e⟩] } := by
  refine exec_configure_err fresh (checkConfig_panel canvas ?_)
  rw [panels]
  exact checkPanels_append 0 pre p post valid (by rwa [Nat.zero_add])

/-- Settles O10: the canvas is checked first, and then each check of the first failing panel answers under the ones
before it passing. -/
theorem configureReportsTheFirstFailingPanelCheck : Obligations.ConfigureReportsTheFirstFailingPanelCheck := by
  intro cfg s fresh report canvasOk
  refine ⟨fun bad => exec_configure_err fresh (checkConfig_canvas bad), fun canvas pre p post panels valid => ?_⟩
  have reports {e : Err} (fails : checkPanel cfg.canvasW cfg.canvasH pre.length p = some e) : report e :=
    exec_configure_panel_err fresh canvas panels valid fails
  refine ⟨fun addr => reports (checkPanel_address addr), fun addr => ⟨?bounds, fun right bottom => ⟨?height, ?width⟩⟩⟩
  case bounds => exact fun out => reports (checkPanel_bounds addr out)
  case height => exact fun height => reports (checkPanel_height addr right bottom height)
  case width =>
    exact fun low high ne7 ne14 ne28 => reports (checkPanel_width addr right bottom low high ne7 ne14 ne28)

/-- Settles O11: past the checks of the single panels, `firstPair` and `mixedWidth` find the first clash of each kind;
on valid panels `overlap` is sharing a pixel. -/
theorem configureReportsTheFirstClashingPair : Obligations.ConfigureReportsTheFirstClashingPair := by
  intro cfg s fresh lowW highW lowH highH valid report firstPairOf
  have canvas : CanvasOk cfg := ⟨lowW, highW, lowH, highH⟩
  refine ⟨?address, fun distinct strict => ?_⟩
  case address =>
    intro j k first
    have found := firstPair_of_firstClash (fun _ _ _ _ => sameAddress_iff) first
    exact exec_configure_err fresh (checkConfig_address canvas valid found)
  have reports {e : Err} (fails : checkStrict cfg.panels = some e) : report e :=
    exec_configure_err fresh ((checkConfig_strict canvas valid distinct strict).trans fails)
  refine ⟨?width, ?overlap⟩
  case width =>
    exact fun k p₀ p head at_k ne earlier => reports (checkStrict_mixed (mixedWidth_some head at_k ne earlier))
  case overlap =>
    intro one j k first
    have found := firstPair_of_firstClash (fun a ha b hb => overlap_iff (valid a ha) (valid b hb)) first
    exact reports (checkStrict_overlap ((mixedWidth_none _).2 one) found)

end Sys2Proof.Machine
end

section
/-! What the ingest decoders reject, and the bitmap of a frame they return (41_codec.md). -/

namespace Sys2Proof.Machine

variable {msg : List Byte}

theorem length_slice {i n : Nat} (fits : i + n ≤ msg.length) : (slice msg i n).length = n := by
  rw [slice, List.length_take, List.length_drop]
  omega

/-! ### The errors of DECODE_RBM -/

/-- The magic and version test, byte by byte, on a message that has the first three bytes. -/
theorem rbmHeader_bad_iff (long : headerLen ≤ msg.length) :
    (slice msg 0 2 ≠ rbmMagic ∨ msg.getD 2 0 ≠ rbmVersion) ↔
      (msg[0]? ≠ some 0x52 ∨ msg[1]? ≠ some 0x42 ∨ msg[2]? ≠ some 0x01) := by
  match msg, long with
  | b₀ :: b₁ :: b₂ :: _, _ => simp [slice, rbmMagic, rbmVersion, or_assoc, imp_iff_not_or]

theorem decodeRbm_shortHeader (short : msg.length < headerLen) :
    decodeRbm msg = .error (.shortHeader msg.length) :=
  if_pos short

theorem decodeRbm_badMagicOrVersion (long : headerLen ≤ msg.length)
    (bad : slice msg 0 2 ≠ rbmMagic ∨ msg.getD 2 0 ≠ rbmVersion) :
    decodeRbm msg = .error .badMagicOrVersion := by
  rw [decodeRbm, if_neg long.not_gt, if_pos bad]

theorem decodeRbm_shortPayload (long : headerLen ≤ msg.length)
    (good : ¬ (slice msg 0 2 ≠ rbmMagic ∨ msg.getD 2 0 ≠ rbmVersion))
    (short : msg.length - headerLen < be16 msg 6 * ceilDiv (be16 msg 4) 8) :
    decodeRbm msg =
      .error (.shortPayload (be16 msg 6 * ceilDiv (be16 msg 4) 8) (msg.length - headerLen)) := by
  rw [decodeRbm, if_neg long.not_gt, if_neg good, if_pos short]

/-- The dispatcher's arm. -/
theorem exec_decodeRbm (msg : List Byte) (s : State) : exec (.decodeRbm msg) s = execDecodeRbm msg s := rfl

/-- R136: what the decoder rejects, the operation reports, and changes nothing else. -/
theorem exec_decodeRbm_err {e : Err} (rejects : decodeRbm msg = .error e) (s : State) :
    exec (.decodeRbm msg) s = .next { s with results := s.results ++ [⟨s.turn, .err e⟩] } := by
  rw [exec_decodeRbm, execDecodeRbm, rejects]
  rfl

/-! ### The bitmap of a decoded frame -/

/-- R126: the bitmap is the `height × stride(width)` bytes after the header, and the message has them. -/
theorem decodeRbm_ok_bits {f : Frame} (ok : decodeRbm msg = .ok f) :
    headerLen + f.height * stride f.width ≤ msg.length ∧
      f.bits = slice msg headerLen (f.height * stride f.width) := by
  unfold decodeRbm at ok
  split_ifs at ok with shortHeader bad shortPayload
  cases ok
  have fits : be16 msg 6 * stride (be16 msg 4) ≤ msg.length - headerLen := Nat.le_of_not_lt shortPayload
  exact ⟨by dsimp only; omega, rfl⟩

/-- R131: the payload length is `stride(width) × height`, and the message has exactly that many bytes after the
header. -/
theorem decodeFdis_ok_bits {f : Frame} (ok : decodeFdis msg = .ok f) :
    headerLen + f.height * stride f.width ≤ msg.length ∧
      f.bits = slice msg headerLen (f.height * stride f.width) := by
  unfold decodeFdis at ok
  split_ifs at ok with shortHeader bad range mismatch shortPayload longPayload
  cases ok
  have payload : le16 msg 14 = le16 msg 12 * stride (le16 msg 10) :=
    (Decidable.not_not.1 mismatch).trans (Nat.mul_comm _ _)
  dsimp only
  rw [← payload]
  exact ⟨by omega, rfl⟩

/-! ### The obligations -/

/-- Settles O13: each error of `decodeRbm` answers under the checks before it passing; the third is read off a header
written out byte by byte. -/
theorem decodeRbmRejects : Obligations.DecodeRbmRejects := by
  intro s msg report
  refine ⟨fun short => exec_decodeRbm_err (decodeRbm_shortHeader short) s, fun long => ⟨?header, ?payload⟩⟩
  case header =>
    exact fun bad => exec_decodeRbm_err (decodeRbm_badMagicOrVersion long ((rbmHeader_bad_iff long).2 bad)) s
  case payload =>
    rintro fl w1 w0 h1 h0 rest rfl need rfl short
    exact exec_decodeRbm_err (decodeRbm_shortPayload long (mt (rbmHeader_bad_iff long).1 (by simp)) short) s

/-- Settles O16: either decoder cuts the bitmap, of that length, from a message that has the bytes. -/
theorem decodedFramesKeepTheCanvasInvariant : Obligations.DecodedFramesKeepTheCanvasInvariant := by
  intro msg f decoded
  obtain ⟨fits, bits⟩ := decoded.elim decodeRbm_ok_bits decodeFdis_ok_bits
  rw [bits, length_slice fits]

end Sys2Proof.Machine
end

section
/-! The mapper (42_mapper.md): an orientation copies each output bit from its source cell and moves bits only, and MAP's
payloads are the panels' oriented slices, bit by bit. -/

namespace Sys2Proof.Machine

/-! ### The orientations, bit by bit -/

/-- R148 to R153: each bit of an orientation's output is the input bit at its source cell. -/
theorem gridBit_orient (o : Orientation) (g : Grid) {r c : Nat} (hr : r < (orientDims o g.w g.h).2)
    (hc : c < (orientDims o g.w g.h).1) :
    gridBit (orient o g) r c = gridBit g (sourceCell o g.h g.w r c).1 (sourceCell o g.h g.w r c).2 := by
  cases o <;> exact gridBit_gridOf hr hc _

/-- The dispatcher's arms for ORIENT: the operation only answers. -/
theorem exec_orientInstr (o : Orientation) (g : Grid) (s : State) :
    exec (orientInstr o g) s = .next (s.answer s.turn (.ok (.grid (orient o g)))) := by
  cases o <;> rfl

/-- ORIENT as an operation, for every orientation at once (R146 to R153). -/
theorem exec_orientInstr_copies (o : Orientation) (g : Grid) (s : State) :
    ∃ out, exec (orientInstr o g) s = .next { s with results := s.results ++ [⟨s.turn, .ok (.grid out)⟩] } ∧
      out.wf = true ∧ out.h = (orientDims o g.w g.h).2 ∧ out.w = (orientDims o g.w g.h).1 ∧
      ∀ r c, r < (orientDims o g.w g.h).2 → c < (orientDims o g.w g.h).1 →
        gridBit out r c = gridBit g (sourceCell o g.h g.w r c).1 (sourceCell o g.h g.w r c).2 :=
  ⟨orient o g, exec_orientInstr o g s, orient_wf o g, orient_h o g, orient_w o g, fun _ _ => gridBit_orient o g⟩

/-! ### The number of set bits -/

theorem count_true_map_range (n : Nat) (f : Nat → Bool) :
    ((List.range n).map f).count true = ∑ i ∈ Finset.range n, (f i).toNat := by
  induction n with
  | zero => rfl
  | succ n ih =>
    rw [List.range_succ, List.map_append, List.count_append, ih, Finset.sum_range_succ]
    cases h : f n <;> simp [h]

/-- The set bits of a grid, counted cell by cell. -/
theorem setBits_gridOf (h w : Nat) (f : Nat → Nat → Bool) :
    setBits (gridOf h w f) = ∑ r ∈ Finset.range h, ∑ c ∈ Finset.range w, (f r c).toNat := by
  simp only [setBits, gridOf, List.map_map, Function.comp_def, count_true_map_range]
  rfl

theorem setBits_transpose (h w : Nat) (f : Nat → Nat → Bool) :
    setBits (gridOf w h fun r c => f c r) = setBits (gridOf h w f) := by
  rw [setBits_gridOf, setBits_gridOf, Finset.sum_comm]

theorem setBits_reverseRows (h w : Nat) (f : Nat → Nat → Bool) :
    setBits (gridOf h w fun r c => f (h - 1 - r) c) = setBits (gridOf h w f) := by
  rw [setBits_gridOf, setBits_gridOf]
  exact Finset.sum_range_reflect (fun r => ∑ c ∈ Finset.range w, (f r c).toNat) h

theorem setBits_reverseColumns (h w : Nat) (f : Nat → Nat → Bool) :
    setBits (gridOf h w fun r c => f r (w - 1 - c)) = setBits (gridOf h w f) := by
  rw [setBits_gridOf, setBits_gridOf]
  exact Finset.sum_congr rfl fun r _ => Finset.sum_range_reflect (fun c => (f r c).toNat) w

/-- R147: every orientation is a transposition or none, after reversals of the rows or the columns. -/
theorem setBits_orient (o : Orientation) {g : Grid} (hg : g.wf = true) : setBits (orient o g) = setBits g := by
  have whole : setBits (gridOf g.h g.w (gridBit g)) = setBits g := by rw [gridOf_gridBit hg]
  have rows := (setBits_reverseRows g.h g.w (gridBit g)).trans whole
  have columns := (setBits_reverseColumns g.h g.w (gridBit g)).trans whole
  cases o with
  | normal => exact whole
  | rot90 => exact (setBits_transpose g.h g.w fun r c => gridBit g (g.h - 1 - r) c).trans rows
  | rot180 => exact (setBits_reverseRows g.h g.w fun r c => gridBit g r (g.w - 1 - c)).trans columns
  | rot270 => exact (setBits_transpose g.h g.w fun r c => gridBit g r (g.w - 1 - c)).trans columns
  | fliph => exact columns
  | flipv => exact rows

/-! ### MAP's payloads, bit by bit -/

/-- Place c of row r of the row-major payload is bit (r, c) of the grid, and clear in the padding (R144). -/
theorem packRows_bit (g : Grid) {r c : Nat} (hr : r < g.h) (hc : c < 8 * stride g.w) :
    ((packRows g).getD (r * stride g.w + c / 8) 0).getLsbD (7 - c % 8) = (decide (c < g.w) && gridBit g r c) := by
  have byte : c / 8 < stride g.w := by omega
  have place : 8 * (c / 8) + (7 - (7 - c % 8)) = c := by omega
  rw [packRows_byte g hr byte, getLsbD_byteOf _ (by omega), place]

section
variable {frame : Frame} {p : PanelConfig} (right : p.x + p.w ≤ frame.width) (bottom : p.y + p.h ≤ frame.height)
include right bottom

/-- R155: bit r of column byte c is the canvas pixel the orientation puts there, and clear below the panel. -/
theorem foldColumns_panelGrid_bit {r c : Nat} (hr : r < 8) (hc : c < dataWidth p) :
    ((foldColumns (panelGrid frame p)).getD c 0).getLsbD r =
      (decide (r < foldHeight p) && pixel frame.bits frame.width
        (p.x + (sourceCell p.orient p.h p.w r c).2) (p.y + (sourceCell p.orient p.h p.w r c).1)) := by
  rw [foldColumns_bit _ (by rwa [panelGrid_w]) hr, panelGrid_h]
  by_cases inside : r < foldHeight p
  · rw [gridBit_panelGrid frame p right bottom inside hc]
  · simp [inside]

/-- R144: place c of row r is the canvas pixel the orientation puts there, and clear right of the panel. -/
theorem packRows_panelGrid_bit {r c : Nat} (hr : r < foldHeight p) (hc : c < 8 * stride (dataWidth p)) :
    ((packRows (panelGrid frame p)).getD (r * stride (dataWidth p) + c / 8) 0).getLsbD (7 - c % 8) =
      (decide (c < dataWidth p) && pixel frame.bits frame.width
        (p.x + (sourceCell p.orient p.h p.w r c).2) (p.y + (sourceCell p.orient p.h p.w r c).1)) := by
  have bit := packRows_bit (panelGrid frame p) (r := r) (c := c) (by rwa [panelGrid_h]) (by rwa [panelGrid_w])
  rw [panelGrid_w] at bit
  rw [bit]
  by_cases inside : c < dataWidth p
  · rw [gridBit_panelGrid frame p right bottom hr inside]
  · simp [inside]

end

/-- R156: the payload's address byte is the panel's address, since a valid panel's address fits a byte. -/
theorem payloadOf_addr_toNat (frame : Frame) (k : Nat) {p : PanelConfig} (fits : p.addr ≤ 255) :
    (payloadOf frame k p).addr.toNat = p.addr :=
  Nat.mod_eq_of_lt (Nat.lt_succ_of_le fits)

/-- The dispatcher's arm. -/
theorem exec_map (frame : Frame) (s : State) : exec (.map frame) s = execMap frame s := rfl

/-- R140, R159: on a configured block that every panel of the frame fits, MAP answers the payloads, and changes
nothing else. -/
theorem exec_map_payloads {s : State} {frame : Frame} (configured : s.configured = true)
    (fits : FrameFits s.cfg frame) :
    exec (.map frame) s = .next { s with results :=
      s.results ++ [⟨s.turn, .ok (.payloads (payloadsOf frame 0 s.cfg.panels))⟩] } := by
  rw [exec_map, execMap, mapFrame_ok configured fits]
  rfl

/-! ### The obligations -/

/-- Settles O17: the k-th payload packs the k-th panel's oriented slice, in both forms. -/
theorem mapSlicesEveryPanel : Obligations.MapSlicesEveryPanel := by
  intro s frame configured valid fits
  refine ⟨payloadsOf frame 0 s.cfg.panels, exec_map_payloads configured fits, length_payloadsOf .., ?_⟩
  intro k p at_k
  have mem : p ∈ s.cfg.panels := List.mem_of_getElem? at_k
  obtain ⟨addr, -⟩ := valid.panels p mem
  obtain ⟨right, bottom⟩ := fits.2 p mem
  have payload : (payloadsOf frame 0 s.cfg.panels)[k]? = some (payloadOf frame k p) := by
    rw [payloadsOf_getElem?, at_k, Nat.zero_add, Option.map_some]
  have rows : (packRows (panelGrid frame p)).length = foldHeight p * stride (dataWidth p) := by
    rw [length_packRows, panelGrid_h, panelGrid_w]
  exact ⟨payloadOf frame k p, payload, rfl, payloadOf_addr_toNat frame k addr, rfl, rfl,
    length_panelCols frame p, rows, fun _ _ => foldColumns_panelGrid_bit right bottom,
    fun _ _ => packRows_panelGrid_bit right bottom⟩

/-- Settles O21: the size is the orientation's by definition, and the count is that of reversed or transposed sums. -/
theorem orientationsPermuteTheBits : Obligations.OrientationsPermuteTheBits :=
  fun o g hg => ⟨Prod.ext (orient_w o g) (orient_h o g), orient_wf o g, setBits_orient o hg⟩

/-- Settles O23: the four orientations that keep the size, each by what ORIENT copies for every one. -/
theorem mirrorsExecute : Obligations.MirrorsExecute :=
  fun s g _ => ⟨exec_orientInstr_copies .normal g s, exec_orientInstr_copies .rot180 g s,
    exec_orientInstr_copies .fliph g s, exec_orientInstr_copies .flipv g s⟩

end Sys2Proof.Machine
end

section
/-! The device answers an open, and a frame write it has taken in full (44_transport.md R187, R197, R205). -/

namespace Sys2Proof.Machine

/-- Taking an event leaves all but the choices still to come as it is. -/
theorem takeEvent_frame {s u : State} {e : Event} (he : s.takeEvent = (e, u)) :
    ∃ es n, u = { s with schedule := es, draws := n } :=
  ⟨_, _, (takeEvent_snd he).trans (takeEvent_state s)⟩

/-- The two answers to an open as one update (R187, R191). -/
theorem openAnswer_eq (c : Caller) (a : DeviceAnswer) (s : State) :
    openAnswer c a s = { s with conn := if a.ok then .connected else .disconnected, connLock := none }.finish c
      (if a.ok then .ok .unit else .err (.connectError a.info)) := by
  unfold openAnswer
  split_ifs <;> rfl

/-- Settles O35: either way the answer ends the caller's operation, which is all that it changes in `ops`. -/
theorem openIsAnswered : Obligations.OpenIsAnswered := by
  intro s u a c serial idle event lock op
  obtain ⟨es, n, rfl⟩ := takeEvent_frame event
  refine ⟨_, step_opened idle event lock op, ?_⟩
  rw [openAnswer_eq]
  exact ⟨rfl, State.opOf_finish_self _ _ _, fun d other => State.opOf_finish_ne _ _ other⟩

section
variable {c : Caller} {kind : TxKind} {b : Batch} {s : State}

/-- A frame taken in full is appended whole, and the batch advances (R197, R205). -/
theorem writeAnswer_full {f : List Byte} {a : DeviceAnswer} (full : f.length ≤ a.accepted) :
    writeAnswer c kind b f a s = advanceBatch c kind b (wroteBytes f f.length a.duration s) :=
  if_neg (Nat.not_lt_of_le full)

/-- The batch goes on to its next panel frame, after the delay, or to its flush, at once (R205, R210, R212). -/
theorem advanceBatch_more
    (more : b.cur + 1 < b.frames.length ∨ (b.cur + 1 = b.frames.length ∧ b.anyBuffered = true)) :
    advanceBatch c kind b s = { s with batch := some { b with cur := b.cur + 1 } }.setOp c
      (.ready kind (if b.cur + 1 < b.frames.length then s.cfg.interPanelDelayMs else 0)) := by
  unfold advanceBatch
  by_cases panel : b.cur + 1 < b.frames.length
  · rw [if_pos panel, if_pos panel]
  · rw [if_neg panel, if_neg panel, if_pos (more.resolve_left panel)]

/-- After its flush, or after its last panel frame where none is buffered, the batch ends (R205, R214). -/
theorem advanceBatch_last
    (last : b.cur = b.frames.length ∨ (b.cur + 1 = b.frames.length ∧ b.anyBuffered = false)) :
    advanceBatch c kind b s = endBatch c (batchResult kind b) s := by
  have noPanel : ¬ b.cur + 1 < b.frames.length := by omega
  have noFlush : ¬ (b.cur + 1 = b.frames.length ∧ b.anyBuffered = true) := by
    rintro ⟨next, buffered⟩
    rcases last with flushed | ⟨-, unbuffered⟩
    · omega
    · simp [buffered] at unbuffered
  rw [advanceBatch, if_neg noPanel, if_neg noFlush]

/-- Whatever the batch does next, other callers' operations stay. -/
theorem opOf_advanceBatch_ne {d : Caller} (other : d ≠ c) : (advanceBatch c kind b s).opOf d = s.opOf d := by
  rcases advanceBatch_cases c kind b s with ⟨_, e⟩ | ⟨_, _, e⟩ | ⟨_, _, e⟩ <;> rw [e]
  · exact State.opOf_setOp_ne _ _ other
  · exact State.opOf_setOp_ne _ _ other
  · exact State.opOf_finish_ne _ _ other

theorem batchResult_eq :
    batchResult kind b = if kind = .tick then .ok (.tick b.frames.length b.anyBuffered) else .ok .unit := by
  cases kind <;> rfl

end

/-- Settles O42: a full write is appended whole, and the batch goes on or ends by the cases of its next frame. -/
theorem fullWriteAdvancesTheBatch : Obligations.FullWriteAdvancesTheBatch := by
  intro s u a c kind b f idle event lock op batch _ current full
  obtain ⟨es, n, rfl⟩ := takeEvent_frame event
  refine ⟨_, step_wrote idle event lock op batch current, ?_⟩
  rw [writeAnswer_full full]
  refine ⟨fun d other => opOf_advanceBatch_ne other, fun more => ?_, fun last => ?_⟩
  · rw [advanceBatch_more more, wroteBytes, List.take_length]
    exact ⟨rfl, State.opOf_setOp_self _ _ _⟩
  · rw [advanceBatch_last last, batchResult_eq, wroteBytes, List.take_length]
    exact ⟨rfl, State.opOf_finish_self _ _ _⟩

end Sys2Proof.Machine
end

section
/-! The ends of TICK before it takes a lock (44_transport.md R206, R207, R215; 60_exceptions.md R239). -/

namespace Sys2Proof.Machine

/-- R141: MAP reports the first panel that exceeds the frame. -/
theorem firstOutOfBounds_append {w h : Nat} (k : Nat) {pre post : List PanelConfig} {p : PanelConfig}
    (inside : ∀ q ∈ pre, q.x + q.w ≤ w ∧ q.y + q.h ≤ h) (out : w < p.x + p.w ∨ h < p.y + p.h) :
    firstOutOfBounds w h k (pre ++ p :: post) = some (k + pre.length) := by
  induction pre generalizing k with
  | nil =>
    have exceeds : ¬ inBounds w h p = true := by rw [inBounds_iff]; omega
    exact if_neg exceeds
  | cons q pre ih =>
    obtain ⟨head, tail⟩ := List.forall_mem_cons.1 inside
    rw [List.cons_append, firstOutOfBounds, if_pos (inBounds_iff.2 head), ih (k + 1) tail, List.length_cons]
    congr 1; omega

section
variable {s : State} {frame : Frame}

theorem mapFrame_notConfigured (fresh : s.configured = false) : mapFrame s frame = .error .notConfigured := by
  simp [mapFrame, fresh]

theorem mapFrame_canvasLength (configured : s.configured = true)
    (bad : frame.bits.length ≠ frame.height * stride frame.width) :
    mapFrame s frame =
      .error (.canvasLengthMismatch (frame.height * stride frame.width) frame.bits.length) := by
  simp [mapFrame, configured, bad]

theorem mapFrame_outOfBounds {k : Nat} (configured : s.configured = true)
    (length : frame.bits.length = frame.height * stride frame.width)
    (out : firstOutOfBounds frame.width frame.height 0 s.cfg.panels = some k) :
    mapFrame s frame = .error (.panelOutOfBounds k) := by
  simp [mapFrame, configured, length, out]

/-- An error of MAP ends TICK (R207). -/
theorem exec_tick_map_err {e : Err} (err : mapFrame s frame = .error e) :
    exec (.tick frame) s = .next (s.raise s.turn e) := by
  simp only [exec, execTick, startTick, err]

/-- With nothing to write TICK is Ok at once (R215). -/
theorem exec_tick_no_panels (nothing : mapFrame s frame = .ok []) :
    exec (.tick frame) s = .next (s.answer s.turn (.ok (.tick 0 false))) := by
  simp only [exec, execTick, startTick, nothing, if_true]

end

/-- Settles O46: MAP runs first, so its errors end the tick, and an empty panel list leaves nothing to write. -/
theorem tickAnswersAtOnce : Obligations.TickAnswersAtOnce := by
  intro s frame answer
  refine ⟨fun fresh => exec_tick_map_err (mapFrame_notConfigured fresh),
    fun configured bad => exec_tick_map_err (mapFrame_canvasLength configured bad),
    fun configured length => ⟨?_, ?_⟩⟩
  · intro empty
    have fits : FrameFits s.cfg frame := ⟨length, by simp [empty]⟩
    have nothing : mapFrame s frame = .ok [] := by rw [mapFrame_ok configured fits, empty, payloadsOf]
    exact exec_tick_no_panels nothing
  · intro pre p post split inside out
    have first := firstOutOfBounds_append 0 (post := post) inside out
    rw [← split, Nat.zero_add] at first
    exact exec_tick_map_err (mapFrame_outOfBounds configured length first)

end Sys2Proof.Machine
end

section
/-! A whole undisturbed TICK (44_transport.md R205, R211, R212, R214): each frame of the batch in flight takes one turn
of the transmitter, one of the device, and one of the receivers where the stream still has its meaning. -/

namespace Sys2Proof.Machine

/-! ### Runs -/

/-- Some number of steps leads from `s` to `t`. -/
def Reaches (s t : State) : Prop := ∃ n, core.run n s = .next t

theorem Reaches.refl (s : State) : Reaches s s := ⟨0, rfl⟩

/-- One more step, in front. -/
theorem Reaches.head {s t u : State} (first : step s = .next t) (later : Reaches t u) : Reaches s u := by
  obtain ⟨n, run⟩ := later
  have first : core.step s = .next t := first
  exact ⟨n + 1, by simp only [Host.Core.run, first]; exact run⟩

/-! ### The receivers between two frame writes -/

/-- Unless the stream has lost its meaning, the receivers have taken the whole wire (R176, R183). -/
def State.CaughtUp (s : State) : Prop :=
  s.rxLost = false → s.truncated = false ∧ s.rxPos = s.wire.length

/-- Unless the stream has lost its meaning, one frame is what the receivers have not taken yet. -/
def State.Unheard (f : WireFrame) (s : State) : Prop :=
  s.rxLost = false → s.truncated = false ∧ s.wire.drop s.rxPos = f.bytes

/-- The receivers take a frame, unless the stream has lost its meaning. -/
def State.hear (f : WireFrame) (s : State) : State :=
  { s with
    rx := if s.rxLost then s.rx else rxFrame s.panels s.rx f
    rxPos := if s.rxLost then s.rxPos else s.rxPos + f.bytes.length }

theorem State.CaughtUp.idle {s : State} (h : s.CaughtUp) : s.receiversDue = false := by
  cases lost : s.rxLost with
  | true => simp [State.receiversDue, lost]
  | false => simp [State.receiversDue, h lost]

/-- In a state of the invariant, idle receivers have caught up. -/
theorem Invariant.caughtUp {s : State} (h : Invariant s) (idle : s.receiversDue = false) : s.CaughtUp := by
  intro live
  obtain ⟨whole, pos⟩ : s.truncated = false ∧ s.wire.length ≤ s.rxPos := by
    simpa [State.receiversDue, live] using idle
  exact ⟨whole, Nat.le_antisymm (h.receivers live).1 pos⟩

section
variable {s t : State} {f : WireFrame}

/-- A frame that follows what the receivers have taken is the one they have not. -/
theorem State.CaughtUp.unheard (h : s.CaughtUp) (lost : t.rxLost = s.rxLost) (truncated : t.truncated = s.truncated)
    (pos : t.rxPos = s.rxPos) (wire : t.wire = s.wire ++ f.bytes) : t.Unheard f := by
  intro live
  obtain ⟨whole, caught⟩ := h (lost ▸ live)
  exact ⟨truncated.trans whole, by rw [wire, pos, caught, List.drop_left]⟩

theorem State.hear_lost (lost : s.rxLost = true) : s.hear f = s := by
  cases s
  cases lost
  rfl

/-- With the one frame taken the receivers have caught up. -/
theorem State.Unheard.caughtUp (h : s.Unheard f) : (s.hear f).CaughtUp := by
  intro live
  have live : s.rxLost = false := live
  obtain ⟨whole, rest⟩ := h live
  have size := congrArg List.length rest
  rw [List.length_drop] at size
  have positive := List.length_pos_iff.2 (WireFrame.bytes_ne_nil f)
  refine ⟨whole, ?_⟩
  simp only [State.hear, live, Bool.false_eq_true, if_false]
  omega

/-- The receivers' step where one well-formed frame stands at their place (R101, R176). -/
theorem step_hear (live : s.rxLost = false) (unheard : s.Unheard f) (length : f.data.length = f.cmd.dataLen) :
    step s = .next (s.hear f) := by
  obtain ⟨whole, rest⟩ := unheard live
  have due : s.receiversDue = true := by
    have pos : s.rxPos < s.wire.length := by
      by_contra past
      exact WireFrame.bytes_ne_nil f (rest ▸ List.drop_of_length_le (Nat.le_of_not_lt past))
    simp [State.receiversDue, live, pos]
  have cut : cutFrame (s.wire.drop s.rxPos) = .ok (f, []) := by
    rw [rest, ← cutFrame_bytes length [], List.append_nil]
  have fetch : fetchFrame s = some (f.instr, { s with rxPos := s.rxPos + f.bytes.length }) := by
    simp [fetchFrame, whole, cut]
  simp only [step, due, if_true, receiverStep, fetch, exec_instr]
  simp [State.receive, State.hear, live, whole, State.panels]

/-- A run goes on from where the receivers have taken the frame just written: in one step, or in none where the
stream has lost its meaning. -/
theorem Reaches.of_hear (unheard : s.Unheard f) (length : f.data.length = f.cmd.dataLen)
    (later : Reaches (s.hear f) t) : Reaches s t := by
  cases lost : s.rxLost with
  | true => rwa [State.hear_lost lost] at later
  | false => exact later.head (step_hear lost unheard length)

end

/-! ### What is left of a batch -/

/-- The frames a batch has still to write, from its next one on (R205, R212). -/
def Batch.remaining (b : Batch) : List (List Byte) := b.frames.drop b.cur ++ b.flush.toList

/-- A batch in flight has a frame left. -/
theorem BatchOk.remaining_ne_nil {b : Batch} (ok : BatchOk b) : b.remaining ≠ [] := by
  intro empty
  obtain ⟨panels, flush⟩ := List.append_eq_nil_iff.1 empty
  have past : ¬ b.cur < b.frames.length := Nat.not_lt_of_le (List.drop_eq_nil_iff.1 panels)
  have current := ok.current
  simp [Batch.current, past, Option.toList_eq_nil_iff.1 flush] at current

/-- The first frame left is the next one written; after it the batch goes on with the others, or ends. -/
theorem BatchOk.remaining_cons {b : Batch} {f : List Byte} {fs : List (List Byte)} (ok : BatchOk b)
    (left : b.remaining = f :: fs) : b.current = some f ∧
      (({ b with cur := b.cur + 1 }.remaining = fs ∧
          (b.cur + 1 < b.frames.length ∨ (b.cur + 1 = b.frames.length ∧ b.anyBuffered = true))) ∨
        (fs = [] ∧ (b.cur = b.frames.length ∨ (b.cur + 1 = b.frames.length ∧ b.anyBuffered = false)))) := by
  have buffered := ok.buffered
  rcases Nat.lt_or_eq_of_le ok.cur with panel | last
  · rw [Batch.remaining, List.drop_eq_getElem_cons panel, List.cons_append, List.cons.injEq] at left
    obtain ⟨rfl, rfl⟩ := left
    refine ⟨by simp [Batch.current, panel], ?_⟩
    by_cases next : b.cur + 1 < b.frames.length
    · exact .inl ⟨rfl, .inl next⟩
    · have noPanel : b.frames.drop (b.cur + 1) = [] := List.drop_of_length_le (by omega)
      cases flush : b.flush with
      | some g => exact .inl ⟨rfl, .inr ⟨by omega, by simpa [flush] using buffered⟩⟩
      | none => exact .inr ⟨by simp [noPanel], .inr ⟨by omega, by simpa [flush] using buffered⟩⟩
  · rw [Batch.remaining, last, List.drop_length, List.nil_append] at left
    cases flush : b.flush with
    | none => simp [flush] at left
    | some g =>
      obtain ⟨rfl, rfl⟩ : g = f ∧ fs = [] := by simpa [flush] using left
      exact ⟨by simp [Batch.current, last, buffered, flush], .inr ⟨rfl, .inl last⟩⟩

/-! ### One frame write -/

/-- The transmit operation of a batch stands before its next frame write, on a connected block where the receivers
have caught up and no device action is under way. -/
structure Standing (kind : TxKind) (b : Batch) (s : State) : Prop where
  caughtUp : s.CaughtUp
  conn : s.conn = .connected
  connLock : s.connLock = none
  batch : s.batch = some b
  op : ∃ ms, s.opOf b.owner = some (.ready kind ms)

/-- `t` is reached from `s` by writing frames, each taken in full, and by the receivers' taking them; what is listed
here is what that does to the connection, the configuration, the wire and the receivers. -/
structure WroteFrames (fs : List WireFrame) (d : Duration) (s t : State) : Prop where
  conn : t.conn = s.conn
  configured : t.configured = s.configured
  cfg : t.cfg = s.cfg
  wire : t.wire = s.wire ++ fs.flatMap WireFrame.bytes
  truncated : t.truncated = s.truncated
  lastWriteDuration : t.lastWriteDuration = some d
  rxLost : t.rxLost = s.rxLost
  rx : s.rxLost = false → t.rx = fs.foldl (rxFrame s.panels) s.rx

theorem WroteFrames.cons {f : WireFrame} {fs : List WireFrame} {d : Duration} {s t u : State}
    (first : WroteFrames [f] d s t) (others : WroteFrames fs d t u) : WroteFrames (f :: fs) d s u where
  conn := others.conn.trans first.conn
  configured := others.configured.trans first.configured
  cfg := others.cfg.trans first.cfg
  wire := by rw [others.wire, first.wire]; simp
  truncated := others.truncated.trans first.truncated
  lastWriteDuration := others.lastWriteDuration
  rxLost := others.rxLost.trans first.rxLost
  rx live := by
    have panels : t.panels = s.panels := by rw [State.panels, State.panels, first.configured, first.cfg]
    rw [others.rx (first.rxLost.trans live), first.rx live, panels]
    rfl

/-- The transmit operation of caller `c` has ended with a result, and the block is at rest. -/
structure TransmitEnded (c : Caller) (r : Result) (later : List Event) (s t : State) : Prop where
  caughtUp : t.CaughtUp
  schedule : t.schedule = later
  connLock : t.connLock = none
  writeLock : t.writeLock = none
  batch : t.batch = none
  op : t.opOf c = none
  results : t.results = s.results ++ [⟨c, r⟩]

/-- The state in which the caller's frame write is at the device, with the events that follow (R195, R201). -/
def State.atDevice (c : Caller) (kind : TxKind) (later : List Event) (s : State) : State :=
  { s with schedule := later, connLock := some c }.setOp c (.writing kind)

/-- The state in which the batch's next frame has been written in full and the receivers have taken it (R197, R205). -/
def State.afterWrite (kind : TxKind) (b : Batch) (f : WireFrame) (d : Duration) (later : List Event)
    (s : State) : State :=
  (advanceBatch b.owner kind b (wroteBytes f.bytes f.bytes.length d (s.atDevice b.owner kind later))).hear f

/-- R195: with the lock free a connected block hands the frame to the device. -/
theorem writeStart_connected {c : Caller} {kind : TxKind} {b : Batch} {s : State} (lock : s.connLock = none)
    (conn : s.conn = .connected) :
    writeStart c kind b s = { s with connLock := some c }.setOp c (.writing kind) := by
  simp only [writeStart, lock, conn, if_true]

/-- Going on in a batch changes nothing but the batch, its lock, its owner's operation and the results. -/
theorem advanceBatch_frame (c : Caller) (kind : TxKind) (b : Batch) (s : State) :
    ∃ batch lock ops results, advanceBatch c kind b s =
      { s with batch := batch, writeLock := lock, ops := ops, results := results } := by
  rcases advanceBatch_cases c kind b s with ⟨_, e⟩ | ⟨_, _, e⟩ | ⟨_, _, e⟩ <;> exact ⟨_, _, _, _, e⟩

section
variable {kind : TxKind} {b : Batch} {f : WireFrame} {a : DeviceAnswer} {d : Duration} {later : List Event} {s t : State}

/-- Until the receivers' turn, the frame just written is what they have not taken yet. -/
theorem unheard_advanceBatch (caughtUp : s.CaughtUp) :
    (advanceBatch b.owner kind b (wroteBytes f.bytes f.bytes.length d (s.atDevice b.owner kind later))).Unheard f := by
  obtain ⟨batch, lock, ops, results, e⟩ := advanceBatch_frame b.owner kind b
    (wroteBytes f.bytes f.bytes.length d (s.atDevice b.owner kind later))
  rw [e]
  exact caughtUp.unheard rfl rfl rfl (congrArg _ List.take_length)

/-- A frame write taken in full is a turn of the transmitter and one of the device, and then the receivers'. -/
theorem Reaches.of_write (standing : Standing kind b s) (current : b.current = some f.bytes)
    (length : f.data.length = f.cmd.dataLen) (full : f.bytes.length ≤ a.accepted)
    (schedule : s.schedule = .transmitter :: .device a :: later)
    (rest : Reaches (s.afterWrite kind b f a.duration later) t) : Reaches s t := by
  obtain ⟨ms, op⟩ := standing.op
  have start : step s = .next (s.atDevice b.owner kind (.device a :: later)) := by
    rw [step_write standing.caughtUp.idle (takeEvent_cons schedule) standing.batch op (by simp [current])]
    exact congrArg _ (writeStart_connected standing.connLock standing.conn)
  have answer : step (s.atDevice b.owner kind (.device a :: later)) =
      .next (writeAnswer b.owner kind b f.bytes a (s.atDevice b.owner kind later)) := by
    have caughtUp : (s.atDevice b.owner kind (.device a :: later)).CaughtUp := standing.caughtUp
    exact step_wrote caughtUp.idle (takeEvent_cons rfl) rfl (State.opOf_setOp_self _ _ _) standing.batch current
  rw [writeAnswer_full full] at answer
  exact .head start (.head answer (.of_hear (unheard_advanceBatch standing.caughtUp) length rest))

theorem wroteFrames_afterWrite : WroteFrames [f] d s (s.afterWrite kind b f d later) := by
  obtain ⟨batch, lock, ops, results, e⟩ := advanceBatch_frame b.owner kind b
    (wroteBytes f.bytes f.bytes.length d (s.atDevice b.owner kind later))
  rw [State.afterWrite, e]
  have wire : s.wire ++ f.bytes.take f.bytes.length = s.wire ++ [f].flatMap WireFrame.bytes := by simp
  exact ⟨rfl, rfl, rfl, wire, rfl, rfl, rfl, fun live => if_neg (ne_true_of_eq_false live)⟩

/-- With a frame left after this one, the operation stands before that one (R205, R210). -/
theorem Standing.afterWrite_more (standing : Standing kind b s)
    (more : b.cur + 1 < b.frames.length ∨ (b.cur + 1 = b.frames.length ∧ b.anyBuffered = true)) :
    Standing kind { b with cur := b.cur + 1 } (s.afterWrite kind b f d later) ∧
      (s.afterWrite kind b f d later).schedule = later ∧ (s.afterWrite kind b f d later).results = s.results := by
  have caughtUp : (s.afterWrite kind b f d later).CaughtUp := (unheard_advanceBatch standing.caughtUp).caughtUp
  rw [State.afterWrite, advanceBatch_more more] at caughtUp ⊢
  exact ⟨⟨caughtUp, standing.conn, rfl, rfl, _, State.opOf_setOp_self _ _ _⟩, rfl, rfl⟩

/-- With none left, the operation ends (R202, R205, R214). -/
theorem Standing.afterWrite_last (standing : Standing kind b s)
    (last : b.cur = b.frames.length ∨ (b.cur + 1 = b.frames.length ∧ b.anyBuffered = false)) :
    TransmitEnded b.owner (batchResult kind b) later s (s.afterWrite kind b f d later) := by
  have caughtUp : (s.afterWrite kind b f d later).CaughtUp := (unheard_advanceBatch standing.caughtUp).caughtUp
  rw [State.afterWrite, advanceBatch_last last] at caughtUp ⊢
  exact ⟨caughtUp, rfl, rfl, rfl, rfl, tableGet_tableDrop_self _ _, rfl⟩

end

/-! ### All of a batch's frame writes -/

/-- A transmit operation whose frames the device all takes in full writes what is left of its batch, in order, and ends
with its result. -/
theorem Standing.run {kind : TxKind} {a : DeviceAnswer} {later : List Event} {fs : List WireFrame}
    (lengths : ∀ f ∈ fs, f.data.length = f.cmd.dataLen) (full : ∀ f ∈ fs, f.bytes.length ≤ a.accepted)
    {b : Batch} {s : State} (standing : Standing kind b s) (ok : BatchOk b)
    (left : b.remaining = fs.map WireFrame.bytes)
    (schedule : s.schedule = (fs.flatMap fun _ => [Event.transmitter, .device a]) ++ later) :
    ∃ t, Reaches s t ∧ WroteFrames fs a.duration s t ∧ TransmitEnded b.owner (batchResult kind b) later s t := by
  induction fs generalizing b s with
  | nil => exact absurd left ok.remaining_ne_nil
  | cons f fs ih =>
    obtain ⟨length, lengths⟩ := List.forall_mem_cons.1 lengths
    obtain ⟨fits, full⟩ := List.forall_mem_cons.1 full
    obtain ⟨current, ⟨left, more⟩ | ⟨empty, last⟩⟩ := ok.remaining_cons left
    · obtain ⟨next, nextSchedule, nextResults⟩ := standing.afterWrite_more more
      obtain ⟨t, reach, wrote, ended⟩ := ih lengths full next (ok.next more) left nextSchedule
      exact ⟨t, .of_write standing current length fits schedule reach, wroteFrames_afterWrite.cons wrote,
        { ended with results := nextResults ▸ ended.results }⟩
    · cases List.map_eq_nil_iff.1 empty
      exact ⟨_, .of_write standing current length fits schedule (.refl _), wroteFrames_afterWrite,
        standing.afterWrite_last last⟩

/-! ### The frames of a tick -/

/-- A panel's frame in a tick, before it is bytes (R208, R209). -/
def tickPanelFrame (cfg : Config) (frame : Frame) (p : PanelConfig) : WireFrame :=
  ⟨(cmdLookup (dataWidth p) (refreshMode cfg (dataWidth p))).getD .flush, BitVec.ofNat 8 p.addr, panelCols frame p⟩

/-- The frames of a tick: its panels' in configuration order, and a flush where it needs one (R205, R212). -/
def tickWireFrames (cfg : Config) (frame : Frame) (flushed : Bool) : List WireFrame :=
  cfg.panels.map (tickPanelFrame cfg frame) ++ if flushed then [⟨.flush, cfg.flushAddress, []⟩] else []

/-- R88: an entry of the command table is under its data length. -/
theorem dataLen_of_cmdLookup {n : Nat} {mode : Mode} {cmd : Command} (h : cmdLookup n mode = some cmd) :
    cmd.dataLen = n := by
  unfold cmdLookup at h
  split_ifs at h with flush seven fourteen twentyEight
  · cases h; exact flush.symm
  · cases mode <;> cases h; exact seven.symm
  · cases mode <;> cases h <;> exact fourteen.symm
  · cases mode <;> cases h <;> exact twentyEight.symm

theorem dataLen_le (cmd : Command) : cmd.dataLen ≤ 28 := by cases cmd <;> decide

section
variable {cfg : Config} {frame : Frame} {p : PanelConfig}
  (width : dataWidth p = 7 ∨ dataWidth p = 14 ∨ dataWidth p = 28)
include width

theorem bytes_tickPanelFrame : (tickPanelFrame cfg frame p).bytes = tickFrameBytes cfg frame p := by
  obtain ⟨cmd, entry, byte⟩ := Option.map_eq_some_iff.1 (cmdLookup_refreshMode (cfg := cfg) width)
  rw [tickPanelFrame, entry, tickFrameBytes, ← byte]
  rfl

theorem length_tickPanelFrame :
    (tickPanelFrame cfg frame p).data.length = (tickPanelFrame cfg frame p).cmd.dataLen := by
  obtain ⟨cmd, entry, -⟩ := Option.map_eq_some_iff.1 (cmdLookup_refreshMode (cfg := cfg) width)
  rw [tickPanelFrame, entry]
  exact (length_panelCols frame p).trans (dataLen_of_cmdLookup entry).symm

end

section
variable {cfg : Config} {frame : Frame} {flushed : Bool} (valid : ValidTopology cfg)
include valid

theorem ValidTopology.width {p : PanelConfig} (mem : p ∈ cfg.panels) :
    dataWidth p = 7 ∨ dataWidth p = 14 ∨ dataWidth p = 28 := by
  obtain ⟨-, -, -, -, -, width⟩ := valid.panels p mem
  exact width

theorem bytes_tickWireFrames : (tickWireFrames cfg frame flushed).map WireFrame.bytes =
    cfg.panels.map (tickFrameBytes cfg frame) ++ if flushed then [[0x80, 0x82, cfg.flushAddress, 0x8F]] else [] := by
  rw [tickWireFrames, List.map_append, List.map_map]
  congr 1
  · exact List.map_congr_left fun p mem => bytes_tickPanelFrame (valid.width mem)
  · cases flushed <;> rfl

theorem length_tickWireFrames : ∀ f ∈ tickWireFrames cfg frame flushed, f.data.length = f.cmd.dataLen := by
  intro f mem
  rcases List.mem_append.1 mem with panel | flush
  · obtain ⟨p, configured, rfl⟩ := List.mem_map.1 panel
    exact length_tickPanelFrame (valid.width configured)
  · cases flushed with
    | true => cases List.mem_singleton.1 flush; rfl
    | false => cases flush

/-- R92: no frame of the block is longer than 32 bytes, so that many taken are every one in full. -/
theorem tickWireFrames_taken {a : DeviceAnswer} (takes : TakesAll a) :
    ∀ f ∈ tickWireFrames cfg frame flushed, f.bytes.length ≤ a.accepted := by
  intro f mem
  have takes : 32 ≤ a.accepted := takes
  have bound := dataLen_le f.cmd
  rw [WireFrame.length_bytes, length_tickWireFrames valid f mem]
  omega

end

/-! ### A whole tick -/

/-- The batch of a tick, with its frames encoded (R205, R212). -/
def batchOfTick (c : Caller) (cfg : Config) (frame : Frame) (flushed : Bool) : Batch :=
  ⟨c, cfg.panels.map (tickFrameBytes cfg frame), 0, flushed,
    if flushed then some [0x80, 0x82, cfg.flushAddress, 0x8F] else none⟩

theorem batchOk_batchOfTick {c : Caller} {cfg : Config} {frame : Frame} {flushed : Bool} (panels : cfg.panels ≠ []) :
    BatchOk (batchOfTick c cfg frame flushed) where
  cur := Nat.zero_le _
  current := by simp [Batch.current, batchOfTick, List.length_pos_iff.2 panels]
  frames f mem := by
    obtain ⟨p, -, rfl⟩ := List.mem_map.1 mem
    exact List.cons_ne_nil _ _
  flush f isFlush := by
    cases flushed with
    | true => cases isFlush; exact List.cons_ne_nil _ _
    | false => cases isFlush
  buffered := by cases flushed <;> rfl

theorem remaining_batchOfTick {c : Caller} {cfg : Config} {frame : Frame} {flushed : Bool} (valid : ValidTopology cfg) :
    (batchOfTick c cfg frame flushed).remaining = (tickWireFrames cfg frame flushed).map WireFrame.bytes := by
  rw [bytes_tickWireFrames valid]
  cases flushed <;> rfl

/-- R205, R220: with the write lock free a tick stands before its first frame write. -/
theorem exec_tick_free {s : State} {frame : Frame} {flushed : Bool} (configured : s.configured = true)
    (valid : ValidTopology s.cfg) (panels : s.cfg.panels ≠ []) (fits : FrameFits s.cfg frame)
    (flushes : flushed = true ↔ tickBuffered s.cfg) (lock : s.writeLock = none) :
    exec (.tick frame) s = .next ({ s with
      writeLock := some s.turn
      batch := some (batchOfTick s.turn s.cfg frame flushed) }.setOp s.turn (.ready .tick 0)) := by
  rw [exec_tick configured valid panels fits flushes]
  simp only [acquireWrite, lock, batchOfTick]

/-- A state of the invariant at rest, where caller `c` has asked for a tick that nothing disturbs: the events to come
are the caller's turn and a full write of each of the tick's frames, and then `later`. -/
structure UndisturbedTick (s : State) (c : Caller) (frame : Frame) (requests : List Request) (a : DeviceAnswer)
    (later : List Event) (flushed : Bool) : Prop where
  inv : Invariant s
  idle : s.receiversDue = false
  configured : s.configured = true
  conn : s.conn = .connected
  writeLock : s.writeLock = none
  connLock : s.connLock = none
  agent : c ∈ s.params.callers
  op : s.opOf c = none
  panels : s.cfg.panels ≠ []
  fits : FrameFits s.cfg frame
  takes : TakesAll a
  request : takeRequest c s.requests = some (encode (.tick frame), requests)
  flushes : flushed = true ↔ tickBuffered s.cfg
  schedule : s.schedule = .caller c ::
    ((tickWireFrames s.cfg frame flushed).flatMap fun _ => [Event.transmitter, .device a]) ++ later

/-- The state after the first step of a tick that finds the write lock free: its request is taken up, and the operation
stands before its first frame write with the events that follow (R205). -/
def State.tickStarted (c : Caller) (frame : Frame) (requests : List Request) (later : List Event) (flushed : Bool)
    (s : State) : State :=
  { s with
    schedule := later, requests := requests, turn := c, writeLock := some c
    batch := some (batchOfTick c s.cfg frame flushed) }.setOp c (.ready .tick 0)

section
variable {s : State} {c : Caller} {frame : Frame} {requests : List Request} {a : DeviceAnswer} {later : List Event}
  {flushed : Bool}

/-- The tick's first step: the request is taken up and the write lock taken for the batch (R205). -/
theorem UndisturbedTick.start (h : UndisturbedTick s c frame requests a later flushed) :
    step s = .next (s.tickStarted c frame requests
      (((tickWireFrames s.cfg frame flushed).flatMap fun _ => [Event.transmitter, .device a]) ++ later) flushed) := by
  rw [step_request h.idle (takeEvent_cons h.schedule) h.agent h.op h.request]
  have decoded : decodeRequest (encode (.tick frame)) = .ok (.tick frame) := rfl
  simp only [decoded]
  refine exec_tick_free ?_ ?_ ?_ ?_ ?_ ?_
  exacts [h.configured, h.inv.topology h.configured, h.panels, h.fits, h.flushes, h.writeLock]

/-- A whole undisturbed tick (R205, R211, R212, R214). -/
theorem UndisturbedTick.run (h : UndisturbedTick s c frame requests a later flushed) :
    ∃ t, Reaches s t ∧ WroteFrames (tickWireFrames s.cfg frame flushed) a.duration s t ∧
      TransmitEnded c (.ok (.tick s.cfg.panels.length flushed)) later s t := by
  have valid := h.inv.topology h.configured
  have caughtUp : s.CaughtUp := h.inv.caughtUp h.idle
  have standing : Standing .tick (batchOfTick c s.cfg frame flushed) (s.tickStarted c frame requests
      (((tickWireFrames s.cfg frame flushed).flatMap fun _ => [Event.transmitter, .device a]) ++ later) flushed) :=
    ⟨caughtUp, h.conn, h.connLock, rfl, 0, State.opOf_setOp_self _ _ _⟩
  obtain ⟨t, reach, wrote, ended⟩ := standing.run (length_tickWireFrames valid) (tickWireFrames_taken valid h.takes)
    (batchOk_batchOfTick h.panels) (remaining_batchOfTick valid) rfl
  have result : batchResult .tick (batchOfTick c s.cfg frame flushed) = .ok (.tick s.cfg.panels.length flushed) := by
    simp only [batchResult, batchOfTick, List.length_map]
  exact ⟨t, .head h.start reach, { wrote with }, { ended with results := result ▸ ended.results }⟩

end

/-- Settles O59: the frames of the statement are the tick's, and their writes are all that the run does. -/
theorem tickWritesItsFramesAndFlush : Obligations.TickWritesItsFramesAndFlush := by
  intro s c frame requests a rest frames flushed inv idle configured conn writeLock connLock agent op panels fits takes
    request flushes written schedule
  have bytes : frames = (tickWireFrames s.cfg frame flushed).map WireFrame.bytes :=
    written.trans (bytes_tickWireFrames (inv.topology configured)).symm
  rw [bytes, List.flatMap_map] at schedule
  have tick : UndisturbedTick s c frame requests a rest flushed :=
    ⟨inv, idle, configured, conn, writeLock, connLock, agent, op, panels, fits, takes, request, flushes, schedule⟩
  obtain ⟨t, ⟨n, run⟩, wrote, ended⟩ := tick.run
  have wire : t.wire = s.wire ++ frames.flatten := by rw [wrote.wire, bytes, List.flatMap_def]
  exact ⟨n, t, run, ended.caughtUp.idle, ended.schedule, wire, ended.results, wrote.conn.trans conn, ended.writeLock,
    ended.connLock, ended.batch, ended.op, wrote.truncated, wrote.lastWriteDuration⟩

end Sys2Proof.Machine
end

section
/-! Encodings (30_encoding.md): the round trip of every instruction, what the wire decodes to, the command table, and the
codes that no table has. -/

namespace Sys2Proof.Machine

/-! ### Every instruction -/

/-- Settles O1: each constructor's round trip is a lemma of its own (`Laws.RoundTrip`). -/
theorem decodeEncodeRoundTrip : Obligations.DecodeEncodeRoundTrip := by
  intro i
  cases i with
  | configure cfg => exact Laws.RoundTrip.configure cfg
  | decodeRbm msg => exact Laws.RoundTrip.decodeRbm msg
  | decodeFdis msg => exact Laws.RoundTrip.decodeFdis msg
  | map frame => exact Laws.RoundTrip.map frame
  | encodePanel addr data mode => exact Laws.RoundTrip.encodePanel addr data mode
  | encodeFlush addr => exact Laws.RoundTrip.encodeFlush addr
  | connect => exact Laws.RoundTrip.connect
  | disconnect => exact Laws.RoundTrip.disconnect
  | sendFrame bytes => exact Laws.RoundTrip.sendFrame bytes
  | sendFlush => exact Laws.RoundTrip.sendFlush
  | tick frame => exact Laws.RoundTrip.tick frame
  | queryStatus => exact Laws.RoundTrip.queryStatus
  | data7I addr data => exact Laws.RoundTrip.data7I addr data
  | data14I addr data => exact Laws.RoundTrip.data14I addr data
  | data14B addr data => exact Laws.RoundTrip.data14B addr data
  | data28I addr data => exact Laws.RoundTrip.data28I addr data
  | data28B addr data => exact Laws.RoundTrip.data28B addr data
  | flush addr => exact Laws.RoundTrip.flush addr
  | orientNormal grid => exact Laws.RoundTrip.orientNormal grid
  | orientRot90 grid => exact Laws.RoundTrip.orientRot90 grid
  | orientRot180 grid => exact Laws.RoundTrip.orientRot180 grid
  | orientRot270 grid => exact Laws.RoundTrip.orientRot270 grid
  | orientFliph grid => exact Laws.RoundTrip.orientFliph grid
  | orientFlipv grid => exact Laws.RoundTrip.orientFlipv grid

/-! ### The wire -/

/-- R101: what the wire decodes to is the instruction of exactly one whole frame. -/
theorem decode_wire_ok {bytes : List Byte} {i : Instr} (ok : decode (.wire bytes) = .ok i) :
    ∃ f : WireFrame, bytes = f.bytes ∧ f.data.length = f.cmd.dataLen ∧ i = f.instr := by
  simp only [decode] at ok
  split at ok
  case h_1 => cases ok
  case h_2 f cut =>
    cases ok
    obtain ⟨whole, length⟩ := cutFrame_ok cut
    exact ⟨f, by rw [whole, List.append_nil], length, rfl⟩
  case h_3 => cases ok

/-- A frame with its command's data length is its instruction's code, and that instruction is well formed (R89). -/
theorem encode_instr {f : WireFrame} (length : f.data.length = f.cmd.dataLen) :
    encode f.instr = .wire f.bytes ∧ f.instr.wf = true := by
  obtain ⟨cmd, addr, data⟩ := f
  cases cmd with
  | flush => cases List.length_eq_zero_iff.1 length; exact ⟨rfl, rfl⟩
  | data7I | data14I | data14B | data28I | data28B => exact ⟨rfl, beq_iff_eq.2 length⟩

/-- Settles O2: the bytes are one whole frame, and a whole frame is its instruction's code. -/
theorem acceptedWireBytesAreTheirEncoding : Obligations.AcceptedWireBytesAreTheirEncoding := by
  intro bytes i ok
  obtain ⟨f, rfl, length, rfl⟩ := decode_wire_ok ok
  exact encode_instr length

/-- Settles O3: each word is closed, and the decoder computes. -/
theorem specWordsDecode : Obligations.SpecWordsDecode :=
  ⟨rfl, rfl, rfl, rfl, rfl, rfl, rfl⟩

/-! ### The command table -/

/-- R88: the lengths and modes with an entry, and each entry's byte. -/
theorem cmdLookup_byte_iff (n : Nat) (mode : Mode) (b : Byte) : (cmdLookup n mode).map Command.byte = some b ↔
    (n, mode, b) ∈ [(7, Mode.instant, (0x87 : Byte)), (14, .instant, 0x92), (14, .buffered, 0x93),
      (28, .instant, 0x83), (28, .buffered, 0x84), (0, .instant, 0x82), (0, .buffered, 0x82)] := by
  unfold cmdLookup
  split_ifs with none seven fourteen twentyEight
  · cases mode <;> simp [none, Command.byte, eq_comm]
  · cases mode <;> simp [seven, Command.byte, eq_comm]
  · cases mode <;> simp [fourteen, Command.byte, eq_comm]
  · cases mode <;> simp [twentyEight, Command.byte, eq_comm]
  · simp [none, seven, fourteen, twentyEight]

/-- R89: the bytes that name a command, and each command's data length. -/
theorem commandOfByte_dataLen_iff (b : Byte) (n : Nat) : (commandOfByte b).map Command.dataLen = some n ↔
    (b, n) ∈ [((0x87 : Byte), 7), (0x92, 14), (0x93, 14), (0x83, 28), (0x84, 28), (0x82, 0)] := by
  constructor
  · intro named
    obtain ⟨cmd, found, rfl⟩ := Option.map_eq_some_iff.1 named
    rw [← byte_of_commandOfByte found]
    cases cmd <;> decide
  · simp only [List.mem_cons, Prod.mk.injEq, List.not_mem_nil, or_false]
    rintro (⟨rfl, rfl⟩ | ⟨rfl, rfl⟩ | ⟨rfl, rfl⟩ | ⟨rfl, rfl⟩ | ⟨rfl, rfl⟩ | ⟨rfl, rfl⟩) <;> rfl

/-- Settles O4: the table and its inverse, entry by entry. -/
theorem commandTableAndItsInverse : Obligations.CommandTableAndItsInverse :=
  ⟨cmdLookup_byte_iff, commandOfByte_dataLen_iff⟩

/-! ### Codes that no table has -/

/-- R97: a byte outside the twelve labels names no operation. -/
theorem hostOpOfLabel_none {b : Byte}
    (outside : b ∉ [(0x01 : Byte), 0x10, 0x11, 0x20, 0x28, 0x29, 0x30, 0x31, 0x32, 0x33, 0x34, 0x40]) :
    hostOpOfLabel b = none := by
  simp only [List.mem_cons, List.not_mem_nil, or_false, not_or] at outside
  simp only [hostOpOfLabel, outside, if_false]

/-- R90: the codes from 6 on name no orientation, and no others. -/
theorem orientationOfCode_none_iff {b : Byte} : orientationOfCode b = none ↔ 6 ≤ b.toNat := by
  unfold orientationOfCode
  split_ifs with normal rot90 rot180 rot270 fliph flipv
  · simp [normal]
  · simp [rot90]
  · simp [rot180]
  · simp [rot270]
  · simp [fliph]
  · simp [flipv]
  · simp only [true_iff]; bv_omega

/-- R91: the codes from 2 on name no mode. -/
theorem modeOfCode_none {b : Byte} (outside : 2 ≤ b.toNat) : modeOfCode b = none := by
  have instant : b ≠ 0 := by bv_omega
  have buffered : b ≠ 1 := by bv_omega
  rw [modeOfCode, if_neg instant, if_neg buffered]

theorem RawPanel.decode_error {p : RawPanel} (outside : 6 ≤ p.orient.toNat) :
    p.decode = .error (.unknownOrientation p.orient) := by
  rw [RawPanel.decode, orientationOfCode_none_iff.2 outside]

theorem RawPanel.decode_ok {p : RawPanel} (inside : p.orient.toNat < 6) : ∃ q, p.decode = .ok q := by
  obtain ⟨o, named⟩ := Option.ne_none_iff_exists'.1 (mt orientationOfCode_none_iff.1 (Nat.not_le_of_lt inside))
  exact ⟨_, by rw [RawPanel.decode, named]⟩

/-- R111, R245: the first panel with an unknown orientation refuses the whole table. -/
theorem decodePanels_error {pre post : List RawPanel} {p : RawPanel} (earlier : ∀ q ∈ pre, q.orient.toNat < 6)
    (outside : 6 ≤ p.orient.toNat) : decodePanels (pre ++ p :: post) = .error (.unknownOrientation p.orient) := by
  induction pre with
  | nil => simp only [List.nil_append, decodePanels, RawPanel.decode_error outside]
  | cons q pre ih =>
    obtain ⟨head, tail⟩ := List.forall_mem_cons.1 earlier
    obtain ⟨panel, ok⟩ := RawPanel.decode_ok head
    simp only [List.cons_append, decodePanels, ok, ih tail]

/-! ### Operands of another type -/

section
variable {op : HostOp} {args : Operands}

theorem decodeOperands_not_none (takes : op ∈ [HostOp.connect, .disconnect, .sendFlush, .queryStatus])
    (other : args ≠ .none) : decodeOperands op args = .error .wrongOperand := by
  simp only [List.mem_cons, List.not_mem_nil, or_false] at takes
  cases args with
  | none => exact absurd rfl other
  | config _ | message _ | frame _ | panel _ _ _ | address _ => rcases takes with rfl | rfl | rfl | rfl <;> rfl

theorem decodeOperands_not_config (other : ∀ cfg, args ≠ .config cfg) :
    decodeOperands .configure args = .error .wrongOperand := by
  cases args with
  | config cfg => exact absurd rfl (other cfg)
  | none | message _ | frame _ | panel _ _ _ | address _ => rfl

theorem decodeOperands_not_message (takes : op ∈ [HostOp.decodeRbm, .decodeFdis, .sendFrame])
    (other : ∀ bytes, args ≠ .message bytes) : decodeOperands op args = .error .wrongOperand := by
  simp only [List.mem_cons, List.not_mem_nil, or_false] at takes
  cases args with
  | message bytes => exact absurd rfl (other bytes)
  | none | config _ | frame _ | panel _ _ _ | address _ => rcases takes with rfl | rfl | rfl <;> rfl

theorem decodeOperands_not_frame (takes : op ∈ [HostOp.map, .tick]) (other : ∀ frame, args ≠ .frame frame) :
    decodeOperands op args = .error .wrongOperand := by
  simp only [List.mem_cons, List.not_mem_nil, or_false] at takes
  cases args with
  | frame frame => exact absurd rfl (other frame)
  | none | config _ | message _ | panel _ _ _ | address _ => rcases takes with rfl | rfl <;> rfl

theorem decodeOperands_not_panel (other : ∀ addr data m, args ≠ .panel addr data m) :
    decodeOperands .encodePanel args = .error .wrongOperand := by
  cases args with
  | panel addr data m => exact absurd rfl (other addr data m)
  | none | config _ | message _ | frame _ | address _ => rfl

theorem decodeOperands_not_address (other : ∀ addr, args ≠ .address addr) :
    decodeOperands .encodeFlush args = .error .wrongOperand := by
  cases args with
  | address addr => exact absurd rfl (other addr)
  | none | config _ | message _ | frame _ | panel _ _ _ => rfl

end

/-- R245: any form of operands beside another operation's label is of another type. -/
theorem decodeHost_wrongOperand {label : Byte} {args : Operands}
    (other : (label ∈ [(0x30 : Byte), 0x31, 0x33, 0x40] ∧ args ≠ .none) ∨
      (label = 0x01 ∧ ∀ cfg, args ≠ .config cfg) ∨
      (label ∈ [(0x10 : Byte), 0x11, 0x32] ∧ ∀ bytes, args ≠ .message bytes) ∨
      (label ∈ [(0x20 : Byte), 0x34] ∧ ∀ frame, args ≠ .frame frame) ∨
      (label = 0x28 ∧ ∀ addr data m, args ≠ .panel addr data m) ∨
      (label = 0x29 ∧ ∀ addr, args ≠ .address addr)) : decodeHost label args = .error .wrongOperand := by
  simp only [List.mem_cons, List.not_mem_nil, or_false] at other
  rcases other with ⟨rfl | rfl | rfl | rfl, other⟩ | ⟨rfl, other⟩ | ⟨rfl | rfl | rfl, other⟩ | ⟨rfl | rfl, other⟩ |
    ⟨rfl, other⟩ | ⟨rfl, other⟩
  · exact decodeOperands_not_none (op := .connect) (by decide) other
  · exact decodeOperands_not_none (op := .disconnect) (by decide) other
  · exact decodeOperands_not_none (op := .sendFlush) (by decide) other
  · exact decodeOperands_not_none (op := .queryStatus) (by decide) other
  · exact decodeOperands_not_config other
  · exact decodeOperands_not_message (op := .decodeRbm) (by decide) other
  · exact decodeOperands_not_message (op := .decodeFdis) (by decide) other
  · exact decodeOperands_not_message (op := .sendFrame) (by decide) other
  · exact decodeOperands_not_frame (op := .map) (by decide) other
  · exact decodeOperands_not_frame (op := .tick) (by decide) other
  · exact decodeOperands_not_panel other
  · exact decodeOperands_not_address other

/-! ### A request that is refused, and one that runs -/

theorem decodeRequest_error {code : Code} {e : DecodeError} (host : ∀ bytes, code ≠ .wire bytes)
    (bad : decode code = .error e) : decodeRequest code = .error (refusalOf e) := by
  cases code with
  | wire bytes => exact absurd rfl (host bytes)
  | host label args => simp only [decodeRequest, bad]
  | orient o g => simp only [decodeRequest, bad]

theorem decodeRequest_ok {code : Code} {i : Instr} (host : ∀ bytes, code ≠ .wire bytes)
    (ok : decode code = .ok i) : decodeRequest code = .ok i := by
  cases code with
  | wire bytes => exact absurd rfl (host bytes)
  | host label args => simp only [decodeRequest, ok]
  | orient o g => simp only [decodeRequest, ok]

/-- Settles O5: the caller's step answers the decoder's error, and each clause is one error of the decoder. -/
theorem undefinedCodesAreRefused : Obligations.UndefinedCodesAreRefused := by
  intro s c u code rest idle event agent op request
  have refused {e : DecodeError} (host : ∀ bytes, code ≠ .wire bytes) (bad : decode code = .error e) :
      step s = .refused (refusalOf e) := by
    rw [step_request idle event agent op request, decodeRequest_error host bad]
  refine ⟨?label, ?orientation, ?mode, ?panel, ?operand, ?grid⟩
  case label =>
    rintro label args rfl outside
    exact refused (by simp) (e := .unknownLabel label) (by simp only [decode, decodeHost, hostOpOfLabel_none outside])
  case orientation =>
    rintro o g rfl outside
    exact refused (by simp) (e := .unknownOrientation o)
      (by simp only [decode, decodeOrient, orientationOfCode_none_iff.2 outside])
  case mode =>
    rintro addr data m rfl outside
    have bad : decodeOperands .encodePanel (.panel addr data m) = .error (.unknownMode m) := by
      simp only [decodeOperands, modeOfCode_none outside]
    exact refused (by simp) bad
  case panel =>
    rintro raw pre p post rfl panels earlier outside
    have bad : decodeOperands .configure (.config raw) = .error (.unknownOrientation p.orient) := by
      simp only [decodeOperands, RawConfig.decode, panels, decodePanels_error earlier outside]
    exact refused (by simp) bad
  case operand =>
    rintro label args rfl other
    exact refused (by simp) (decodeHost_wrongOperand other)
  case grid =>
    rintro o g rfl inside bad
    obtain ⟨orientation, named⟩ :=
      Option.ne_none_iff_exists'.1 (mt orientationOfCode_none_iff.1 (Nat.not_le_of_lt inside))
    exact refused (by simp) (e := .wrongOperand) (by simp [decode, decodeOrient, named, bad])

/-- Settles O6: the two kinds of a caller's turn, each by its own step lemma. -/
theorem callerStepRunsItsRequest : Obligations.CallerStepRunsItsRequest := by
  intro s c u idle event
  refine ⟨fun code rest i agent op request host ok => ?_, step_stranger idle event⟩
  rw [step_request idle event agent op request, decodeRequest_ok host ok]

/-! ### The receivers' turn -/

/-- R176, R182: a whole frame at the receivers' place runs, and their place moves past it. -/
theorem step_frame {s : State} {f : WireFrame} {rest : List Byte} (live : s.rxLost = false)
    (whole : s.truncated = false) (length : f.data.length = f.cmd.dataLen)
    (at_place : s.wire.drop s.rxPos = f.bytes ++ rest) :
    step s = exec f.instr { s with rxPos := s.rxPos + f.bytes.length } := by
  have inside : s.rxPos < s.wire.length := by
    have size := congrArg List.length at_place
    rw [List.length_drop, List.length_append, WireFrame.length_bytes] at size
    omega
  have due : s.receiversDue = true := by simp [State.receiversDue, live, inside]
  have fetch : fetchFrame s = some (f.instr, { s with rxPos := s.rxPos + f.bytes.length }) := by
    simp [fetchFrame, whole, at_place, cutFrame_bytes length]
  simp only [step, due, if_true, receiverStep, fetch]

/-- Settles O7: the bytes written out are the frame's. -/
theorem receiversRunTheFrameOnTheWire : Obligations.ReceiversRunTheFrameOnTheWire := by
  intro s f rest live whole length at_place
  rw [step_frame live whole length at_place, WireFrame.length_bytes]

end Sys2Proof.Machine
end

section
/-! The invariant: it holds at reset, every step keeps it (10_state.md), and no step writes the parameters of R4. -/

namespace Sys2Proof.Machine

/-! ### Reset -/

theorem invariant_resetWith (p : Params) : Invariant (State.resetWith p) where
  ops := tableWf_nil
  callers _ op := absurd rfl op
  rx := rxWf_nil
  connLock _ := ⟨nofun, nofun⟩
  writeLock _ := ⟨nofun, nofun⟩
  batchOwner := rfl
  batch _ h := nomatch h
  waiting _ _ _ op := nomatch op
  connectWaiting _ op := nomatch op
  connecting := ⟨nofun, nofun⟩
  opening _ _ op := nomatch op
  writing _ _ op := nomatch op
  closing _ op := nomatch op
  connConfigured conn := absurd rfl conn
  unconfigured _ := ⟨rfl, rfl, rfl⟩
  topology configured := nomatch configured
  receivers _ := ⟨Nat.le_refl _, [], rfl, rfl⟩
  lost _ := rfl

/-- Settles O54: the reset state has no operation, no lock and an empty wire. -/
theorem invariantHoldsAtReset : Obligations.InvariantHoldsAtReset :=
  ⟨invariant_resetWith paramsAtReset, invariant_resetWith⟩

/-- Settles O48: every field is read off the reset state. -/
theorem resetLeavesTheSpecifiedValues : Obligations.ResetLeavesTheSpecifiedValues :=
  ⟨rfl, fun _ => ⟨rfl, rfl, rfl, rfl, rfl, rfl, rfl, rfl, rfl, fun _ => rfl⟩⟩

/-! ### What only the receivers write -/

/-- The parameters of R4, and what the receivers keep of the panels (R41, R183), stand in `t` as in `s`. -/
structure SameReceivers (s t : State) : Prop where
  params : t.params = s.params
  rx : t.rx = s.rx
  rxLost : t.rxLost = s.rxLost

namespace SameReceivers

theorem refl (s : State) : SameReceivers s s := ⟨rfl, rfl, rfl⟩

theorem trans {s t u : State} (h : SameReceivers s t) (k : SameReceivers t u) : SameReceivers s u :=
  ⟨k.params.trans h.params, k.rx.trans h.rx, k.rxLost.trans h.rxLost⟩

theorem takeEvent (s : State) : SameReceivers s s.takeEvent.2 := by
  rw [takeEvent_state]; exact ⟨rfl, rfl, rfl⟩

theorem acquireConn {c : Caller} {wait : Phase} {body : State → State} {s : State} (h : SameReceivers s (body s)) :
    SameReceivers s (acquireConn c wait body s) := by
  unfold Machine.acquireConn
  split
  · exact h
  · exact ⟨rfl, rfl, rfl⟩

theorem connectBody (c : Caller) (s : State) : SameReceivers s (connectBody c s) := by
  unfold Machine.connectBody
  split_ifs <;> exact ⟨rfl, rfl, rfl⟩

theorem disconnectBody (c : Caller) (s : State) : SameReceivers s (disconnectBody c s) := by
  unfold Machine.disconnectBody
  split_ifs <;> exact ⟨rfl, rfl, rfl⟩

theorem acquireWrite (c : Caller) (kind : TxKind) (b : Batch) (s : State) :
    SameReceivers s (acquireWrite c kind b s) := by
  unfold Machine.acquireWrite
  split <;> exact ⟨rfl, rfl, rfl⟩

theorem resume (c : Caller) (p : Phase) (s : State) : SameReceivers s (resume c p s) := by
  cases p with
  | connectWait => exact acquireConn (connectBody c s)
  | disconnectWait => exact acquireConn (disconnectBody c s)
  | writeWait kind b => exact acquireWrite c kind b s
  | opening _ | closing | ready _ _ | writing _ => exact refl s

theorem openAnswer (c : Caller) (a : DeviceAnswer) (s : State) : SameReceivers s (openAnswer c a s) := by
  rw [openAnswer_eq]; exact ⟨rfl, rfl, rfl⟩

theorem writeStart (c : Caller) (kind : TxKind) (b : Batch) (s : State) :
    SameReceivers s (writeStart c kind b s) := by
  rcases writeStart_cases c kind b s with ⟨_, e⟩ | ⟨_, _, e⟩ | ⟨_, _, e⟩ <;> rw [e] <;> exact ⟨rfl, rfl, rfl⟩

theorem writeAnswer (c : Caller) (kind : TxKind) (b : Batch) (f : List Byte) (a : DeviceAnswer) (s : State) :
    SameReceivers s (writeAnswer c kind b f a s) := by
  unfold Machine.writeAnswer
  split_ifs
  · exact ⟨rfl, rfl, rfl⟩
  · obtain ⟨batch, lock, ops, results, e⟩ := advanceBatch_frame c kind b (wroteBytes f f.length a.duration s)
    rw [e]
    exact ⟨rfl, rfl, rfl⟩

/-- A caller's operation is no wire command, and only those write what the receivers keep. -/
theorem exec {i : Instr} {s t : State} (run : exec i s = .next t) (host : ∀ f : WireFrame, i ≠ f.instr) :
    SameReceivers s t := by
  cases exec_next run with
  | received f instr _ => exact absurd instr (host f)
  | answered _ eq | latched _ _ _ eq | finished _ eq | opening _ _ _ eq | closing _ _ eq | waits _ _ _ eq
  | takes _ _ _ _ _ _ eq | queues _ _ _ _ _ _ eq => subst eq; exact ⟨rfl, rfl, rfl⟩

end SameReceivers

/-- What a step can do to the parameters and to what the receivers keep of the panels. -/
inductive StepReceivers (s t : State) : Prop
  | kept (same : SameReceivers s t)
  /-- The receivers lose the stream (R183). -/
  | lose (live : s.rxLost = false) (eq : t = s.loseStream)
  /-- The receivers take a frame (R176). -/
  | frame (live : s.rxLost = false) (f : WireFrame) (params : t.params = s.params) (lost : t.rxLost = false)
      (rx : t.rx = rxFrame s.panels s.rx f)

theorem live_of_due {s : State} (due : s.receiversDue = true) : s.rxLost = false := by
  by_contra lost
  simp [State.receiversDue, lost] at due

theorem step_receivers {s t : State} (h : step s = .next t) : StepReceivers s t := by
  have event := SameReceivers.takeEvent s
  cases step_next h with
  | lose due _ eq => exact .lose (live_of_due due) eq
  | frame due i u fetch run =>
    obtain ⟨f, rest, whole, -, rfl, rfl⟩ := fetchFrame_some fetch
    have live := live_of_due due
    rw [exec_instr] at run
    cases run
    refine .frame live f ?_ ?_ ?_ <;> simp [State.receive, live, whole, State.panels]
  | resume _ c p _ _ _ eq => subst eq; exact .kept (event.trans (.resume c p _))
  | request _ c i u _ _ _ fetch run =>
    obtain ⟨code, rest, -, decoded, rfl⟩ := fetchRequest_some fetch
    have ran := SameReceivers.exec run (decodeRequest_ne_instr decoded.symm)
    exact .kept (event.trans ⟨ran.params, ran.rx, ran.rxLost⟩)
  | write _ b kind _ _ _ _ _ eq => subst eq; exact .kept (event.trans (.writeStart _ kind b _))
  | opened _ c _ a _ _ _ eq => subst eq; exact .kept (event.trans (.openAnswer c a _))
  | closed _ c a _ _ _ eq => subst eq; exact .kept (event.trans ⟨rfl, rfl, rfl⟩)
  | wrote _ c kind b f a _ _ _ _ _ eq => subst eq; exact .kept (event.trans (.writeAnswer c kind b f a _))
  | nothing _ eq => subst eq; exact .kept event

theorem step_params {s t : State} (h : step s = .next t) : t.params = s.params := by
  cases step_receivers h with
  | kept same => exact same.params
  | lose _ eq => subst eq; rfl
  | frame _ _ params _ _ => exact params

/-! ### Every step -/

section
variable {s : State} (inv : Invariant s) {c : Caller}
include inv

/-- The transmitter's turn before a frame write (R195, R196). -/
theorem Invariant.writeStarts {kind : TxKind} {ms : Nat} (op : s.opOf c = some (.ready kind ms)) (b : Batch) :
    Invariant (writeStart c kind b s) := by
  rcases writeStart_cases c kind b s with ⟨-, e⟩ | ⟨lock, -, e⟩ | ⟨lock, conn, e⟩ <;> rw [e]
  · exact inv
  · have ends := inv.batch_ends op rfl (.inl lock) (.err (.notConnected (batchPos kind b)))
    rwa [← lock] at ends
  · exact inv.toWriting op lock conn

/-- The device's answer to an open (R187, R191). -/
theorem Invariant.openAnswered {serial : SerialParams} (op : s.opOf c = some (.opening serial)) (a : DeviceAnswer) :
    Invariant (openAnswer c a s) := by
  rw [openAnswer_eq]
  refine inv.endConn op (.inl ⟨serial, rfl⟩) _ _ (.inl ⟨⟨serial, rfl⟩, ?_⟩)
  cases a.ok with
  | true => exact .inl rfl
  | false => exact .inr rfl

/-- The device's answer to a close (R193): the connection is down already. -/
theorem Invariant.closeAnswered (op : s.opOf c = some .closing) (a : DeviceAnswer) :
    Invariant (closeAnswer c a s) :=
  inv.endConn op (.inr rfl) s.conn _ (.inr ⟨rfl, inv.closing c op⟩)

end

theorem Invariant.of_step {s t : State} (inv : Invariant s) (h : step s = .next t) : Invariant t := by
  have event := inv.takeEvent
  cases step_next h with
  | lose _ _ eq => subst eq; exact inv.loseStream
  | frame due i u fetch run => exact inv.frame fetch due run
  | resume _ c p _ _ op eq => subst eq; exact event.resumes (by rwa [takeEvent_opOf])
  | request _ c i u _ agent op fetch run =>
    obtain ⟨code, rest, -, decoded, rfl⟩ := fetchRequest_some fetch
    have taken := event.of_same rest s.takeEvent.2.results c s.takeEvent.2.schedule s.takeEvent.2.draws
    refine taken.runs run ?_ ?_ (decodeRequest_ne_instr decoded.symm)
    · exact (takeEvent_params s).symm ▸ agent
    · exact (takeEvent_opOf s c).trans op
  | write _ b kind ms _ _ op _ eq => subst eq; exact event.writeStarts ((takeEvent_opOf s _).trans op) b
  | opened _ c serial a _ _ op eq => subst eq; exact event.openAnswered ((takeEvent_opOf s c).trans op) a
  | closed _ c a _ _ op eq => subst eq; exact event.closeAnswered ((takeEvent_opOf s c).trans op) a
  | wrote _ c kind b f a _ _ op batch _ eq =>
    subst eq
    exact event.write_answered a ((takeEvent_opOf s c).trans op) ((takeEvent_batch s).trans batch)
  | nothing _ eq => subst eq; exact event

/-- Settles O55: each way a step can go keeps the invariant, and none writes the parameters. -/
theorem everyStepKeepsTheInvariant : Obligations.EveryStepKeepsTheInvariant :=
  fun _ _ inv h => ⟨inv.of_step h, step_params h⟩

end Sys2Proof.Machine
end

section
/-! CONFIGURE's verdict as a whole (40_configure.md R110, R119, R121), and what the ingest decoders return
(41_codec.md R126, R131) and what DECODE_FDIS rejects (R236). -/

namespace Sys2Proof.Machine

/-! ### CONFIGURE -/

/-- Settles O8: the checks find nothing exactly in a valid topology. -/
theorem configureLatchesExactlyValidTopologies : Obligations.ConfigureLatchesExactlyValidTopologies := by
  intro cfg s fresh
  refine ⟨fun valid => ?_, fun invalid => ?_⟩
  · rw [exec_configure, execConfigure, if_neg (Bool.eq_false_iff.1 fresh), (checkConfig_none cfg).2 valid]
    rfl
  · obtain ⟨e, fails⟩ := Option.ne_none_iff_exists'.1 (mt (checkConfig_none cfg).1 invalid)
    exact ⟨e, exec_configure_err fresh fails⟩

/-- Settles O9: a configured block is asked before any check. -/
theorem secondConfigureChangesNothing : Obligations.SecondConfigureChangesNothing := by
  intro cfg s configured
  rw [exec_configure, execConfigure, if_pos configured]
  rfl

/-! ### Headers written out byte by byte -/

/-- A 16-byte header and a body: the message is long enough, and what follows the header is the body. -/
theorem header_append {header body : List Byte} (size : header.length = headerLen) :
    headerLen ≤ (header ++ body).length ∧ (header ++ body).length - headerLen = body.length ∧
      ∀ n, slice (header ++ body) headerLen n = body.take n := by
  refine ⟨?_, ?_, fun n => ?_⟩
  · rw [List.length_append]; omega
  · rw [List.length_append]; omega
  · rw [slice, ← size, List.drop_left]

/-! ### DECODE_RBM -/

/-- R126: past its checks DECODE_RBM returns the frame the header describes. -/
theorem decodeRbm_ok {msg : List Byte} (long : headerLen ≤ msg.length)
    (good : ¬ (slice msg 0 2 ≠ rbmMagic ∨ msg.getD 2 0 ≠ rbmVersion))
    (enough : be16 msg 6 * ceilDiv (be16 msg 4) 8 ≤ msg.length - headerLen) :
    decodeRbm msg = .ok
      { width := be16 msg 4, height := be16 msg 6
        bits := slice msg headerLen (be16 msg 6 * ceilDiv (be16 msg 4) 8)
        seq := BitVec.ofNat 32 (be32 msg 8), durationMs := BitVec.ofNat 16 (be16 msg 12)
        flags := msg.getD 3 0, timestamp := none, format := .rbm } := by
  rw [decodeRbm, if_neg long.not_gt, if_neg good, if_neg (Nat.not_lt_of_le enough)]

/-- Settles O12: the header's fields are read off its bytes, and the body follows it. -/
theorem decodeRbmReturnsTheFrame : Obligations.DecodeRbmReturnsTheFrame := by
  rintro s fl w1 w0 h1 h0 s3 s2 s1 s0 d1 d0 r1 r0 body w h rfl rfl enough
  obtain ⟨long, after, bitmap⟩ := header_append (body := body)
    (header := [0x52, 0x42, 0x01, fl, w1, w0, h1, h0, s3, s2, s1, s0, d1, d0, r1, r0]) rfl
  have decoded := decodeRbm_ok long (mt (rbmHeader_bad_iff long).1 (by simp)) (by rw [after]; exact enough)
  have seq : (s3.toNat * 256 + s2.toNat) * 65536 + (s1.toNat * 256 + s0.toNat) =
      ((s3.toNat * 256 + s2.toNat) * 256 + s1.toNat) * 256 + s0.toNat := by omega
  rw [exec_decodeRbm, execDecodeRbm, decoded, bitmap, ← seq]
  rfl

/-! ### DECODE_FDIS -/

/-- R131's limits, as the decoder tests them. -/
theorem fdis_outOfRange {w h : Nat} (out : w = 0 ∨ 1024 < w ∨ h = 0 ∨ 1024 < h) :
    w < 1 ∨ fdisLimit < w ∨ h < 1 ∨ fdisLimit < h := by
  unfold fdisLimit; omega

theorem fdis_inRange {w h : Nat} (lowW : 1 ≤ w) (highW : w ≤ 1024) (lowH : 1 ≤ h) (highH : h ≤ 1024) :
    ¬ (w < 1 ∨ fdisLimit < w ∨ h < 1 ∨ fdisLimit < h) := by
  unfold fdisLimit; omega

section
variable {msg : List Byte}

/-- The dispatcher's arm. -/
theorem exec_decodeFdis (msg : List Byte) (s : State) : exec (.decodeFdis msg) s = execDecodeFdis msg s := rfl

/-- R136: what the decoder rejects, the operation reports, and changes nothing else. -/
theorem exec_decodeFdis_err {e : Err} (rejects : decodeFdis msg = .error e) (s : State) :
    exec (.decodeFdis msg) s = .next { s with results := s.results ++ [⟨s.turn, .err e⟩] } := by
  rw [exec_decodeFdis, execDecodeFdis, rejects]
  rfl

theorem decodeFdis_shortHeader (short : msg.length < headerLen) :
    decodeFdis msg = .error (.shortHeader msg.length) :=
  if_pos short

variable (long : headerLen ≤ msg.length)
include long

theorem decodeFdis_badMagic (bad : slice msg 0 4 ≠ fdisMagic) : decodeFdis msg = .error .badMagicOrVersion := by
  rw [decodeFdis, if_neg long.not_gt, if_pos bad]

variable (magic : slice msg 0 4 = fdisMagic)
include magic

theorem decodeFdis_dimension
    (out : le16 msg 10 < 1 ∨ fdisLimit < le16 msg 10 ∨ le16 msg 12 < 1 ∨ fdisLimit < le16 msg 12) :
    decodeFdis msg = .error (.dimensionOutOfRange (le16 msg 10) (le16 msg 12)) := by
  rw [decodeFdis, if_neg long.not_gt, if_neg (not_not_intro magic), if_pos out]

variable
  (inRange : ¬ (le16 msg 10 < 1 ∨ fdisLimit < le16 msg 10 ∨ le16 msg 12 < 1 ∨ fdisLimit < le16 msg 12))
include inRange

theorem decodeFdis_lengthField (mismatch : le16 msg 14 ≠ ceilDiv (le16 msg 10) 8 * le16 msg 12) :
    decodeFdis msg = .error (.payloadLengthMismatch (ceilDiv (le16 msg 10) 8 * le16 msg 12) (le16 msg 14)) := by
  rw [decodeFdis, if_neg long.not_gt, if_neg (not_not_intro magic), if_neg inRange, if_pos mismatch]

variable (length : le16 msg 14 = ceilDiv (le16 msg 10) 8 * le16 msg 12)
include length

theorem decodeFdis_shortPayload (short : msg.length - headerLen < le16 msg 14) :
    decodeFdis msg = .error (.shortPayload (le16 msg 14) (msg.length - headerLen)) := by
  rw [decodeFdis, if_neg long.not_gt, if_neg (not_not_intro magic), if_neg inRange, if_neg (not_not_intro length),
    if_pos short]

theorem decodeFdis_longPayload (extra : le16 msg 14 < msg.length - headerLen) :
    decodeFdis msg = .error (.payloadLengthMismatch (le16 msg 14) (msg.length - headerLen)) := by
  rw [decodeFdis, if_neg long.not_gt, if_neg (not_not_intro magic), if_neg inRange, if_neg (not_not_intro length),
    if_neg extra.not_gt, if_pos extra]

/-- R131: past its checks DECODE_FDIS returns the frame the header describes. -/
theorem decodeFdis_ok {body : List Byte} (whole : msg.length - headerLen = le16 msg 14)
    (bitmap : slice msg headerLen (le16 msg 14) = body) :
    decodeFdis msg = .ok
      { width := le16 msg 10, height := le16 msg 12, bits := body
        seq := BitVec.ofNat 32 (le16 msg 4), durationMs := 0, flags := 0
        timestamp := some (BitVec.ofNat 32 (le32 msg 6)), format := .fdis } := by
  rw [decodeFdis, if_neg long.not_gt, if_neg (not_not_intro magic), if_neg inRange, if_neg (not_not_intro length),
    if_neg whole.not_lt, if_neg whole.symm.not_lt, bitmap]

end

/-- Settles O14: the header's fields are read off its bytes, and the body is all that follows it. -/
theorem decodeFdisReturnsTheFrame : Obligations.DecodeFdisReturnsTheFrame := by
  rintro s q0 q1 t0 t1 t2 t3 w0 w1 h0 h1 p0 p1 body w h rfl rfl lowW highW lowH highH length size
  obtain ⟨long, after, bitmap⟩ := header_append (body := body)
    (header := [0x46, 0x44, 0x49, 0x53, q0, q1, t0, t1, t2, t3, w0, w1, h0, h1, p0, p1]) rfl
  have inRange := fdis_inRange lowW highW lowH highH
  have payload : body.take (p0.toNat + p1.toNat * 256) = body :=
    List.take_of_length_le (size.trans length.symm).le
  have decoded := decodeFdis_ok long rfl inRange length (after.trans (size.trans length.symm))
    ((bitmap _).trans payload)
  have timestamp : t0.toNat + t1.toNat * 256 + (t2.toNat + t3.toNat * 256) * 65536 =
      t0.toNat + t1.toNat * 256 + t2.toNat * 65536 + t3.toNat * 16777216 := by omega
  rw [exec_decodeFdis, execDecodeFdis, decoded, ← timestamp]
  rfl

/-- Settles O15: each error of `decodeFdis` answers under the checks before it passing; past the magic the fields are
read off a header written out byte by byte. -/
theorem decodeFdisRejects : Obligations.DecodeFdisRejects := by
  intro s msg report
  refine ⟨fun short => exec_decodeFdis_err (decodeFdis_shortHeader short) s,
    fun long bad => exec_decodeFdis_err (decodeFdis_badMagic long bad) s, ?fields⟩
  rintro q0 q1 t0 t1 t2 t3 w0 w1 h0 h1 p0 p1 body rfl w h plen rfl rfl rfl
  obtain ⟨long, after, -⟩ := header_append (body := body)
    (header := [0x46, 0x44, 0x49, 0x53, q0, q1, t0, t1, t2, t3, w0, w1, h0, h1, p0, p1]) rfl
  refine ⟨fun out => ?dimension, fun lowW highW lowH highH => ?payload⟩
  case dimension => exact exec_decodeFdis_err (decodeFdis_dimension long rfl (fdis_outOfRange out)) s
  case payload =>
    have inRange := fdis_inRange lowW highW lowH highH
    refine ⟨fun mismatch => exec_decodeFdis_err (decodeFdis_lengthField long rfl inRange mismatch) s,
      fun length => ⟨fun short => ?_, fun extra => ?_⟩⟩
    · rw [← after] at short ⊢
      exact exec_decodeFdis_err (decodeFdis_shortPayload long rfl inRange length short) s
    · rw [← after] at extra ⊢
      exact exec_decodeFdis_err (decodeFdis_longPayload long rfl inRange length extra) s

end Sys2Proof.Machine
end

section
/-! The mapper's laws (42_mapper.md): MAP's errors, packing and unpacking, how orientations compose, and the column bytes
of a panel of at most seven rows; and the encoder (43_encoder.md R165 to R175). -/

namespace Sys2Proof.Machine

/-! ### MAP's errors -/

/-- R140: what MAP rejects, the operation reports, and changes nothing else. -/
theorem exec_map_err {s : State} {frame : Frame} {e : Err} (err : mapFrame s frame = .error e) :
    exec (.map frame) s = .next { s with results := s.results ++ [⟨s.turn, .err e⟩] } := by
  rw [exec_map, execMap, err]
  rfl

/-- Settles O18: the errors are `mapFrame`'s, each under the checks before it passing. -/
theorem mapReportsItsFirstFailure : Obligations.MapReportsItsFirstFailure := by
  intro s frame report
  refine ⟨fun fresh => exec_map_err (mapFrame_notConfigured fresh),
    fun configured => ⟨fun bad => exec_map_err (mapFrame_canvasLength configured bad), ?bounds⟩⟩
  intro length pre p post split inside out
  have first := firstOutOfBounds_append 0 (post := post) inside out
  rw [← split, Nat.zero_add] at first
  exact exec_map_err (mapFrame_outOfBounds configured length first)

/-! ### Packing and unpacking -/

/-- R157: unpacking undoes packing. -/
theorem unpack_packRows {g : Grid} (hg : g.wf = true) : unpackRows (packRows g) g.w g.h = g :=
  calc unpackRows (packRows g) g.w g.h
      = gridOf g.h g.w (gridBit g) := gridOf_congr fun _ _ hr hc => pixel_packRows g hr hc
    _ = g := gridOf_gridBit hg

section
variable {bits : List Byte} {w h : Nat}

/-- Place x of row y of the repacked canvas: the canvas bit, and 0 in the padding (R142, R144). -/
theorem packRows_unpack_bit {x y : Nat} (hy : y < h) (hx : x < 8 * stride w) :
    ((packRows (unpack bits w h)).getD (y * stride w + x / 8) 0).getLsbD (7 - x % 8) =
      (decide (x < w) && (bits.getD (y * stride w + x / 8) 0).getLsbD (7 - x % 8)) := by
  have bit := packRows_bit (unpack bits w h) hy hx
  rw [unpack, gridOf_w] at bit
  rw [unpack, bit]
  by_cases inside : x < w
  · rw [gridBit_gridOf hy inside, pixel]
  · simp [inside]

/-- Two strings of `h` rows of `stride w` bytes with the same bits are equal. -/
theorem rows_ext {a b : List Byte} (ha : a.length = h * stride w) (hb : b.length = h * stride w)
    (same : ∀ y x, y < h → x < 8 * stride w →
      (a.getD (y * stride w + x / 8) 0).getLsbD (7 - x % 8) = (b.getD (y * stride w + x / 8) 0).getLsbD (7 - x % 8)) :
    a = b := by
  refine List.ext_getElem (ha.trans hb.symm) fun k ka kb => byte_ext fun i hi => ?_
  have positive : 0 < stride w := Nat.pos_of_ne_zero fun zero => by simp [ha, zero] at ka
  have row : k / stride w < h := Nat.div_lt_of_lt_mul (by rw [Nat.mul_comm]; omega)
  have column : k % stride w < stride w := Nat.mod_lt k positive
  have place : k / stride w * stride w + (8 * (k % stride w) + (7 - i)) / 8 = k := by
    rw [show (8 * (k % stride w) + (7 - i)) / 8 = k % stride w by omega, Nat.mul_comm, Nat.div_add_mod]
  have bit := same (k / stride w) (8 * (k % stride w) + (7 - i)) row (by omega)
  rw [place, show 7 - (8 * (k % stride w) + (7 - i)) % 8 = i by omega] at bit
  simpa [ka, kb] using bit

/-- R157: packing undoes unpacking exactly where the padding bits are 0. -/
theorem packRows_unpack_iff (length : bits.length = h * stride w) : packRows (unpack bits w h) = bits ↔
    ∀ y x, y < h → w ≤ x → x < 8 * stride w →
      (bits.getD (y * stride w + x / 8) 0).getLsbD (7 - x % 8) = false := by
  constructor
  · intro same y x hy padding hx
    have bit := packRows_unpack_bit (bits := bits) hy hx
    rw [same] at bit
    simpa [padding.not_gt] using bit
  · intro clear
    refine rows_ext (w := w) (h := h) (length_packRows _) length fun y x hy hx => ?_
    rw [packRows_unpack_bit hy hx]
    by_cases inside : x < w
    · simp [inside]
    · rw [clear y x hy (Nat.le_of_not_lt inside) hx, Bool.and_false]

end

/-- Settles O19: bit by bit; a canvas unpacks to a well-formed grid, so the third law is the first on that grid. -/
theorem packUnpackRoundTrip : Obligations.PackUnpackRoundTrip :=
  ⟨fun _ => unpack_packRows,
    fun bits w h length => ⟨packRows_unpack_iff length, unpack_packRows (g := unpack bits w h) (gridOf_wf _ _ _)⟩⟩

/-! ### Orientations compose -/

/-- An orientation copies from inside its input (R148 to R153). -/
theorem sourceCell_lt {o : Orientation} {h w r c : Nat} (hr : r < (orientDims o w h).2)
    (hc : c < (orientDims o w h).1) : (sourceCell o h w r c).1 < h ∧ (sourceCell o h w r c).2 < w := by
  cases o <;> simp only [orientDims, sourceCell] at hr hc ⊢ <;> omega

/-- Two orientations in a row are a third one where the sizes and the source cells agree. -/
theorem orient_orient {first second both : Orientation} {g : Grid}
    (dims : orientDims second (orientDims first g.w g.h).1 (orientDims first g.w g.h).2 = orientDims both g.w g.h)
    (cells : ∀ r c, r < (orientDims both g.w g.h).2 → c < (orientDims both g.w g.h).1 →
      sourceCell first g.h g.w
        (sourceCell second (orientDims first g.w g.h).2 (orientDims first g.w g.h).1 r c).1
        (sourceCell second (orientDims first g.w g.h).2 (orientDims first g.w g.h).1 r c).2 =
      sourceCell both g.h g.w r c) :
    orient second (orient first g) = orient both g := by
  have height : (orient second (orient first g)).h = (orientDims both g.w g.h).2 := by
    rw [orient_h, orient_w, orient_h, dims]
  have width : (orient second (orient first g)).w = (orientDims both g.w g.h).1 := by
    rw [orient_w, orient_w, orient_h, dims]
  refine grid_ext (orient_wf _ _) (orient_wf _ _) (height.trans (orient_h _ _).symm)
    (width.trans (orient_w _ _).symm) fun r c hr hc => ?_
  rw [height] at hr
  rw [width] at hc
  have inner := sourceCell_lt (o := second) (dims ▸ hr) (dims ▸ hc)
  have copies := gridBit_orient second (orient first g) (r := r) (c := c)
  rw [orient_h, orient_w, dims] at copies
  rw [copies hr hc, gridBit_orient first g inner.1 inner.2, cells r c hr hc, gridBit_orient both g hr hc]

/-- Settles O20: every law but the last is two orientations composing to a third, by their source cells. -/
theorem orientationLaws : Obligations.OrientationLaws := by
  intro g hg
  have normal : orient .normal g = g := gridOf_gridBit hg
  have cell {a b c d : Nat} (row : a = c) (column : b = d) : (a, b) = (c, d) := by rw [row, column]
  refine ⟨?halfTurn, ?halfTurn', ?quarter, ?quarter', ?twice, ?fliph, ?flipv, ?rot180, normal⟩
  case halfTurn =>
    exact (orient_orient (first := .fliph) (second := .flipv) (both := .rot180) rfl fun _ _ _ _ => rfl).symm
  case halfTurn' =>
    exact (orient_orient (first := .flipv) (second := .fliph) (both := .rot180) rfl fun _ _ _ _ => rfl).symm
  case twice =>
    exact orient_orient (first := .rot90) (second := .rot90) (both := .rot180) rfl fun _ _ _ _ => rfl
  all_goals refine Eq.trans ?_ normal
  case quarter =>
    refine orient_orient (first := .rot90) (second := .rot270) (both := .normal) rfl fun r c hr hc => cell ?_ rfl
    simp only [orientDims, sourceCell] at hr ⊢; omega
  case quarter' =>
    refine orient_orient (first := .rot270) (second := .rot90) (both := .normal) rfl fun r c hr hc => cell rfl ?_
    simp only [orientDims, sourceCell] at hc ⊢; omega
  case fliph =>
    refine orient_orient (first := .fliph) (second := .fliph) (both := .normal) rfl fun r c hr hc => cell rfl ?_
    simp only [orientDims, sourceCell] at hc ⊢; omega
  case flipv =>
    refine orient_orient (first := .flipv) (second := .flipv) (both := .normal) rfl fun r c hr hc => cell ?_ rfl
    simp only [orientDims, sourceCell] at hr ⊢; omega
  case rot180 =>
    refine orient_orient (first := .rot180) (second := .rot180) (both := .normal) rfl fun r c hr hc => cell ?_ ?_
    · simp only [orientDims, sourceCell] at hr ⊢; omega
    · simp only [orientDims, sourceCell] at hc ⊢; omega

/-- Settles O22: the quarter turns, each by what ORIENT copies for every orientation. -/
theorem quarterTurnsExecute : Obligations.QuarterTurnsExecute :=
  fun s g _ => ⟨exec_orientInstr_copies .rot90 g s, exec_orientInstr_copies .rot270 g s⟩

/-! ### Column bytes -/

/-- A byte with its top bit clear is below 0x80. -/
theorem byte_lt_of_top_clear {b : Byte} (clear : b.getLsbD 7 = false) : b.toNat < 0x80 := by
  have msb : b.msb = false := by rw [BitVec.msb_eq_getLsbD_last]; exact clear
  have := BitVec.msb_eq_false_iff_two_mul_lt.1 msb
  omega

/-- Settles O24: bit 7 of a column byte is row 7 of the grid, which a grid of at most seven rows does not have. -/
theorem columnBytesBelowTheStartByte : Obligations.ColumnBytesBelowTheStartByte := by
  intro frame p low b mem
  have height : (panelGrid frame p).h ≤ 7 := by rwa [panelGrid_h]
  obtain ⟨c, -, rfl⟩ := List.mem_map.1 mem
  have clear := getLsbD_byteOf (fun i => decide (i < (panelGrid frame p).h) && gridBit (panelGrid frame p) i c)
    (i := 7) (by decide)
  rw [decide_eq_false height.not_gt, Bool.false_and] at clear
  have below := byte_lt_of_top_clear clear
  exact ⟨below, by bv_omega, by bv_omega⟩

/-! ### The encoder -/

section
variable {addr : Byte} {data : List Byte} {mode : Mode}

/-- R166: the frame of an entry of the table. -/
theorem encodePanel_ok {cmd : Command} (entry : cmdLookup data.length mode = some cmd) :
    encodePanel addr data mode = .ok (WireFrame.bytes ⟨cmd, addr, data⟩) := by
  rw [encodePanel, entry]

theorem encodePanel_error (missing : cmdLookup data.length mode = none) :
    encodePanel addr data mode = .error (.unsupportedDataWidthMode data.length mode) := by
  rw [encodePanel, missing]

/-- What the encoder answers is a frame of the table's command, with the address and the data it was given. -/
theorem encodePanel_eq_ok {bytes : List Byte} (ok : encodePanel addr data mode = .ok bytes) :
    ∃ cmd, cmdLookup data.length mode = some cmd ∧ bytes = WireFrame.bytes ⟨cmd, addr, data⟩ := by
  unfold encodePanel at ok
  split at ok
  · cases ok
  · next cmd entry => cases ok; exact ⟨cmd, entry, rfl⟩

/-- The dispatcher's arm. -/
theorem exec_encodePanel (s : State) : exec (.encodePanel addr data mode) s =
    .next (s.answer s.turn (resultOf .bytes (encodePanel addr data mode))) := rfl

end

/-- R94, R165: the pairs without an entry. -/
theorem cmdLookup_none {n : Nat} {mode : Mode}
    (missing : (n ≠ 0 ∧ n ≠ 7 ∧ n ≠ 14 ∧ n ≠ 28) ∨ (n = 7 ∧ mode = .buffered)) : cmdLookup n mode = none := by
  rcases missing with ⟨flush, seven, fourteen, twentyEight⟩ | ⟨rfl, rfl⟩
  · simp only [cmdLookup, flush, seven, fourteen, twentyEight, if_false]
  · rfl

/-- Settles O25: an entry of the table is the encoder's command, and without an entry it answers the error. -/
theorem encodePanelFramesTheDataOrRejects : Obligations.EncodePanelFramesTheDataOrRejects := by
  intro s addr data mode
  refine ⟨fun byte entry => ?_, fun missing => ?_⟩
  · obtain ⟨cmd, found, rfl⟩ := Option.map_eq_some_iff.1 ((cmdLookup_byte_iff _ _ _).2 entry)
    rw [exec_encodePanel, encodePanel_ok found]
    rfl
  · rw [exec_encodePanel, encodePanel_error (cmdLookup_none missing)]
    rfl

/-- Settles O26: the table's entry of no data is the flush in either mode. -/
theorem encodeFlushFramesTheAddress : Obligations.EncodeFlushFramesTheAddress := by
  intro s addr mode
  have entry : cmdLookup ([] : List Byte).length mode = some .flush := rfl
  refine ⟨rfl, ?_⟩
  rw [exec_encodePanel, encodePanel_ok entry]
  rfl

/-! ### The recogniser on encoded frames -/

/-- The frame the encoder builds of an address, data and a mode. -/
def encodedFrame (addr : Byte) (data : List Byte) (mode : Mode) : WireFrame :=
  ⟨(cmdLookup data.length mode).getD .flush, addr, data⟩

theorem encodedFrame_spec {addr : Byte} {data bytes : List Byte} {mode : Mode}
    (ok : encodePanel addr data mode = .ok bytes) :
    cmdLookup data.length mode = some (encodedFrame addr data mode).cmd ∧
      data.length = (encodedFrame addr data mode).cmd.dataLen ∧ bytes = (encodedFrame addr data mode).bytes := by
  obtain ⟨cmd, entry, rfl⟩ := encodePanel_eq_ok ok
  rw [encodedFrame, entry]
  exact ⟨rfl, (dataLen_of_cmdLookup entry).symm, rfl⟩

/-- Settles O27: encoded frames are whole frames, and a concatenation of whole frames is recognised as those. -/
theorem encodedFramesAreRecognised : Obligations.EncodedFramesAreRecognised := by
  intro parts encoded
  have bytes : (parts.flatMap fun q => q.2.2.2) =
      (parts.map fun q => encodedFrame q.1 q.2.1 q.2.2.1).flatMap WireFrame.bytes := by
    rw [List.flatMap_map]
    exact List.flatMap_congr fun q mem => (encodedFrame_spec (encoded q mem)).2.2
  refine ⟨parts.map fun q => encodedFrame q.1 q.2.1 q.2.2.1, (recognise_eq_iff _ _).2 ⟨bytes, ?_⟩,
    List.length_map _, fun k q at_k => ?_⟩
  · intro f mem
    obtain ⟨q, part, rfl⟩ := List.mem_map.1 mem
    obtain ⟨-, length, -⟩ := encodedFrame_spec (encoded q part)
    exact length
  · obtain ⟨entry, -, -⟩ := encodedFrame_spec (encoded q (List.mem_of_getElem? at_k))
    exact ⟨_, by rw [List.getElem?_map, at_k, Option.map_some], rfl, rfl, entry⟩

end Sys2Proof.Machine
end

section
/-! The receivers (43_encoder.md R176 to R183): what each frame does to each panel, and what is lost for good. -/

namespace Sys2Proof.Machine

/-! ### One frame, on a stream that has its meaning -/

/-- R176: on a live stream a frame's instruction changes the receivers' table by the frame, and nothing else. -/
theorem exec_instr_live {s : State} (live : s.rxLost = false) (whole : s.truncated = false) (f : WireFrame) :
    exec f.instr s = .next { s with rx := rxFrame s.panels s.rx f } := by
  rw [exec_instr]
  simp [State.receive, live, whole]

theorem panelAt_none {panels : List PanelConfig} {a : Nat} (free : ∀ p ∈ panels, p.addr ≠ a) :
    panelAt panels a = none :=
  List.find?_eq_none.2 fun p mem => by simpa using free p mem

theorem panelAt_isSome {panels : List PanelConfig} {a : Nat} (taken : ∃ p ∈ panels, p.addr = a) :
    (panelAt panels a).isSome = true := by
  obtain ⟨p, mem, addr⟩ := taken
  exact List.find?_isSome.2 ⟨p, mem, beq_iff_eq.2 addr⟩

theorem panelAt_some {panels : List PanelConfig} {a : Nat} {p : PanelConfig} (found : panelAt panels a = some p) :
    p ∈ panels ∧ p.addr = a :=
  ⟨List.mem_of_find?_eq_some found, beq_iff_eq.1 (List.find?_some (p := fun p : PanelConfig => p.addr == a) found)⟩

/-- A valid topology's address finds its panel (R116, R176). -/
theorem ValidTopology.panelAt {cfg : Config} (valid : ValidTopology cfg) {p : PanelConfig} (mem : p ∈ cfg.panels)
    {a : Nat} (addr : p.addr = a) : panelAt cfg.panels a = some p := by
  have distinct : (cfg.panels.map PanelConfig.addr).Nodup := List.pairwise_map.2 valid.addresses
  obtain ⟨q, found⟩ := Option.isSome_iff_exists.1 (panelAt_isSome ⟨p, mem, addr⟩)
  obtain ⟨qmem, qaddr⟩ := panelAt_some found
  exact List.inj_on_of_nodup_map distinct qmem mem (qaddr.trans addr.symm) ▸ found

theorem State.panels_configured {s : State} (configured : s.configured = true) : s.panels = s.cfg.panels :=
  if_pos configured

/-- The receivers take the frame as data, in this mode (R177, R179). -/
def TakenIn (mode : Mode) (f : WireFrame) : Prop :=
  ∀ panels rx, rxFrame panels rx f = rxData panels mode f.addr f.data rx

section
variable {s : State} {f : WireFrame} {mode : Mode} {p : PanelConfig} {r : RxState}
  (live : s.rxLost = false) (whole : s.truncated = false) (data : TakenIn mode f)
include live whole data

/-- R177, R179: data of the panel's own width has its effect on that panel alone. -/
theorem exec_data_taken (configured : s.configured = true) (valid : ValidTopology s.cfg) (mem : p ∈ s.cfg.panels)
    (addr : p.addr = f.addr.toNat) (width : f.data.length = dataWidth p) (panel : s.rxPanel f.addr = .live r) :
    ∃ t, exec f.instr s = .next t ∧ t = { s with rx := t.rx } ∧
      t.rxPanel f.addr = .live (rxTake mode f.data r) ∧ ∀ b, b ≠ f.addr → t.rxPanel b = s.rxPanel b := by
  have at_addr : panelAt s.panels f.addr.toNat = some p := by
    rw [State.panels_configured configured, valid.panelAt mem addr]
  refine ⟨_, exec_instr_live live whole f, rfl, ?_, fun b other => ?_⟩
  · rw [State.rxPanel] at panel ⊢
    rw [data, rxGet_rxData_self at_addr, if_pos width, panel, RxPanel.update_live]
  · rw [State.rxPanel, data, rxGet_rxData_ne _ _ (mt BitVec.eq_of_toNat_eq other), State.rxPanel]

/-- R176: a data frame to an address without a panel changes nothing. -/
theorem exec_data_nobody (free : ∀ p ∈ s.panels, p.addr ≠ f.addr.toNat) : exec f.instr s = .next s := by
  rw [exec_instr_live live whole, data, rxData, panelAt_none free]

/-- R176, R269: data of another width loses the panel, and a lost panel stays lost; the others stay as they are. -/
theorem exec_data_lost (valid : ValidTopology s.cfg) (mem : p ∈ s.panels) (addr : p.addr = f.addr.toNat)
    (bad : f.data.length ≠ dataWidth p ∨ s.rxPanel f.addr = .lost) :
    ∃ t, exec f.instr s = .next t ∧ t = { s with rx := t.rx } ∧ t.rxPanel f.addr = .lost ∧
      ∀ b, b ≠ f.addr → t.rxPanel b = s.rxPanel b := by
  have configured : s.configured = true := by
    by_contra fresh
    simp [State.panels, fresh] at mem
  rw [State.panels_configured configured] at mem
  have at_addr : panelAt s.panels f.addr.toNat = some p := by
    rw [State.panels_configured configured, valid.panelAt mem addr]
  refine ⟨_, exec_instr_live live whole f, rfl, ?_, fun b other => ?_⟩
  · rw [State.rxPanel] at bad ⊢
    rw [data, rxGet_rxData_self at_addr]
    split_ifs with width
    · rw [bad.resolve_left (not_not_intro width), RxPanel.update_lost]
    · rfl
  · rw [State.rxPanel, data, rxGet_rxData_ne _ _ (mt BitVec.eq_of_toNat_eq other), State.rxPanel]

end

/-- Settles O28: each instant command's frame is taken as R177 says. -/
theorem instantFramesShowAtOnce : Obligations.InstantFramesShowAtOnce := by
  intro s addr data p i r live whole configured valid mem address width panel command
  have taken (cmd : Command) (inMode : TakenIn .instant ⟨cmd, addr, data⟩) :=
    exec_data_taken live whole inMode configured valid mem address width panel
  simp only [List.mem_cons, Prod.mk.injEq, List.not_mem_nil, or_false] at command
  rcases command with ⟨rfl, -⟩ | ⟨rfl, -⟩ | ⟨rfl, -⟩
  · exact taken .data7I fun _ _ => rfl
  · exact taken .data14I fun _ _ => rfl
  · exact taken .data28I fun _ _ => rfl

/-- Settles O29: each buffered command's frame is taken as R179 says. -/
theorem bufferedFramesAreHeld : Obligations.BufferedFramesAreHeld := by
  intro s addr data p i r live whole configured valid mem address width panel command
  have taken (cmd : Command) (inMode : TakenIn .buffered ⟨cmd, addr, data⟩) :=
    exec_data_taken live whole inMode configured valid mem address width panel
  simp only [List.mem_cons, Prod.mk.injEq, List.not_mem_nil, or_false] at command
  rcases command with ⟨rfl, -⟩ | ⟨rfl, -⟩
  · exact taken .data14B fun _ _ => rfl
  · exact taken .data28B fun _ _ => rfl

/-- Settles O31: in either mode a frame for no panel changes nothing, and a bad one loses its panel alone. -/
theorem framesForNoPanelOrOfAnotherWidth : Obligations.FramesForNoPanelOrOfAnotherWidth := by
  intro s addr data i live whole command
  obtain ⟨cmd, mode, rfl, inMode⟩ : ∃ cmd mode, i = WireFrame.instr ⟨cmd, addr, data⟩ ∧
      TakenIn mode ⟨cmd, addr, data⟩ := by
    simp only [List.mem_cons, List.not_mem_nil, or_false] at command
    rcases command with rfl | rfl | rfl | rfl | rfl
    · exact ⟨.data7I, .instant, rfl, fun _ _ => rfl⟩
    · exact ⟨.data14I, .instant, rfl, fun _ _ => rfl⟩
    · exact ⟨.data14B, .buffered, rfl, fun _ _ => rfl⟩
    · exact ⟨.data28I, .instant, rfl, fun _ _ => rfl⟩
    · exact ⟨.data28B, .buffered, rfl, fun _ _ => rfl⟩
  refine ⟨exec_data_nobody live whole inMode, fun p mem address valid bad => ?_⟩
  obtain ⟨t, run, same, lost, others⟩ := exec_data_lost live whole inMode valid mem address bad
  have seen : t.rxAt addr = ⟨.unknown, .unknown⟩ := by rw [State.rxAt, lost, RxPanel.seen_lost, rxUnknown]
  exact ⟨t, run, same, lost, seen, others⟩

/-- Settles O30: a flush is `rxFlushOne` on every configured panel, and leaves every other address alone. -/
theorem flushAppliesHeldData : Obligations.FlushAppliesHeldData := by
  intro s addr live whole canonical
  refine ⟨_, exec_instr_live live whole ⟨.flush, addr, []⟩, rfl, fun a => ⟨fun taken => ?_, fun free => ?_⟩⟩
  · have flushed := rxGet_rxFlush s.panels canonical.1 a.toNat
    rw [if_pos (panelAt_isSome taken)] at flushed
    simp only [State.rxPanel, rxFrame, flushed]
    refine ⟨fun r panel => ⟨fun d held => ?_, fun held => ?_, fun held => ?_⟩, fun lost => ?_⟩
    · simp only [panel, RxPanel.update_live, rxFlushOne, held]
    · simp only [panel, RxPanel.update_live, rxFlushOne, held]
    · simp only [panel, RxPanel.update_live, rxFlushOne, held]
    · rw [lost, RxPanel.update_lost]
  · have kept := rxGet_rxFlush s.panels canonical.1 a.toNat
    rw [panelAt_none free] at kept
    exact kept

/-! ### Losing the stream -/

/-- A lost stream's panels are unknown (R183). -/
theorem loseStream_rxAt (s : State) (a : Byte) : s.loseStream.rxAt a = ⟨.unknown, .unknown⟩ := rfl

/-- R183: where no whole frame can be taken, the receivers' turn loses the stream. -/
theorem step_lose {s : State} (due : s.receiversDue = true) (nothing : fetchFrame s = none) :
    step s = .next s.loseStream := by
  simp only [step, due, if_true, receiverStep, nothing]

/-- Settles O32: a cut stream has no frame to take, nor has one whose bytes are no whole frame. -/
theorem brokenStreamIsLost : Obligations.BrokenStreamIsLost := by
  intro s live broken
  suffices h : s.receiversDue = true ∧ fetchFrame s = none from
    ⟨_, step_lose h.1 h.2, rfl, loseStream_rxAt s⟩
  by_cases cut : s.truncated = true
  · exact ⟨by simp [State.receiversDue, live, cut], if_pos cut⟩
  · obtain ⟨inside, noFrame⟩ := broken.resolve_left cut
    refine ⟨by simp [State.receiversDue, live, inside], ?_⟩
    rw [fetchFrame, if_neg cut]
    split
    · rfl
    · next f rest found =>
      obtain ⟨at_place, length⟩ := cutFrame_ok found
      exact absurd length (noFrame f rest at_place)

/-! ### What stays lost -/

/-- An entry the filter keeps is read as before, if no earlier one has its key. -/
theorem tableGet_filter_some {α : Type} {q : Nat × α → Bool} {t : List (Nat × α)} {a : Nat} {v : α}
    (entry : tableGet t a = some v) (keeps : q (a, v) = true) : tableGet (t.filter q) a = some v := by
  induction t with
  | nil => cases entry
  | cons e t ih =>
    obtain ⟨k, w⟩ := e
    rw [tableGet_cons] at entry
    rw [List.filter_cons]
    by_cases here : a = k
    · subst here
      rw [if_pos rfl] at entry
      cases entry
      rw [if_pos keeps, tableGet_cons, if_pos rfl]
    · rw [if_neg here] at entry
      split_ifs
      · rw [tableGet_cons, if_neg here, ih entry]
      · exact ih entry

theorem rxGet_lost_iff {rx : List (Nat × RxPanel)} {a : Nat} :
    rxGet rx a = .lost ↔ tableGet rx a = some .lost := by
  unfold rxGet
  cases tableGet rx a with
  | none => simp [rxUnlisted]
  | some v => simp

/-- A lost panel is lost after any data frame (R269). -/
theorem rxGet_rxData_lost {panels : List PanelConfig} {rx : List (Nat × RxPanel)} {a : Nat}
    (lost : rxGet rx a = .lost) (mode : Mode) (addr : Byte) (data : List Byte) :
    rxGet (rxData panels mode addr data rx) a = .lost := by
  by_cases here : a = addr.toNat
  · subst here
    cases found : panelAt panels addr.toNat with
    | none => rwa [rxData, found]
    | some p =>
      rw [rxGet_rxData_self found, lost, RxPanel.update_lost, ite_self]
  · rwa [rxGet_rxData_ne _ _ here]

/-- A lost panel is lost after a flush, whatever the form of the table (R178, R269). -/
theorem rxGet_rxFlush_lost {panels : List PanelConfig} {rx : List (Nat × RxPanel)} {a : Nat}
    (lost : rxGet rx a = .lost) : rxGet (rxFlush panels rx) a = .lost := by
  rw [rxGet_lost_iff] at lost ⊢
  rw [rxFlush_eq]
  refine tableGet_filter_some ?_ rfl
  rw [tableGet_map fun e : Nat × RxPanel => if (panelAt panels e.1).isSome then e.2.update rxFlushOne else e.2, lost,
    Option.map_some, RxPanel.update_lost, ite_self]

theorem rxGet_rxFrame_lost {panels : List PanelConfig} {rx : List (Nat × RxPanel)} {a : Nat}
    (lost : rxGet rx a = .lost) (f : WireFrame) : rxGet (rxFrame panels rx f) a = .lost := by
  unfold rxFrame
  cases f.cmd with
  | data7I | data14I | data14B | data28I | data28B => exact rxGet_rxData_lost lost _ _ _
  | flush => exact rxGet_rxFlush_lost lost

theorem State.rxAt_of_lost {s : State} {a : Byte} (lost : s.rxPanel a = .lost) : s.rxAt a = ⟨.unknown, .unknown⟩ := by
  rw [State.rxAt, lost, RxPanel.seen_lost, rxUnknown]

/-- Settles O33: only the receivers write what they keep; on a lost stream they have no turn, and their frames leave a
lost panel lost. -/
theorem lostStreamStaysLost : Obligations.LostStreamStaysLost := by
  intro s t h
  cases step_receivers h with
  | kept same =>
    have panel (a : Byte) : t.rxPanel a = s.rxPanel a := by rw [State.rxPanel, State.rxPanel, same.rx]
    refine ⟨fun lost unknown => ⟨same.rxLost.trans lost, fun a => ?_⟩, fun a lost => ?_⟩
    · rw [State.rxAt, panel]; exact unknown a
    · have lost := (panel a).trans lost
      exact ⟨State.rxAt_of_lost lost, .inl lost⟩
  | lose live eq =>
    subst eq
    exact ⟨fun lost => absurd lost (by simp [live]), fun a _ => ⟨loseStream_rxAt s a, .inr rfl⟩⟩
  | frame live f _ _ rx =>
    refine ⟨fun lost => absurd lost (by simp [live]), fun a lost => ?_⟩
    have lost : t.rxPanel a = .lost := by rw [State.rxPanel, rx]; exact rxGet_rxFrame_lost lost f
    exact ⟨State.rxAt_of_lost lost, .inl lost⟩

end Sys2Proof.Machine
end

section
/-! The connection and the transmit operations, step by step (44_transport.md R187 to R204). -/

namespace Sys2Proof.Machine

/-! ### The connection lock -/

/-- The dispatcher's arms. -/
theorem exec_connect (s : State) : exec .connect s = .next
    (if s.configured then acquireConn s.turn .connectWait (connectBody s.turn) s
     else s.raise s.turn .notConfigured) := rfl

theorem exec_disconnect (s : State) :
    exec .disconnect s = .next (acquireConn s.turn .disconnectWait (disconnectBody s.turn) s) := rfl

section
variable {s : State} {c : Caller} {wait : Phase} {body : State → State}

theorem acquireConn_free (lock : s.connLock = none) : acquireConn c wait body s = body s := by
  rw [acquireConn, lock]

theorem acquireWrite_held {kind : TxKind} {b : Batch} (lock : s.writeLock ≠ none) :
    acquireWrite c kind b s = s.setOp c (.writeWait kind b) := by
  obtain ⟨d, held⟩ := Option.ne_none_iff_exists'.1 lock
  simp only [acquireWrite, held]

theorem acquireConn_held (lock : s.connLock ≠ none) : acquireConn c wait body s = s.setOp c wait := by
  obtain ⟨d, held⟩ := Option.ne_none_iff_exists'.1 lock
  rw [acquireConn, held]

theorem connectBody_connected (conn : s.conn = .connected) : connectBody c s = s.finish c (.ok .unit) :=
  if_pos conn

theorem connectBody_opens (conn : s.conn ≠ .connected) : connectBody c s =
    { s with conn := .connecting, connLock := some c }.setOp c (.opening s.cfg.serial) :=
  if_neg conn

theorem disconnectBody_disconnected (conn : s.conn = .disconnected) : disconnectBody c s = s.finish c (.ok .unit) :=
  if_pos conn

theorem disconnectBody_closes (conn : s.conn ≠ .disconnected) : disconnectBody c s =
    { s with conn := .disconnected, connLock := some c }.setOp c .closing :=
  if_neg conn

/-- What setting one operation does, as the statements say it: the caller's phase, and the others' as before. -/
theorem setOp_spec (s : State) (c : Caller) (p : Phase) :
    (s.setOp c p).opOf c = some p ∧ ∀ d, d ≠ c → (s.setOp c p).opOf d = s.opOf d :=
  ⟨State.opOf_setOp_self s c p, fun _ => State.opOf_setOp_ne s p⟩

theorem finish_spec (s : State) (c : Caller) (r : Result) :
    (s.finish c r).opOf c = none ∧ ∀ d, d ≠ c → (s.finish c r).opOf d = s.opOf d :=
  ⟨State.opOf_finish_self s c r, fun _ => State.opOf_finish_ne s r⟩

end

/-- Settles O34: the two cases of `connectBody`, once the lock is free. -/
theorem connectAnswersOrStartsTheOpen : Obligations.ConnectAnswersOrStartsTheOpen := by
  intro s
  refine ⟨fun fresh => ?_, fun configured lock => ⟨fun conn op => ?_, fun conn => ?_⟩⟩
  · rw [exec_connect, if_neg (Bool.eq_false_iff.1 fresh)]
    rfl
  · rw [exec_connect, if_pos configured, acquireConn_free lock, connectBody_connected conn, State.finish_of_none op]
    rfl
  · rw [exec_connect, if_pos configured, acquireConn_free lock, connectBody_opens conn]
    exact ⟨_, rfl, rfl, setOp_spec _ _ _⟩

/-- Settles O36: the two cases of `disconnectBody`, once the lock is free. -/
theorem disconnectStartsTheClose : Obligations.DisconnectStartsTheClose := by
  intro s lock op
  refine ⟨fun conn => ?_, fun conn => ?_⟩
  · rw [exec_disconnect, acquireConn_free lock, disconnectBody_disconnected conn, State.finish_of_none op]
    rfl
  · rw [exec_disconnect, acquireConn_free lock, disconnectBody_closes conn]
    exact ⟨_, rfl, rfl, setOp_spec _ _ _⟩

/-- Settles O37: the answer ends the operation and frees the lock; by the invariant the block is down already. -/
theorem closeIsAnswered : Obligations.CloseIsAnswered := by
  intro s u a c inv idle event lock op
  have down := inv.closing c op
  obtain ⟨es, n, rfl⟩ := takeEvent_frame event
  exact ⟨_, step_closed idle event lock op, rfl, down, finish_spec _ _ _⟩

/-! ### Waiting for a lock -/

section
variable {s u : State} {c : Caller}

/-- The turn of a caller that waits for the connection lock, while it is held: nothing changes (R190). -/
theorem step_conn_waits (idle : s.receiversDue = false) (event : s.takeEvent = (.caller c, u))
    (agent : c ∈ s.params.callers) (canonical : tableWf s.ops) (lock : s.connLock ≠ none)
    (op : s.opOf c = some .connectWait ∨ s.opOf c = some .disconnectWait) : step s = .next u := by
  obtain ⟨es, n, rfl⟩ := takeEvent_frame event
  rcases op with op | op <;>
    (rw [step_resume idle event agent op, resume, acquireConn_held, State.setOp_of_eq]
     exacts [canonical, op, lock])

/-- The turn of a caller that waits for the write lock, while it is held: nothing changes (R204). -/
theorem step_write_waits {kind : TxKind} {b : Batch} (idle : s.receiversDue = false)
    (event : s.takeEvent = (.caller c, u)) (agent : c ∈ s.params.callers) (canonical : tableWf s.ops)
    (lock : s.writeLock ≠ none) (op : s.opOf c = some (.writeWait kind b)) : step s = .next u := by
  obtain ⟨es, n, rfl⟩ := takeEvent_frame event
  rw [step_resume idle event agent op, resume, acquireWrite_held, State.setOp_of_eq]
  exacts [canonical, op, lock]

end

/-- Settles O38: `acquireConn` waits, a waiting caller sets the phase it is in, and `writeStart` stays. -/
theorem theConnectionLockMakesOthersWait : Obligations.TheConnectionLockMakesOthersWait := by
  intro s u d held
  have lock : s.connLock ≠ none := by simp [held]
  refine ⟨fun configured => ?_, ?_, fun c idle event agent canonical op => ?_,
    fun b kind ms idle event batch op current => ?_⟩
  · rw [exec_connect, if_pos configured, acquireConn_held lock]
    exact ⟨_, rfl, rfl, setOp_spec _ _ _⟩
  · rw [exec_disconnect, acquireConn_held lock]
    exact ⟨_, rfl, rfl, setOp_spec _ _ _⟩
  · exact step_conn_waits idle event agent canonical lock op
  · rw [step_write idle event batch op current]
    obtain ⟨es, n, rfl⟩ := takeEvent_frame event
    simp only [writeStart, held]

/-- Settles O39: with its lock free a waiting caller's turn is the body it waited with. -/
theorem aFreeLockIsTakenOnTheWaitersTurn : Obligations.AFreeLockIsTakenOnTheWaitersTurn := by
  intro s u c idle event agent goesOn ends
  have turn {p : Phase} (op : s.opOf c = some p) : step s = .next (resume c p u) := step_resume idle event agent op
  have canonicalWait := step_conn_waits idle event agent
  have canonicalWrite {kind : TxKind} {b : Batch} := step_write_waits (kind := kind) (b := b) idle event agent
  obtain ⟨es, n, rfl⟩ := takeEvent_frame event
  refine ⟨fun op lock => ⟨fun conn => ?_, fun conn => ?_⟩, fun op lock => ⟨fun conn => ?_, fun conn => ?_⟩,
    fun op lock canonical => canonicalWait canonical lock op,
    fun kind b op => ⟨fun lock => ?_, fun lock canonical => canonicalWrite canonical lock op⟩⟩
  · refine ⟨_, turn op, ?_⟩
    rw [resume, acquireConn_free, connectBody_connected]
    exacts [⟨rfl, finish_spec _ _ _⟩, conn, lock]
  · refine ⟨_, turn op, ?_⟩
    rw [resume, acquireConn_free, connectBody_opens]
    exacts [⟨rfl, setOp_spec _ _ _⟩, conn, lock]
  · refine ⟨_, turn op, ?_⟩
    rw [resume, acquireConn_free, disconnectBody_disconnected]
    exacts [⟨rfl, finish_spec _ _ _⟩, conn, lock]
  · refine ⟨_, turn op, ?_⟩
    rw [resume, acquireConn_free, disconnectBody_closes]
    exacts [⟨rfl, setOp_spec _ _ _⟩, conn, lock]
  · obtain ⟨others, taken, -⟩ := acquireWrite_spec c kind b { s with schedule := es, draws := n }
    obtain ⟨eq, phase⟩ := taken lock
    exact ⟨_, turn op, eq, phase, others⟩

/-! ### The frame write -/

/-- Where a write error happened, as the statements say it (R213). -/
theorem batchPos_eq (kind : TxKind) (b : Batch) :
    batchPos kind b = if kind = .tick then some ⟨b.cur, b.cur⟩ else none := by
  cases kind <;> rfl

/-- R196: off a connected block a write ends its operation. -/
theorem writeStart_notConnected {c : Caller} {kind : TxKind} {b : Batch} {s : State} (lock : s.connLock = none)
    (conn : s.conn ≠ .connected) :
    writeStart c kind b s = endBatch c (.err (.notConnected (batchPos kind b))) s := by
  simp only [writeStart, lock, conn, if_false]

/-- Settles O40: with the lock free the write starts, or finds no connection and ends the operation. -/
theorem writeStartsOrFindsNoConnection : Obligations.WriteStartsOrFindsNoConnection := by
  intro s u b kind ms idle event lock batch op current
  have turn := step_write idle event batch op current
  obtain ⟨es, n, rfl⟩ := takeEvent_frame event
  refine ⟨fun conn => ⟨_, turn, ?_⟩, fun conn => ⟨_, turn, ?_⟩⟩
  · rw [writeStart_connected]
    exacts [⟨rfl, setOp_spec _ _ _⟩, lock, conn]
  · rw [writeStart_notConnected, batchPos_eq]
    exacts [⟨rfl, finish_spec _ _ _⟩, lock, conn]

/-- A short write ends the operation with what the device took on the wire (R198, R213). -/
theorem writeAnswer_short {c : Caller} {kind : TxKind} {b : Batch} {f : List Byte} {a : DeviceAnswer} {s : State}
    (short : a.accepted < f.length) : writeAnswer c kind b f a s =
      endBatch c (.err (.shortWrite a.accepted f.length (batchPos kind b)))
        { wroteBytes f a.accepted a.duration s with truncated := true } :=
  if_pos short

/-- Settles O41: the accepted bytes are appended and the operation ends there. -/
theorem shortWriteEndsTheOperation : Obligations.ShortWriteEndsTheOperation := by
  intro s u a c kind b f idle event lock op batch current short
  have turn := step_wrote idle event lock op batch current
  obtain ⟨es, n, rfl⟩ := takeEvent_frame event
  refine ⟨_, turn, ?_⟩
  rw [writeAnswer_short short, batchPos_eq]
  exact ⟨rfl, finish_spec _ _ _⟩

/-! ### Transmit operations start -/

/-- The dispatcher's arms. -/
theorem exec_sendFrame (f : List Byte) (s : State) : exec (.sendFrame f) s = .next (sendBytes f s) := rfl

theorem exec_sendFlush (s : State) : exec .sendFlush s = .next
    (if s.configured then sendBytes (encodeFlush s.cfg.flushAddress) s else s.raise s.turn .notConfigured) := rfl

/-- Settles O43: past the empty string SEND_FRAME is taking the write lock. -/
theorem sendFrameTakesTheWriteLock : Obligations.SendFrameTakesTheWriteLock := by
  intro s f
  obtain ⟨others, taken, waits⟩ := acquireWrite_spec s.turn .send ⟨s.turn, [f], 0, false, none⟩ s
  refine ⟨fun empty => ?_, fun bytes lock => ?_, fun bytes lock => ?_⟩
  · rw [exec_sendFrame, sendBytes, if_pos empty]
    rfl
  · obtain ⟨eq, phase⟩ := taken lock
    rw [exec_sendFrame, sendBytes, if_neg bytes]
    exact ⟨_, rfl, eq, phase, others⟩
  · obtain ⟨eq, phase⟩ := waits lock
    rw [exec_sendFrame, sendBytes, if_neg bytes]
    exact ⟨_, rfl, eq, phase, others⟩

/-- SEND_FLUSH on a configured block is SEND_FRAME of the configured flush frame (R203). -/
theorem exec_sendFlush_configured {s : State} (configured : s.configured = true) :
    exec .sendFlush s = exec (.sendFrame [0x80, 0x82, s.cfg.flushAddress, 0x8F]) s := by
  rw [exec_sendFlush, if_pos configured]
  rfl

/-- Settles O44: by what SEND_FRAME does with the flush frame. -/
theorem sendFlushSendsTheFlushFrame : Obligations.SendFlushSendsTheFlushFrame := by
  intro s
  refine ⟨fun fresh => ?_, fun configured lock => ?_, exec_sendFlush_configured⟩
  · rw [exec_sendFlush, if_neg (Bool.eq_false_iff.1 fresh)]
    rfl
  · obtain ⟨-, taken, -⟩ := sendFrameTakesTheWriteLock s [0x80, 0x82, s.cfg.flushAddress, 0x8F]
    rw [exec_sendFlush_configured configured]
    exact taken (List.cons_ne_nil _ _) lock

/-- Settles O45: the batch is the tick's, and the rest is taking the write lock. -/
theorem tickStartsItsBatch : Obligations.TickStartsItsBatch := by
  intro s frame configured valid panels fits
  obtain ⟨fl, flushes⟩ : ∃ fl : Bool, fl = true ↔ tickBuffered s.cfg := by
    by_cases buffered : tickBuffered s.cfg
    · exact ⟨true, by simp [buffered]⟩
    · exact ⟨false, by simp [buffered]⟩
  obtain ⟨others, taken, waits⟩ := acquireWrite_spec s.turn .tick (batchOfTick s.turn s.cfg frame fl) s
  refine ⟨batchOfTick s.turn s.cfg frame fl, rfl, rfl, rfl, fun buffered => ?_, fun unbuffered => ?_, _,
    exec_tick configured valid panels fits flushes, others, taken, waits⟩
  · cases flushes.2 buffered
    exact ⟨rfl, rfl⟩
  · cases Bool.eq_false_iff.2 (mt flushes.1 unbuffered)
    exact ⟨rfl, rfl⟩

end Sys2Proof.Machine
end

section
/-! What holds of every step and every run: the wire log's `truncated`, the connection's state machine (R30), no fault
(R245), no deadlock (R218) and, under a fair device, progress (R201). -/

namespace Sys2Proof.Machine

/-- Settles O51: only the device's answer to a frame write touches `truncated`, and a short one sets it. -/
theorem truncatedRecordsAShortWrite : Obligations.TruncatedRecordsAShortWrite := by
  intro s t h
  cases step_record h with
  | kept same =>
    exact ⟨fun cut => same.truncated.trans cut, fun whole cut => absurd (same.truncated.symm.trans cut) (by simp [whole])⟩
  | latched latches =>
    exact ⟨fun cut => latches.truncated.trans cut,
      fun whole cut => absurd (latches.truncated.symm.trans cut) (by simp [whole])⟩
  | wrote c kind b f a _ _ batch current writes =>
    refine ⟨fun cut => by rw [writes.truncated, cut, Bool.true_or], fun whole cut => ?_⟩
    rw [writes.truncated, whole, Bool.false_or, decide_eq_true_eq] at cut
    exact ⟨b, f, a.accepted, batch, current, cut, writes.wire⟩

/-! ### The connection's state machine -/

/-- What a step can do to the connection state (R30). -/
inductive ConnNext (s t : State) : Prop
  | kept (same : t.conn = s.conn)
  /-- CONNECT hands the open to the device, with the lock free (R187). -/
  | opens (lock : s.connLock = none) (down : s.conn ≠ .connected) (next : t.conn = .connecting)
  /-- DISCONNECT takes the block down, with the lock free (R192). -/
  | closes (lock : s.connLock = none) (up : s.conn ≠ .disconnected) (next : t.conn = .disconnected)
  /-- The device answers an open (R187, R191). -/
  | opened (c : Caller) (serial : SerialParams) (op : s.opOf c = some (.opening serial))
      (next : t.conn = .connected ∨ t.conn = .disconnected)

section
variable {s t u : State}

/-- A state that has the connection, its lock and the operations of `s` steps as `s` does. -/
theorem ConnNext.of_same (h : ConnNext u t) (conn : u.conn = s.conn) (lock : u.connLock = s.connLock)
    (ops : ∀ c, u.opOf c = s.opOf c) : ConnNext s t := by
  cases h with
  | kept same => exact .kept (same.trans conn)
  | opens free down next => exact .opens (lock ▸ free) (conn ▸ down) next
  | closes free up next => exact .closes (lock ▸ free) (conn ▸ up) next
  | opened c serial op next => exact .opened c serial ((ops c).symm.trans op) next

theorem ConnNext.connectWait (c : Caller) (s : State) :
    ConnNext s (acquireConn c .connectWait (connectBody c) s) := by
  by_cases lock : s.connLock = none
  · rw [acquireConn_free lock]
    by_cases conn : s.conn = .connected
    · rw [connectBody_connected conn]; exact .kept rfl
    · rw [connectBody_opens conn]; exact .opens lock conn rfl
  · rw [acquireConn_held lock]; exact .kept rfl

theorem ConnNext.disconnectWait (c : Caller) (s : State) :
    ConnNext s (acquireConn c .disconnectWait (disconnectBody c) s) := by
  by_cases lock : s.connLock = none
  · rw [acquireConn_free lock]
    by_cases conn : s.conn = .disconnected
    · rw [disconnectBody_disconnected conn]; exact .kept rfl
    · rw [disconnectBody_closes conn]; exact .closes lock conn rfl
  · rw [acquireConn_held lock]; exact .kept rfl

theorem ConnNext.resume (c : Caller) (p : Phase) (s : State) : ConnNext s (resume c p s) := by
  cases p with
  | connectWait => exact .connectWait c s
  | disconnectWait => exact .disconnectWait c s
  | writeWait kind b => rw [Machine.resume, acquireWrite]; split <;> exact .kept rfl
  | opening _ | closing | ready _ _ | writing _ => exact .kept rfl

theorem ConnNext.exec {i : Instr} (run : exec i s = .next t) : ConnNext s t := by
  cases exec_next run with
  | opening lock _ conn eq => subst eq; exact .opens lock conn rfl
  | closing lock conn eq => subst eq; exact .closes lock conn rfl
  | received f _ eq => subst eq; unfold State.receive; split_ifs <;> exact .kept rfl
  | answered _ eq | latched _ _ _ eq | finished _ eq | waits _ _ _ eq | takes _ _ _ _ _ _ eq
  | queues _ _ _ _ _ _ eq => subst eq; exact .kept rfl

theorem step_conn (h : step s = .next t) : ConnNext s t := by
  have event : ∀ {t : State}, ConnNext s.takeEvent.2 t → ConnNext s t := by
    intro t next
    have frame := takeEvent_state s
    exact next.of_same (by rw [frame]) (by rw [frame]) (takeEvent_opOf s)
  cases step_next h with
  | lose _ _ eq => subst eq; exact .kept rfl
  | frame _ i u fetch run =>
    obtain ⟨f, rest, -, -, -, rfl⟩ := fetchFrame_some fetch
    exact (ConnNext.exec run).of_same rfl rfl fun _ => rfl
  | resume _ c p _ _ _ eq => subst eq; exact event (.resume c p _)
  | request _ c i u _ _ _ fetch run =>
    obtain ⟨code, rest, -, -, rfl⟩ := fetchRequest_some fetch
    exact event ((ConnNext.exec run).of_same rfl rfl fun _ => rfl)
  | write _ b kind _ _ _ _ _ eq =>
    subst eq
    rcases writeStart_cases b.owner kind b s.takeEvent.2 with ⟨_, e⟩ | ⟨_, _, e⟩ | ⟨_, _, e⟩ <;> rw [e] <;>
      exact event (.kept rfl)
  | opened _ c serial a _ _ op eq =>
    subst eq
    rw [openAnswer_eq]
    refine .opened c serial op ?_
    cases a.ok with
    | true => exact .inl rfl
    | false => exact .inr rfl
  | closed _ c a _ _ _ eq => subst eq; exact event (.kept rfl)
  | wrote _ c kind b f a _ _ _ _ _ eq =>
    subst eq
    refine event (.kept ?_)
    unfold writeAnswer
    split_ifs
    · rfl
    · obtain ⟨batch, lock, ops, results, e⟩ :=
        advanceBatch_frame c kind b (wroteBytes f f.length a.duration s.takeEvent.2)
      rw [e]
      rfl
  | nothing _ eq => subst eq; exact event (.kept rfl)

end

/-- While the connection lock is free the block is connected or not, and not in between (R190). -/
theorem Invariant.conn_settled {s : State} (inv : Invariant s) (lock : s.connLock = none) :
    s.conn = .disconnected ∨ s.conn = .connected := by
  cases conn : s.conn with
  | disconnected => exact .inl rfl
  | connected => exact .inr rfl
  | connecting =>
    obtain ⟨c, serial, op⟩ := inv.connecting.1 conn
    cases inv.noHold lock op

/-- Settles O52: a step that starts an open or a close finds the lock free, and so the block not connecting; one that
answers an open finds it connecting. -/
theorem connectionFollowsItsStateMachine : Obligations.ConnectionFollowsItsStateMachine := by
  intro s t inv h changes
  cases step_conn h with
  | kept same => exact absurd same.symm changes
  | opens lock down next =>
    have conn := (inv.conn_settled lock).resolve_right down
    simp [conn, next]
  | closes lock up next =>
    have conn := (inv.conn_settled lock).resolve_left up
    simp [conn, next]
  | opened c serial op next =>
    have conn := inv.connecting.2 ⟨c, serial, op⟩
    rcases next with next | next <;> simp [conn, next]

/-! ### Whose turn takes an operation further -/

section
variable {s u : State}

/-- After the device's answer to a frame write the lock is free and the write is over. -/
theorem writeAnswer_over (c : Caller) (kind : TxKind) (b : Batch) (f : List Byte) (a : DeviceAnswer) (s : State) :
    (writeAnswer c kind b f a s).connLock = none ∧ (writeAnswer c kind b f a s).opOf c ≠ some (.writing kind) := by
  by_cases short : a.accepted < f.length
  · rw [writeAnswer_short short]
    exact ⟨rfl, by rw [opOf_endBatch, if_pos rfl]; simp⟩
  · rw [writeAnswer_full (Nat.le_of_not_lt short)]
    rcases advanceBatch_cases c kind b (wroteBytes f f.length a.duration s) with ⟨_, e⟩ | ⟨_, _, e⟩ | ⟨_, _, e⟩ <;>
      rw [e]
    · exact ⟨rfl, by simp⟩
    · exact ⟨rfl, by simp⟩
    · exact ⟨rfl, by rw [opOf_endBatch, if_pos rfl]; simp⟩

variable (inv : Invariant s)
include inv

/-- While the write lock is held its holder's batch is in flight, with a frame left (R36). -/
theorem Invariant.batch_in_flight {c : Caller} (lock : s.writeLock = some c) :
    ∃ b f, s.batch = some b ∧ b.owner = c ∧ b.current = some f := by
  have owner := inv.batchOwner
  rw [lock] at owner
  obtain ⟨b, batch, same⟩ := Option.map_eq_some_iff.1 owner
  obtain ⟨f, current⟩ := Option.isSome_iff_exists.1 (inv.batch b batch).current
  exact ⟨b, f, batch, same, current⟩

/-- R201: the device's turn answers whatever action it has been given; the connection lock is free after it, and its
holder's operation has gone on. -/
theorem Invariant.device_answers {c : Caller} {a : DeviceAnswer} (idle : s.receiversDue = false)
    (event : s.takeEvent = (.device a, u)) (lock : s.connLock = some c) :
    ∃ t, step s = .next t ∧ t.connLock = none ∧ t.opOf c ≠ s.opOf c := by
  obtain ⟨p, op, holds⟩ := (inv.connLock c).1 lock
  rw [op]
  cases p with
  | opening serial =>
    refine ⟨_, step_opened idle event lock op, ?_⟩
    rw [openAnswer_eq]
    exact ⟨rfl, by simp⟩
  | closing => exact ⟨_, step_closed idle event lock op, rfl, by simp [closeAnswer]⟩
  | writing kind =>
    obtain ⟨b, f, batch, -, current⟩ := inv.batch_in_flight ((inv.writeLock c).2 ⟨_, op, rfl⟩)
    exact ⟨_, step_wrote idle event lock op batch current, writeAnswer_over c kind b f a u⟩
  | connectWait | disconnectWait | writeWait _ _ | ready _ _ => cases holds

/-- The transmitter's turn with a batch in flight; with the connection lock free its owner's operation goes on. -/
theorem Invariant.transmitter_moves {b : Batch} (idle : s.receiversDue = false)
    (event : s.takeEvent = (.transmitter, u)) (batch : s.batch = some b) :
    ∃ t, step s = .next t ∧ (s.connLock = none → t.opOf b.owner ≠ s.opOf b.owner) := by
  have lock : s.writeLock = some b.owner := by rw [← inv.batchOwner, batch]; rfl
  obtain ⟨p, op, holds⟩ := (inv.writeLock b.owner).1 lock
  cases p with
  | ready kind ms =>
    refine ⟨_, step_write idle event batch op (inv.batch b batch).current, fun free => ?_⟩
    obtain ⟨es, n, rfl⟩ := takeEvent_frame event
    rw [op]
    by_cases conn : s.conn = .connected
    · rw [writeStart_connected]
      exacts [by simp, free, conn]
    · rw [writeStart_notConnected]
      exacts [by rw [opOf_endBatch, if_pos rfl]; simp, free, conn]
  | writing kind =>
    have here : u.batch = some b := by rw [takeEvent_snd event, takeEvent_batch, batch]
    have at_device : u.opOf b.owner = some (.writing kind) := by rw [takeEvent_snd event, takeEvent_opOf, op]
    refine ⟨u, ?_, fun free => ?_⟩
    · simp [step, idle, event, eventStep, transmitterStep, here, at_device]
    · cases inv.noHold free op
  | connectWait | opening _ | disconnectWait | closing | writeWait _ _ => cases holds

/-- With both locks free, the turn of a caller with an operation outstanding takes it further (R220). -/
theorem Invariant.waiter_moves {c : Caller} {p : Phase} (idle : s.receiversDue = false)
    (event : s.takeEvent = (.caller c, u)) (op : s.opOf c = some p) (connFree : s.connLock = none)
    (writeFree : s.writeLock = none) : ∃ t, step s = .next t ∧ t.opOf c ≠ s.opOf c := by
  refine ⟨_, step_resume idle event (inv.agent op) op, ?_⟩
  have noConn := inv.noHold connFree op
  have noWrite := inv.noWrite writeFree op
  obtain ⟨es, n, rfl⟩ := takeEvent_frame event
  rw [op]
  cases p with
  | connectWait =>
    rw [resume, acquireConn_free]
    · unfold connectBody; split_ifs <;> simp
    · exact connFree
  | disconnectWait =>
    rw [resume, acquireConn_free]
    · unfold disconnectBody; split_ifs <;> simp
    · exact connFree
  | writeWait kind b =>
    obtain ⟨-, taken, -⟩ := acquireWrite_spec c kind b { s with schedule := es, draws := n }
    obtain ⟨-, phase⟩ := taken writeFree
    rw [resume, phase]
    simp
  | opening _ | closing | writing _ => cases noConn
  | ready _ _ => cases noWrite

end

/-! ### Every step goes on, or refuses a request -/

section
variable {s u : State}

/-- The step takes up a caller's request that decodes to no operation, and refuses it (R245). -/
def RefusesRequest (s : State) : Prop :=
  ∃ r c code rest, step s = .refused r ∧ s.takeEvent.1 = .caller c ∧ c ∈ s.params.callers ∧ s.opOf c = none ∧
    takeRequest c s.requests = some (code, rest) ∧ decodeRequest code = .error r

/-- The receivers' turn always goes on: every instruction answers a next state. -/
theorem step_due_total (due : s.receiversDue = true) : ∃ t, step s = .next t := by
  cases fetch : fetchFrame s with
  | none => exact ⟨_, step_lose due fetch⟩
  | some taken =>
    obtain ⟨t, run⟩ := exec_answers taken.1 taken.2
    exact ⟨t, by simp only [step, due, if_true, receiverStep, fetch, run]⟩

/-- A caller with nothing outstanding and no request has nothing to do. -/
theorem step_no_request {c : Caller} (idle : s.receiversDue = false) (event : s.takeEvent = (.caller c, u))
    (agent : c ∈ s.params.callers) (op : s.opOf c = none) (nothing : takeRequest c s.requests = none) :
    step s = .next u := by
  obtain ⟨es, n, rfl⟩ := takeEvent_frame event
  have free : ({ s with schedule := es, draws := n } : State).opOf c = none := op
  simp [step, idle, event, eventStep, callerStep, agent, free, fetchRequest, nothing]

/-- With no batch in flight the transmitter has nothing to do. -/
theorem step_no_batch (idle : s.receiversDue = false) (event : s.takeEvent = (.transmitter, u))
    (nothing : s.batch = none) : step s = .next u := by
  obtain ⟨es, n, rfl⟩ := takeEvent_frame event
  simp [step, idle, event, eventStep, transmitterStep, nothing]

/-- With the connection lock free the device has nothing to answer. -/
theorem step_no_action {a : DeviceAnswer} (idle : s.receiversDue = false) (event : s.takeEvent = (.device a, u))
    (nothing : s.connLock = none) : step s = .next u := by
  obtain ⟨es, n, rfl⟩ := takeEvent_frame event
  simp [step, idle, event, eventStep, deviceStep, nothing]

theorem step_caller_total {c : Caller} (idle : s.receiversDue = false) (event : s.takeEvent = (.caller c, u)) :
    (∃ t, step s = .next t) ∨ RefusesRequest s := by
  by_cases agent : c ∈ s.params.callers
  case neg => exact .inl ⟨u, step_stranger idle event agent⟩
  cases op : s.opOf c with
  | some p => exact .inl ⟨_, step_resume idle event agent op⟩
  | none =>
    cases request : takeRequest c s.requests with
    | none => exact .inl ⟨u, step_no_request idle event agent op request⟩
    | some taken =>
      have turn := step_request idle event agent op request
      cases decoded : decodeRequest taken.1 with
      | error r =>
        rw [decoded] at turn
        exact .inr ⟨r, c, taken.1, taken.2, turn, congrArg Prod.fst event, agent, op, request, decoded⟩
      | ok i =>
        rw [decoded] at turn
        obtain ⟨t, run⟩ := exec_answers i { u with requests := taken.2, turn := c }
        exact .inl ⟨t, turn.trans run⟩

/-- A step of a state of the invariant goes on, or refuses a caller's request that decodes to no operation. -/
theorem Invariant.step_total (inv : Invariant s) : (∃ t, step s = .next t) ∨ RefusesRequest s := by
  by_cases due : s.receiversDue = true
  case pos => exact .inl (step_due_total due)
  have idle := Bool.eq_false_iff.2 due
  rcases event : s.takeEvent with ⟨e, u⟩
  cases e with
  | caller c => exact step_caller_total idle event
  | transmitter =>
    cases batch : s.batch with
    | none => exact .inl ⟨u, step_no_batch idle event batch⟩
    | some b =>
      obtain ⟨t, turn, -⟩ := inv.transmitter_moves idle event batch
      exact .inl ⟨t, turn⟩
  | device a =>
    cases lock : s.connLock with
    | none => exact .inl ⟨u, step_no_action idle event lock⟩
    | some c =>
      obtain ⟨t, turn, -⟩ := inv.device_answers idle event lock
      exact .inl ⟨t, turn⟩

end

/-- Settles O56: a step goes on, or is the refusal of an undecodable request. -/
theorem onlyUndecodableRequestsStopTheMachine : Obligations.OnlyUndecodableRequestsStopTheMachine := by
  intro s inv
  rcases inv.step_total with ⟨t, goes⟩ | ⟨r, c, code, rest, refused, event, agent, op, request, bad⟩
  · exact ⟨fun f stops => by simp [goes] at stops, fun r stops => by simp [goes] at stops⟩
  · exact ⟨fun f stops => by simp [refused] at stops,
      fun _ _ => ⟨c, code, rest, event, agent, op, request, fun i ok => by simp [bad] at ok⟩⟩

/-! ### No deadlock -/

/-- Settles O57: the holder of the connection lock waits for the device only, the holder of the write lock then for the
transmitter only, and with both locks free any waiting caller's turn takes its lock. -/
theorem theLocksNeverDeadlock : Obligations.TheLocksNeverDeadlock := by
  intro s inv idle outstanding
  have ask (e : Event) : ({ s with schedule := [e] } : State).takeEvent = (e, { s with schedule := [] }) := rfl
  have inv' (e : Event) : Invariant { s with schedule := [e] } := inv.of_same s.requests s.results s.turn [e] s.draws
  rcases Option.eq_none_or_eq_some s.connLock with connLock | ⟨c, connLock⟩
  · rcases Option.eq_none_or_eq_some s.writeLock with writeLock | ⟨c, writeLock⟩
    · obtain ⟨⟨c, p⟩, others, ops⟩ := List.exists_cons_of_ne_nil outstanding
      have op : s.opOf c = some p := by rw [State.opOf, ops, tableGet_cons, if_pos rfl]
      obtain ⟨t, turn, further⟩ := (inv' (.caller c)).waiter_moves idle (ask _) op connLock writeLock
      exact ⟨_, c, t, by simp [op], turn, further⟩
    · obtain ⟨p, op, -⟩ := (inv.writeLock c).1 writeLock
      obtain ⟨b, f, batch, owner, -⟩ := inv.batch_in_flight writeLock
      obtain ⟨t, turn, further⟩ := (inv' .transmitter).transmitter_moves idle (ask _) batch
      exact ⟨_, b.owner, t, by simp [owner, op], turn, further connLock⟩
  · obtain ⟨p, op, -⟩ := (inv.connLock c).1 connLock
    obtain ⟨t, turn, -, further⟩ := (inv' (.device ⟨true, 0, 0, 0⟩)).device_answers idle (ask _) connLock
    exact ⟨_, c, t, by simp [op], turn, further⟩

/-! ### Runs -/

theorem Run.invariant {r : Nat → State} (run : Run r) (inv : Invariant (r 0)) (n : Nat) : Invariant (r n) := by
  induction n with
  | zero => exact inv
  | succ n ih => exact ih.of_step (run n)

/-- Settles O58: a fair device's next turn frees the lock, if it is not free by then. -/
theorem aFairDeviceReleasesTheConnectionLock : Obligations.AFairDeviceReleasesTheConnectionLock := by
  intro r n c admissible fair inv held
  obtain ⟨run, progress⟩ := admissible
  rw [fair] at progress
  obtain ⟨m, later, idle, a, event⟩ := progress n (by simp [held])
  cases lock : (r m).connLock with
  | none =>
    have ne : n ≠ m := by
      rintro rfl
      simp [held] at lock
    exact ⟨m, Nat.lt_of_le_of_ne later ne, lock⟩
  | some d =>
    obtain ⟨t, turn, free, -⟩ := (run.invariant inv m).device_answers idle (Prod.ext event rfl) lock
    have next : r (m + 1) = t := by
      have both := (run m).symm.trans turn
      cases both
      rfl
    exact ⟨m + 1, Nat.lt_succ_of_le later, next ▸ free⟩

end Sys2Proof.Machine
end

section
/-! Two runs of a tick: one that another caller's DISCONNECT ends (44_transport.md R219), and what the panels display
after an undisturbed one (70_reset_and_hazards.md R257). -/

namespace Sys2Proof.Machine

/-! ### A disconnect between two frame writes -/

/-- One step in front of a run of counted length. -/
theorem run_succ {s t : State} (first : step s = .next t) (n : Nat) : core.run (n + 1) s = core.run n t := by
  have first : core.step s = .next t := first
  simp only [Host.Core.run, first]

/-- The state in which caller `d`'s DISCONNECT has taken the block down and its close is at the device (R192). -/
def State.closingBy (d : Caller) (requests : List Request) (later : List Event) (s : State) : State :=
  { s with
    schedule := later, requests := requests, turn := d, conn := .disconnected, connLock := some d }.setOp d .closing

section
variable {s : State} {d : Caller} {requests : List Request} {later : List Event}

/-- R192: with the lock free a requested DISCONNECT takes a connected block down. -/
theorem step_disconnect (idle : s.receiversDue = false) (schedule : s.schedule = .caller d :: later)
    (agent : d ∈ s.params.callers) (op : s.opOf d = none)
    (request : takeRequest d s.requests = some (encode .disconnect, requests)) (lock : s.connLock = none)
    (conn : s.conn ≠ .disconnected) : step s = .next (s.closingBy d requests later) := by
  have decoded : decodeRequest (encode .disconnect) = .ok .disconnect := rfl
  rw [step_request idle (takeEvent_cons schedule) agent op request, decoded]
  simp only [exec_disconnect]
  rw [acquireConn_free, disconnectBody_closes]
  exacts [rfl, conn, lock]

/-- R193: the device answers that close. -/
theorem step_closingBy (idle : s.receiversDue = false) (a : DeviceAnswer) :
    step (s.closingBy d requests (.device a :: later)) = .next (closeAnswer d a (s.closingBy d requests later)) :=
  step_closed (s := s.closingBy d requests (.device a :: later)) idle (takeEvent_cons rfl) rfl
    (State.opOf_setOp_self _ _ _)

/-- R195, R196: a batch that stands before its next frame write when the close has been answered ends there. -/
theorem step_write_after_close {b : Batch} {kind : TxKind} {ms : Nat} (idle : s.receiversDue = false)
    (batch : s.batch = some b) (current : b.current.isSome = true) (op : s.opOf b.owner = some (.ready kind ms))
    (other : b.owner ≠ d) (a : DeviceAnswer) :
    step (closeAnswer d a (s.closingBy d requests (.transmitter :: later))) =
      .next (endBatch b.owner (.err (.notConnected (batchPos kind b)))
        (closeAnswer d a (s.closingBy d requests later))) := by
  have standing : (closeAnswer d a (s.closingBy d requests (.transmitter :: later))).opOf b.owner =
      some (.ready kind ms) := by
    rw [closeAnswer, State.opOf_finish_ne _ _ other]
    exact (State.opOf_setOp_ne _ _ other).trans op
  have write := step_write (s := closeAnswer d a (s.closingBy d requests (.transmitter :: later))) idle
    (takeEvent_cons rfl) batch standing current
  rw [write, writeStart_notConnected]
  exacts [rfl, rfl, ConnState.noConfusion]

end

/-- Settles O53: the DISCONNECT, the device's answer to its close, and a frame write that finds no connection. -/
theorem disconnectBetweenFramesEndsTheTick : Obligations.DisconnectBetweenFramesEndsTheTick := by
  intro s b ms d a rest requests inv idle conn lock batch op other agent free ok request schedule
  have down := step_disconnect idle schedule agent free request lock (by simp [conn])
  have closed := step_closingBy (d := d) (requests := requests) (later := .transmitter :: rest) idle a
  have ended := step_write_after_close (d := d) (requests := requests) (later := rest) idle batch
    (inv.batch b batch).current op other.symm a
  refine ⟨_, (run_succ down 2).trans ((run_succ closed 1).trans (run_succ ended 0)), rfl, rfl, rfl, rfl, rfl, rfl, rfl,
    rfl, ?_⟩
  simp [closeAnswer, State.closingBy, ok, batchPos]

/-! ### What a tick's frames do to the panels -/

/-- The command of a table entry with data is taken in the entry's mode (R88, R176). -/
theorem takenIn_of_cmdLookup {n : Nat} {mode : Mode} {cmd : Command} (entry : cmdLookup n mode = some cmd)
    (data : n ≠ 0) (addr : Byte) (bytes : List Byte) : TakenIn mode ⟨cmd, addr, bytes⟩ := by
  simp only [cmdLookup, data, if_false] at entry
  split_ifs at entry
  · cases mode <;> cases entry; exact fun _ _ => rfl
  · cases mode <;> cases entry <;> exact fun _ _ => rfl
  · cases mode <;> cases entry <;> exact fun _ _ => rfl

theorem takenIn_tickPanelFrame {cfg : Config} {frame : Frame} {p : PanelConfig}
    (width : dataWidth p = 7 ∨ dataWidth p = 14 ∨ dataWidth p = 28) :
    TakenIn (refreshMode cfg (dataWidth p)) (tickPanelFrame cfg frame p) := by
  obtain ⟨cmd, entry, -⟩ := Option.map_eq_some_iff.1 (cmdLookup_refreshMode (cfg := cfg) width)
  rw [tickPanelFrame, entry]
  exact takenIn_of_cmdLookup entry (by omega) _ _

/-- A panel is buffered in a tick by R208's rule. -/
theorem refreshMode_eq_buffered_iff {cfg : Config} {w : Nat} : refreshMode cfg w = .buffered ↔
    cfg.bufferedModeEnabled = true ∧ 1 < cfg.panels.length ∧ (w = 14 ∨ w = 28) := by
  unfold refreshMode
  split_ifs with rule
  · exact iff_of_true rfl rule
  · exact iff_of_false (by simp) rule

/-- A valid address fits the address byte (R113). -/
theorem ValidTopology.toNat_addr {cfg : Config} (valid : ValidTopology cfg) {p : PanelConfig}
    (mem : p ∈ cfg.panels) : (BitVec.ofNat 8 p.addr : Byte).toNat = p.addr := by
  obtain ⟨fits, -⟩ := valid.panels p mem
  exact Nat.mod_eq_of_lt (Nat.lt_succ_of_le fits)

section
variable {cfg : Config} (valid : ValidTopology cfg) (frame : Frame)
include valid

/-- A panel's frame in a tick has its mode's effect on that panel (R177, R179). -/
theorem rxGet_tickPanelFrame_self {p : PanelConfig} (mem : p ∈ cfg.panels) (rx : List (Nat × RxPanel)) :
    rxGet (rxFrame cfg.panels rx (tickPanelFrame cfg frame p)) p.addr =
      (rxGet rx p.addr).update (rxTake (refreshMode cfg (dataWidth p)) (panelCols frame p)) := by
  have byte := valid.toNat_addr mem
  have found : panelAt cfg.panels (tickPanelFrame cfg frame p).addr.toNat = some p := valid.panelAt mem byte.symm
  have taken := rxGet_rxData_self found (refreshMode cfg (dataWidth p)) (panelCols frame p) rx
  rw [if_pos (length_panelCols frame p)] at taken
  rw [takenIn_tickPanelFrame (valid.width mem)]
  exact byte ▸ taken

/-- A panel's frame in a tick leaves every other address alone (R176). -/
theorem rxGet_tickPanelFrame_ne {p : PanelConfig} (mem : p ∈ cfg.panels) {a : Nat} (other : a ≠ p.addr)
    (rx : List (Nat × RxPanel)) : rxGet (rxFrame cfg.panels rx (tickPanelFrame cfg frame p)) a = rxGet rx a := by
  rw [takenIn_tickPanelFrame (valid.width mem)]
  refine rxGet_rxData_ne _ _ ?_ _ _
  rwa [tickPanelFrame, valid.toNat_addr mem]

/-- The frames of other panels leave an address alone. -/
theorem rxGet_foldl_ne {ps : List PanelConfig} (mem : ∀ p ∈ ps, p ∈ cfg.panels) {a : Nat}
    (other : ∀ p ∈ ps, a ≠ p.addr) (rx : List (Nat × RxPanel)) :
    rxGet ((ps.map (tickPanelFrame cfg frame)).foldl (rxFrame cfg.panels) rx) a = rxGet rx a := by
  induction ps generalizing rx with
  | nil => rfl
  | cons q ps ih =>
    obtain ⟨head, tail⟩ := List.forall_mem_cons.1 mem
    obtain ⟨ne, others⟩ := List.forall_mem_cons.1 other
    rw [List.map_cons, List.foldl_cons, ih tail others, rxGet_tickPanelFrame_ne valid frame head ne]

/-- After the panel frames of a tick every panel has taken its own one, and no other (R176). -/
theorem rxGet_foldl_self {ps : List PanelConfig} (mem : ∀ p ∈ ps, p ∈ cfg.panels)
    (distinct : ps.Pairwise fun a b => a.addr ≠ b.addr) {p : PanelConfig} (here : p ∈ ps)
    (rx : List (Nat × RxPanel)) :
    rxGet ((ps.map (tickPanelFrame cfg frame)).foldl (rxFrame cfg.panels) rx) p.addr =
      (rxGet rx p.addr).update (rxTake (refreshMode cfg (dataWidth p)) (panelCols frame p)) := by
  induction ps generalizing rx with
  | nil => cases here
  | cons q ps ih =>
    obtain ⟨head, tail⟩ := List.forall_mem_cons.1 mem
    obtain ⟨ne, distinct⟩ := List.pairwise_cons.1 distinct
    rw [List.map_cons, List.foldl_cons]
    rcases List.mem_cons.1 here with rfl | later
    · rw [rxGet_foldl_ne valid frame tail ne, rxGet_tickPanelFrame_self valid frame head]
    · rw [ih tail distinct later, rxGet_tickPanelFrame_ne valid frame head (ne p later).symm]

end

/-- Any frames keep the receivers' table in canonical form. -/
theorem rxWf_foldl (panels : List PanelConfig) (fs : List WireFrame) {rx : List (Nat × RxPanel)} (h : rxWf rx) :
    rxWf (fs.foldl (rxFrame panels) rx) := by
  induction fs generalizing rx with
  | nil => exact h
  | cons f fs ih => exact ih (rxWf_rxFrame panels h f)

/-- R257: after a tick's frames, in a configuration of one mode, a panel that is not lost displays its own slice: at
once where the mode is instant, and by the flush where it is buffered. -/
theorem displayed_after_tickWireFrames {cfg : Config} (valid : ValidTopology cfg) (frame : Frame) {flushed : Bool}
    (flushes : flushed = true ↔ tickBuffered cfg)
    (oneMode : ∀ p ∈ cfg.panels, ∀ q ∈ cfg.panels, refreshMode cfg (dataWidth p) = refreshMode cfg (dataWidth q))
    {rx : List (Nat × RxPanel)} (canonical : rxWf rx) {p : PanelConfig} (mem : p ∈ cfg.panels)
    (kept : rxGet rx p.addr ≠ .lost) :
    (rxGet ((tickWireFrames cfg frame flushed).foldl (rxFrame cfg.panels) rx) p.addr).seen.displayed =
      .cols (panelCols frame p) := by
  obtain ⟨r, panel⟩ : ∃ r, rxGet rx p.addr = .live r := by
    cases panel : rxGet rx p.addr with
    | live r => exact ⟨r, rfl⟩
    | lost => exact absurd panel kept
  have taken := rxGet_foldl_self valid frame (fun _ h => h) valid.addresses mem rx
  rw [panel, RxPanel.update_live] at taken
  rw [tickWireFrames, List.foldl_append]
  cases flushed with
  | false =>
    have instant : refreshMode cfg (dataWidth p) = .instant := by
      cases mode : refreshMode cfg (dataWidth p) with
      | instant => rfl
      | buffered =>
        obtain ⟨enabled, several, width⟩ := refreshMode_eq_buffered_iff.1 mode
        exact absurd (flushes.2 ⟨enabled, several, p, mem, width⟩) Bool.false_ne_true
    rw [instant] at taken
    simp only [Bool.false_eq_true, if_false, List.foldl_nil, taken, RxPanel.seen_live, rxTake]
  | true =>
    have buffered : refreshMode cfg (dataWidth p) = .buffered := by
      obtain ⟨enabled, several, q, qmem, width⟩ := flushes.1 rfl
      rw [oneMode p mem q qmem]
      exact refreshMode_eq_buffered_iff.2 ⟨enabled, several, width⟩
    rw [buffered] at taken
    obtain ⟨ordered, -, -⟩ := rxWf_foldl cfg.panels (cfg.panels.map (tickPanelFrame cfg frame)) canonical
    have flush := rxGet_rxFlush cfg.panels ordered p.addr
    rw [if_pos (panelAt_isSome ⟨p, mem, rfl⟩), taken, RxPanel.update_live] at flush
    simp only [if_true, List.foldl_cons, List.foldl_nil, rxFrame, flush, RxPanel.seen_live, rxTake, rxFlushOne]

/-- Settles O60: the run is the undisturbed tick's, and its frames are all that the receivers have taken. -/
theorem tickIsDisplayed : Obligations.TickIsDisplayed := by
  intro s c frame requests a rest frames flushed inv idle live notLost configured conn writeLock connLock agent op
    panels fits takes oneMode request flushes written schedule
  have valid := inv.topology configured
  have bytes : frames = (tickWireFrames s.cfg frame flushed).map WireFrame.bytes :=
    written.trans (bytes_tickWireFrames valid).symm
  rw [bytes, List.flatMap_map] at schedule
  have tick : UndisturbedTick s c frame requests a rest flushed :=
    ⟨inv, idle, configured, conn, writeLock, connLock, agent, op, panels, fits, takes, request, flushes, schedule⟩
  obtain ⟨t, ⟨n, run⟩, wrote, ended⟩ := tick.run
  refine ⟨n, t, run, ended.caughtUp.idle, ended.schedule, fun p mem => ?_⟩
  have byte := valid.toNat_addr mem
  have kept : rxGet s.rx p.addr ≠ .lost := byte ▸ notLost p mem
  have shown := displayed_after_tickWireFrames valid frame flushes oneMode inv.rx mem kept
  rw [State.rxAt, State.rxPanel, byte, wrote.rx live, State.panels_configured configured]
  exact shown

end Sys2Proof.Machine
end
